-- ==== Sys2Proof/Word.lean ====
section
/-! DEFINITION. The word types of ETMC: bytes, 32-bit bus words, 64-bit lengths, byte strings and 32-byte blocks. -/

namespace Sys2Proof

/-- A byte (R18). -/
abbrev Byte := BitVec 8

/-- A 32-bit bus or register word (R32, R67). -/
abbrev Word := BitVec 32

/-- A 64-bit length (R53, R54). -/
abbrev Length := BitVec 64

/-- An `ADDR_W`-bit byte offset of the bus port, `ADDR_W = 18` (R17). -/
abbrev Offset := BitVec 18

/-- A byte string of any length, first byte first (R18). -/
abbrev Bytes := List Byte

/-- A Block<32>: exactly 32 bytes (R16, R29, R100). -/
abbrev Bytes32 := Vector Byte 32

/-- `0^32` (R18). -/
def zero32 : Bytes32 := Vector.replicate 32 0#8

end Sys2Proof
end

