-- ==== Sys2Proof/Config.lean ====
section
/-! DEFINITION. The configuration of ETMC: the record of R114 with its laws, the hardware's own
configuration as opaque constants, and the named properties that are never laws. -/

namespace Sys2Proof

/-- The configuration record (R114): the engines of R105 to R110 with the type of PRNG states, the
labels of R118, the parameters of R12, R79 and R111, and proofs of exactly the laws R114 lists (with
R12's bounds). -/
structure Config where
  /-- `PState`, the type of PRNG states, any type (R15, R107). -/
  PState : Type
  /-- `KDF` (R105): master key, label. -/
  kdf : Bytes32 → Bytes32 → Bytes32
  /-- `PRNG_INIT` (R107); the block calls it with byte strings of SEED_BYTES bytes only (R111). -/
  prngInit : Bytes → PState
  /-- `PRNG_NEXT` (R107). -/
  prngNext : PState → Nat → Bytes × PState
  /-- `SENC` (R109): key, nonce, plaintext. -/
  senc : Bytes32 → Bytes32 → Bytes → Bytes
  /-- `SDEC` (R109): key, nonce, ciphertext. -/
  sdec : Bytes32 → Bytes32 → Bytes → Bytes
  /-- `MACF` (R110): key, message. -/
  macf : Bytes32 → Bytes → Bytes32
  /-- `LABEL_ENC` (R118). -/
  labelEnc : Bytes32
  /-- `LABEL_MAC` (R118). -/
  labelMac : Bytes32
  /-- `MAX_PT` (R12). -/
  maxPt : Nat
  /-- `SEED_BYTES` (R111). -/
  seedBytes : Nat
  /-- `ETMC_BASE`, the host address of offset 0 (R79). -/
  etmcBase : Nat
  /-- PRNG_LEN (R107). -/
  prngLen : ∀ st n, (prngNext st n).1.length = n
  /-- STREAM_LEN for `SENC` (R109). -/
  sencLen : ∀ k n p, (senc k n p).length = p.length
  /-- STREAM_LEN for `SDEC` (R109). -/
  sdecLen : ∀ k n c, (sdec k n c).length = c.length
  /-- STREAM_INV (R109). -/
  streamInv : ∀ k n p, sdec k n (senc k n p) = p
  /-- R118 (b); (a) is the type and (c) is being a field here. -/
  labelsDiffer : labelEnc ≠ labelMac
  /-- R12. -/
  maxPtLow : 4 ≤ maxPt
  /-- R12. -/
  maxPtHigh : maxPt ≤ 65464
  /-- R12. -/
  maxPtWords : maxPt % 4 = 0

/-- `BUF_BYTES = MAX_PT + 72` (R13). -/
def Config.bufBytes (cfg : Config) : Nat := cfg.maxPt + 72

/-- The host address of a byte offset of the block: where the platform put the port (R79). -/
def Config.hostAddress (cfg : Config) (off : Offset) : Nat := cfg.etmcBase + off.toNat

/-! ## The hardware's configuration: opaque constants (R15, D39, log 5)

Each constant has no body, so nothing can be proved of its value; the laws of R114 hold by the
types. A stream engine that keeps the length and is undone by its inverse is, at each key, nonce
and length, a permutation of the byte strings of that length, and every permutation is allowed.
Every pair of distinct labels is the image of two distinct blocks under some permutation. -/

/-- `KDF` of the hardware, any function (R105). -/
opaque Config.kdfEngine : Bytes32 → Bytes32 → Bytes32
/-- The hardware's PRNG states but one, any type (R15, R107). -/
opaque Config.otherPStates : Type
/-- `PState` of the hardware: any type that has an element, as it has by PRNG_INIT (R107, log 4). -/
abbrev Config.PStateEngine := Option Config.otherPStates
/-- `PRNG_INIT` of the hardware, any function (R107). -/
opaque Config.prngInitEngine : Bytes → Config.PStateEngine
/-- `PRNG_NEXT` of the hardware, any function with output of the length asked for (R107). -/
opaque Config.prngNextEngine : Config.PStateEngine → (n : Nat) → Vector Byte n × Config.PStateEngine
/-- The stream engine of the hardware, any length-keeping invertible function (R109). -/
opaque Config.streamEngine : Bytes32 → Bytes32 → (n : Nat) → Equiv.Perm (Vector Byte n)
/-- `MACF` of the hardware, any function (R110). -/
opaque Config.macEngine : Bytes32 → Bytes → Bytes32
/-- The permutation that places the two labels, any permutation (R118). -/
opaque Config.labelPlace : Equiv.Perm Bytes32
/-- `MAX_PT` of the hardware is four times one more than this, any multiple of 4 in R12's range (log 6). -/
opaque Config.maxPtIndex : Fin 16366
/-- `SEED_BYTES` of the hardware (R111). -/
opaque Config.seedLength : Nat
/-- `ETMC_BASE` of the platform (R79). -/
opaque Config.platformBase : Nat
/-- A free value for a host and the number of lines it has executed: the data an `RD` line gets with a
BUS_ERR, which carries none (R67), or what a name holds that no `RD` has read (R98, log 13). -/
opaque Config.hostFreeValue : Nat → Nat → Word

/-- A block that differs from `0^32`. -/
def Config.oneBlock : Bytes32 := zero32.set 0 1#8

/-- The configuration of the hardware: what `exec` and `step` run with. -/
def Config.hw : Config where
  PState := Config.PStateEngine
  kdf := Config.kdfEngine
  prngInit := Config.prngInitEngine
  prngNext st n := ((Config.prngNextEngine st n).1.toList, (Config.prngNextEngine st n).2)
  senc k n p := (Config.streamEngine k n p.length ⟨p.toArray, by simp⟩).toList
  sdec k n c := ((Config.streamEngine k n c.length).symm ⟨c.toArray, by simp⟩).toList
  macf := Config.macEngine
  labelEnc := Config.labelPlace zero32
  labelMac := Config.labelPlace Config.oneBlock
  maxPt := 4 * (Config.maxPtIndex.val + 1)
  seedBytes := Config.seedLength
  etmcBase := Config.platformBase
  prngLen st n := by simp
  sencLen k n p := by simp
  sdecLen k n c := by simp
  streamInv k n p := by
    have key : ∀ (m : Nat) (v : Vector Byte m) (h : v.toList.length = m),
        (Config.streamEngine k n v.toList.length).symm ⟨v.toList.toArray, by simp⟩ =
          ((Config.streamEngine k n m).symm v).cast h.symm := by
      intro m v h
      have : ∀ (j : Nat) (hj : m = j) (w : Vector Byte j), w = v.cast hj →
          (Config.streamEngine k n j).symm w = ((Config.streamEngine k n m).symm v).cast hj := by
        intro j hj w hw; subst hj; subst hw; rfl
      exact this _ h.symm _ (by ext i hi; simp)
    rw [key _ _ (by simp)]
    simp
  labelsDiffer := by
    intro h
    exact absurd (Config.labelPlace.injective h) (by decide)
  maxPtLow := by omega
  maxPtHigh := by have := Config.maxPtIndex.isLt; omega
  maxPtWords := by omega

/-! ## Label shape and named properties -/

/-- The label shape of R119: a printable ASCII tag of 1 to 31 bytes, then zero bytes. It is no law of
the configuration (R114); a statement that needs it takes it as a premise. -/
def Config.LabelShape (label : Bytes32) : Prop :=
  ∃ tag : Bytes, 1 ≤ tag.length ∧ tag.length ≤ 31 ∧
    (∀ b ∈ tag, 0x20 ≤ b.toNat ∧ b.toNat ≤ 0x7E) ∧
    label.toList = tag ++ List.replicate (32 - tag.length) 0#8

/-- KDF_SEP for the key `k` (R106): a premise a statement may take, never a law. -/
def Config.KdfSep (cfg : Config) (k : Bytes32) : Prop :=
  cfg.kdf k cfg.labelEnc ≠ cfg.kdf k cfg.labelMac

/-- KDF_KEYDEP (R106): a premise a statement may take, never a law. -/
def Config.KdfKeyDep (cfg : Config) : Prop :=
  ∀ k k', k ≠ k' → ∀ l, l = cfg.labelEnc ∨ l = cfg.labelMac → cfg.kdf k l ≠ cfg.kdf k' l

/-- The PRNG state after `i` draws of 32 bytes from the seed `s`: `st_i` of R136. -/
def Config.prngAfter (cfg : Config) (seed : Bytes) : Nat → cfg.PState
  | 0 => cfg.prngInit seed
  | i + 1 => (cfg.prngNext (cfg.prngAfter seed i) 32).2

/-- The bytes of draw `i + 1` from the seed `s`: `b_(i+1)` of R136. -/
def Config.drawnBytes (cfg : Config) (seed : Bytes) (i : Nat) : Bytes :=
  (cfg.prngNext (cfg.prngAfter seed i) 32).1

/-- PRNG_FRESH for the seed `s` over the first `count` draws (R108): a premise a statement may take,
never a law. There are finitely many blocks of 32 bytes, so the draws of an endless run cannot all
be distinct, and a statement says over how many it assumes it (log 17, DEDUCED). -/
def Config.PrngFresh (cfg : Config) (seed : Bytes) (count : Nat) : Prop :=
  ∀ i j, i < count → j < count → i ≠ j → cfg.drawnBytes seed i ≠ cfg.drawnBytes seed j

end Sys2Proof
end

