-- ==== Sys2Proof/Syntax.lean ====
section
/-! DEFINITION. The commands of ETMC: one constructor per row of the opcode table. -/

namespace Sys2Proof

/-- The seven commands (R92). A CMD word carries no register numbers and no immediates (R90), so no
constructor has an argument. -/
inductive Instr where
  /-- NOP (R153). -/
  | nop
  /-- GEN_NONCE (R154). -/
  | genNonce
  /-- ENC_RAW (R155). -/
  | encRaw
  /-- ENC (R156). -/
  | enc
  /-- DEC_RAW (R157). -/
  | decRaw
  /-- ZEROIZE (R158). -/
  | zeroize
  /-- SEED (R159). -/
  | seed
deriving DecidableEq, Repr

end Sys2Proof
end

