-- ==== Sys2Proof/WellFormed.lean ====
section
/-! DEFINITION. When a CMD word and a command are well formed. -/

namespace Sys2Proof

/-- The check of R94: the field RSVD, bits [31:4], is zero. -/
def CmdWord.reservedBitsClear (w : Word) : Bool := w.extractLsb' 4 28 == 0#28

/-- The check of R93: the field OPCODE, bits [3:0], is one of the seven of R92. -/
def CmdWord.opcodeAssigned (w : Word) : Bool := (w.extractLsb' 0 4).ult 7#4

/-- A CMD word is well formed when it selects a mnemonic (R92); every other word is ILLEGAL (R95). -/
def CmdWord.wellFormed (w : Word) : Bool :=
  CmdWord.reservedBitsClear w && CmdWord.opcodeAssigned w

/-- A command has no operand field that could be out of range (R90), so every term of `Instr` is
well formed; what can be ill formed is a CMD word (`CmdWord.wellFormed`) or a line of host assembly
(`Machine.HostLine.wellFormed`). -/
def Instr.wellFormed : Instr → Bool
  | .nop | .genNonce | .encRaw | .enc | .decRaw | .zeroize | .seed => true

end Sys2Proof
end

