-- ==== Sys2Proof/Decode.lean ====
section
/-! DEFINITION. Integer encodings (R19), the decoder of CMD words (R96) and the encoder (R92). -/

namespace Sys2Proof

/-! ## Integer encodings -/

/-- The `n` low bytes of `x`, least significant first: `u32le` for `n = 4`, `u64le` for `n = 8` (R19). -/
def leBytes : Nat → Nat → Bytes
  | 0, _ => []
  | n + 1, x => BitVec.ofNat 8 x :: leBytes n (x / 256)

/-- The number a byte string writes, least significant byte first (R19). -/
def leNat : Bytes → Nat
  | [] => 0
  | b :: bs => b.toNat + 256 * leNat bs

/-- `u32le` of a word (R19, R35). -/
def u32le (w : Word) : Bytes := leBytes 4 w.toNat

/-- `u32le⁻¹` of four bytes (R19, R35). -/
def u32leInv (bs : Bytes) : Word := BitVec.ofNat 32 (leNat bs)

/-- `u64le` of a length (R19). -/
def u64le (x : Length) : Bytes := leBytes 8 x.toNat

/-! ## Decoding -/

/-- Why a word is no command: each case is ILLEGAL (R93, R94), or no CMD word at all. -/
inductive IllegalWord where
  /-- Bits [31:4] are not all zero (R94). -/
  | reservedBits
  /-- OPCODE is one of 0x7 to 0xF (R93). -/
  | reservedOpcode
  /-- Fewer than four bytes: the port takes no narrower command word (R69, R89). -/
  | shortWord
deriving DecidableEq, Repr

/-- What a CMD word decodes to: one of the seven commands, or ILLEGAL with the reason's name (R96). -/
inductive Decoded where
  | command (i : Instr)
  | illegal (why : IllegalWord)
deriving DecidableEq, Repr

/-- The OPCODE field, bits [3:0] (R88, R91). -/
def opcodeField (w : Word) : BitVec 4 := w.extractLsb' 0 4

/-- The RSVD field, bits [31:4] (R88). -/
def reservedField (w : Word) : BitVec 28 := w.extractLsb' 4 28

/-- The opcode map of R92; none for the reserved values of R93. -/
def instrOfOpcode (op : BitVec 4) : Option Instr :=
  if op = 0x0#4 then some .nop
  else if op = 0x1#4 then some .genNonce
  else if op = 0x2#4 then some .encRaw
  else if op = 0x3#4 then some .enc
  else if op = 0x4#4 then some .decRaw
  else if op = 0x5#4 then some .zeroize
  else if op = 0x6#4 then some .seed
  else none

/-- The decoder of R96, total on all words. -/
def decode (w : Word) : Decoded :=
  if reservedField w ≠ 0#28 then .illegal .reservedBits
  else match instrOfOpcode (opcodeField w) with
    | some i => .command i
    | none => .illegal .reservedOpcode

/-- Decode from bytes, the first at the lowest address: the CMD word is the next four bytes,
little-endian (R35, R89), and the other bytes are left. -/
def decodeBytes : Bytes → Decoded × Bytes
  | b0 :: b1 :: b2 :: b3 :: rest => (decode (u32leInv [b0, b1, b2, b3]), rest)
  | bs => (.illegal .shortWord, bs)

/-! ## Encoding -/

/-- The OPCODE value of each command (R92). -/
def opcodeOf : Instr → BitVec 4
  | .nop => 0x0#4
  | .genNonce => 0x1#4
  | .encRaw => 0x2#4
  | .enc => 0x3#4
  | .decRaw => 0x4#4
  | .zeroize => 0x5#4
  | .seed => 0x6#4

/-- The CMD word of a command: OPCODE in bits [3:0], zero above (R88, R94). -/
def encode (i : Instr) : Word := (opcodeOf i).setWidth 32

/-- The command in an instruction given as the opcode table numbers it, `w` of `nbits` bits: laid
out as four bytes, little-endian, the bits above `nbits` zero, and given to `decodeBytes`. A `w`
that has bits above bit 31 is no CMD word (R89). -/
def decodeTableWord (nbits w : Nat) : Option Instr :=
  if w % 2 ^ nbits < 2 ^ 32 then
    match (decodeBytes (leBytes 4 (w % 2 ^ nbits))).1 with
    | .command i => some i
    | .illegal _ => none
  else none

end Sys2Proof
end

