-- ==== Sys2Proof/Machine/State.lean ====
section
/-! DEFINITION. The state of ETMC: the record of R58, the block's surroundings (the moves to come, the entropy
answers, the hosts), the reasons a step can stop, and the state after reset. -/

namespace Sys2Proof.Machine

/-! ## The parts of the state -/

/-- The sequencer states (R63). -/
inductive SeqState where
  | idle | check | seed | draw | kdfEnc | kdfMac | senc | macGen | frame
  | macChk | cmp | sdec | wipe | clear | finish
deriving DecidableEq, Repr

/-- The arbiter's derivation path `kdf_sel` (R116). -/
inductive KdfPath where
  | enc | mac
deriving DecidableEq, Repr

/-- The result codes by name (R183). -/
inductive ResultCode where
  | ok | badMac | frameErr | lenErr | keyMissing | nonceMissing | entropyFail | illegal
deriving DecidableEq, Repr

/-- The events of the history (R26): lengths, selectors and codes, never key bytes. -/
inductive Event where
  /-- `EvEntropy(ok)`: an entropy draw, and whether it succeeded. -/
  | entropy (ok : Bool)
  /-- `EvDraw(n)`. -/
  | draw (n : Nat)
  /-- `EvKdf(sel)`. -/
  | kdf (sel : KdfPath)
  /-- `EvSenc(len)`. -/
  | senc (len : Nat)
  /-- `EvSdec(len)`. -/
  | sdec (len : Nat)
  /-- `EvMac(len)`. -/
  | mac (len : Nat)
  /-- `EvCmp(i)`. -/
  | cmp (i : Nat)
  /-- `EvFinish(code)`. -/
  | finish (code : BitVec 4)
deriving DecidableEq, Repr

/-- A data buffer as the list of its bytes that differ from `blank`, by rising address (log 7). -/
abbrev Memory := List Host.Cell

/-- What a byte of a buffer that is not listed reads as: the reset contents `0x00` (R32, R58). -/
def Memory.blank : Byte := 0x00#8

/-! ## The surroundings -/

/-- The kind of a transaction (R67). -/
inductive AccessKind where
  | read | write
deriving DecidableEq, Repr

/-- The byte count of a transaction: 1, 2 or 4 (R67). -/
inductive AccessSize where
  | one | two | four
deriving DecidableEq, Repr

/-- A host transaction `(h, kind, off, size, wdata)` (R67); `wdata` is read only for a write. -/
structure Transaction where
  host : Nat
  kind : AccessKind
  off : Offset
  size : AccessSize
  wdata : Word
deriving DecidableEq, Repr

/-- The port's answer to a transaction (R67): OKAY with read data, OKAY to a write, or BUS_ERR. -/
inductive Reply where
  | data (rdata : Word)
  | okay
  | busErr
deriving DecidableEq, Repr

/-- `prng_state` as State holds it (R61, log 4): the seed PRNG_INIT took, and how many draws have
advanced it since (R136). `PState` is any type, whose elements can be neither compared nor written
out; `prngStateOf` is the element. -/
structure PrngOrigin where
  seed : Bytes
  draws : Nat
deriving DecidableEq, Repr

/-- The answer of the entropy source to one draw (R111): a seed, or failure. -/
inductive EntropyAnswer where
  | ok (seed : Bytes)
  | fail
deriving DecidableEq, Repr

/-- The data of a `WR` line: a number, or a name that an `RD` line gives a value (R98).
Names are numbers here (log 13). -/
inductive HostData where
  | num (w : Word)
  | name (x : Nat)
deriving DecidableEq, Repr

/-- A line of host assembly with its symbols and labels resolved (R98): `target` is the number of
the line the label names. `RD <off> == <value>` is `rd off none`: the value is a remark. -/
inductive HostLine where
  | wr (off : Offset) (d : HostData)
  | rd (off : Offset) (into : Option Nat)
  | bnz (x : Nat) (mask : Word) (target : Nat)
deriving DecidableEq, Repr

/-- A host that runs a program of host assembly (R98): its lines, the line it is at, and the values
its names hold, newest first; `executed` counts its lines executed so far, the model's own (log 13). -/
structure HostAgent where
  prog : List HostLine
  line : Nat
  names : List (Nat × Word)
  executed : Nat
deriving DecidableEq, Repr

/-- One move of the model: what happens next in the total order of R82 (log 1, log 2). -/
inductive Move where
  /-- The port serves one transaction (R67). -/
  | bus (t : Transaction)
  /-- The sequencer takes one step (R143). -/
  | sequencer
  /-- The platform asserts the reset input (R213). -/
  | reset
  /-- Host `h` writes the CMD word `w` and the sequencer then carries the command on with no other
  move between: the `RUN` of R99. -/
  | run (h : Nat) (w : Word)
  /-- Host agent `h` executes its next line (R98). -/
  | host (h : Nat)
  /-- The entropy source gives an answer (R25, R111). -/
  | entropy (a : EntropyAnswer)
deriving DecidableEq, Repr

/-- The block's surroundings. None of this is state of the block (log 1, 3, 12, 13). -/
structure Env where
  /-- The moves still to come, the next one first. -/
  moves : List Move
  /-- The entropy source's answers not yet taken; empty while it has not answered. -/
  entropy : List EntropyAnswer
  /-- The host agents, by number. -/
  hosts : List HostAgent
  /-- The port's answer to the latest transaction; none before the first. -/
  reply : Option Reply
deriving DecidableEq, Repr

/-! ## The state -/

/-- The whole state: the elements of R58, and the surroundings. -/
structure State where
  /-- `key`: the master key. -/
  key : Bytes32
  /-- `key_mask`: KEY words written. -/
  keyMask : BitVec 8
  /-- `nonce`: the nonce register. -/
  nonce : Bytes32
  /-- `nonce_mask`: NONCE words written. -/
  nonceMask : BitVec 8
  /-- `data_len`: the input length. -/
  dataLen : Length
  /-- `out_len`: the number of valid OUT bytes. -/
  outLen : Length
  /-- `ie`: the interrupt enable. -/
  ie : Bool
  /-- `busy`. -/
  busy : Bool
  /-- `done`. -/
  done : Bool
  /-- `collide`. -/
  collide : Bool
  /-- `seeded`. -/
  seeded : Bool
  /-- `fatal`. -/
  fatal : Bool
  /-- `result`: the last result code. -/
  result : BitVec 4
  /-- `last_op`: the last opcode field. -/
  lastOp : BitVec 4
  /-- `cmd_raw`: the accepted CMD word. -/
  cmdRaw : Word
  /-- `pend`: the result being built. -/
  pend : BitVec 4
  /-- `seq`: the sequencer state. -/
  seq : SeqState
  /-- `lat_len`: the latched length L. -/
  latLen : Length
  /-- `kdf_sel`: the arbiter's path. -/
  kdfSel : KdfPath
  /-- `sk_enc`: the encryption subkey. -/
  skEnc : Bytes32
  /-- `sk_mac`: the MAC subkey. -/
  skMac : Bytes32
  /-- `tag_calc`: the computed MAC. -/
  tagCalc : Bytes32
  /-- `diff`: the compare accumulator. -/
  diff : BitVec 8
  /-- `cmp_i`: the compare index, 0 to 32. -/
  cmpI : Fin 33
  /-- `prng_state`: none until seeded. -/
  prngState : Option PrngOrigin
  /-- `IN`. -/
  inBuf : Memory
  /-- `OUT`. -/
  outBuf : Memory
  /-- `hist`: the event history, oldest first. -/
  hist : List Event
  /-- The surroundings. -/
  env : Env
deriving DecidableEq, Repr

/-- Surroundings in which nothing is to come: no move, no entropy answer, no host agent, and no
transaction served yet (log 1, 3, 12, 13). -/
def Env.quiet : Env := { moves := [], entropy := [], hosts := [], reply := none }

/-- The state after reset (R58, R66, R214), in quiet surroundings. -/
def State.reset : State where
  key := zero32
  keyMask := 0#8
  nonce := zero32
  nonceMask := 0#8
  dataLen := 0#64
  outLen := 0#64
  ie := false
  busy := false
  done := false
  collide := false
  seeded := false
  fatal := false
  result := 0#4
  lastOp := 0#4
  cmdRaw := 0#32
  pend := 0#4
  seq := .idle
  latLen := 0#64
  kdfSel := .enc
  skEnc := zero32
  skMac := zero32
  tagCalc := zero32
  diff := 0#8
  cmpI := 0
  prngState := none
  inBuf := []
  outBuf := []
  hist := []
  env := Env.quiet

/-! ## Why a step can stop -/

/-- The faults. The block has none of its own (R182), and a host step never faults (R27): each is
raised only in a state the spec says is never reached. -/
inductive Fault where
  /-- Raised by MemRead and MemWrite when `a + n > BUF_BYTES`, where R21 does not define them; R77
  says it is never reached. Safe (log 8). -/
  | bufferRange
  /-- Raised by the DRAW step when `prng_state = none`, which R134 says is never reached. Safe (log 9). -/
  | drawUnseeded
  /-- Raised by the CMP step when all 32 bytes are compared already, for which R176 has no byte to
  read; it is never reached. Safe (log 9). -/
  | comparePastEnd
deriving DecidableEq, Repr

/-- The refusals. No CMD word is refused (R27). -/
inductive Refusal where
  /-- Raised only by an arm of `exec` whose command has no meaning yet; there is none. Safe. -/
  | notModelled (mnemonic : String)
deriving DecidableEq, Repr

end Sys2Proof.Machine
end

