-- ==== Sys2Proof/Machine/Ops.lean ====
section
/-! DEFINITION. The named operations over memory, blocks and the state that the steps and commands share. -/

namespace Sys2Proof.Machine

/-- The outcome of a step of this machine. -/
abbrev Result := Host.Outcome State Fault Refusal

/-- Go on with `f` from the next state; a fault or a refusal stays. -/
def andThen (r : Result) (f : State → Result) : Result :=
  match r with
  | .next s => f s
  | .fault e => .fault e
  | .refused e => .refused e

/-! ## Buffers -/

/-- The byte of a buffer at address `a`. -/
def Memory.read : Memory → Nat → Byte
  | [], _ => Memory.blank
  | c :: m, a => if c.1 = a then c.2 else Memory.read m a

/-- Put a cell into a list of cells in its place by address. -/
def Memory.insertCell : Memory → Nat → Byte → Memory
  | [], a, b => [(a, b)]
  | c :: m, a, b => if a < c.1 then (a, b) :: c :: m else c :: Memory.insertCell m a b

/-- Set the byte at address `a`, keeping the canonical form. -/
def Memory.write (m : Memory) (a : Nat) (b : Byte) : Memory :=
  if b = Memory.blank then m.filter (fun c => c.1 != a)
  else Memory.insertCell (m.filter (fun c => c.1 != a)) a b

/-- The bytes `BUF[a .. a+n)` (R21). -/
def Memory.readBytes (m : Memory) (a : Nat) : Nat → Bytes
  | 0 => []
  | n + 1 => m.read a :: Memory.readBytes m (a + 1) n

/-- Set `BUF[a+i] <- v[i]` for every byte of `v` (R21). -/
def Memory.writeBytes (m : Memory) (a : Nat) : Bytes → Memory
  | [] => m
  | b :: bs => Memory.writeBytes (m.write a b) (a + 1) bs

/-- The canonical form: addresses strictly rising, no cell equal to what an unlisted address reads as. -/
abbrev Memory.wf (m : Memory) : Prop :=
  m.Pairwise (fun c d => c.1 < d.1) ∧ ∀ c ∈ m, c.2 ≠ Memory.blank

/-- Every listed address lies below `n`. -/
abbrev Memory.below (m : Memory) (n : Nat) : Prop := ∀ c ∈ m, c.1 < n

/-- `MemRead(BUF, a, n)`, defined only inside the buffer (R21); `k` goes on with the bytes. -/
def memRead (cfg : Config) (m : Memory) (a n : Nat) (k : Bytes → Result) : Result :=
  if a + n ≤ cfg.bufBytes then k (m.readBytes a n) else .fault .bufferRange

/-- `MemWrite(BUF, a, n, v)` with `n = len(v)`, defined only inside the buffer (R21); `k` goes on
with the new contents. -/
def memWrite (cfg : Config) (m : Memory) (a : Nat) (v : Bytes) (k : Memory → Result) : Result :=
  if a + v.length ≤ cfg.bufBytes then k (m.writeBytes a v) else .fault .bufferRange

/-! ## Blocks of 32 bytes -/

/-- Byte `j` of a bus word: bits `[8j+7:8j]` (R35). -/
def byteOfWord (d : Word) (j : Nat) : Byte := d.extractLsb' (8 * j) 8

/-- Replace bytes `4i .. 4i+3` of a block by the bytes of a word (R55, R56). -/
def setBlockWord (v : Bytes32) (i : Fin 8) (d : Word) : Bytes32 :=
  (((v.set (4 * i.val) (byteOfWord d 0)).set (4 * i.val + 1) (byteOfWord d 1)).set
    (4 * i.val + 2) (byteOfWord d 2)).set (4 * i.val + 3) (byteOfWord d 3)

/-- The word `u32le⁻¹(v[4i .. 4i+4))` of a block (R56). -/
def blockWord (v : Bytes32) (i : Fin 8) : Word :=
  u32leInv [v[4 * i.val], v[4 * i.val + 1], v[4 * i.val + 2], v[4 * i.val + 3]]

/-- The block of a byte string of 32 bytes. -/
def blockOfBytes (b : Bytes) (h : b.length = 32) : Bytes32 := ⟨b.toArray, by simpa using h⟩

theorem Memory.readBytes_length (m : Memory) (a n : Nat) : (m.readBytes a n).length = n := by
  induction n generalizing a with
  | zero => rfl
  | succ n ih => simp [Memory.readBytes, ih]

/-- The bytes `BUF[a .. a+32)` as a block. -/
def Memory.readBlock (m : Memory) (a : Nat) : Bytes32 :=
  blockOfBytes (m.readBytes a 32) (m.readBytes_length a 32)

/-! ## Results and lifecycle -/

/-- The number of a result code (R183). -/
def codeOf : ResultCode → BitVec 4
  | .ok => 0#4
  | .badMac => 1#4
  | .frameErr => 2#4
  | .lenErr => 3#4
  | .keyMissing => 4#4
  | .nonceMissing => 5#4
  | .entropyFail => 6#4
  | .illegal => 7#4

/-- `emit e` (R23, R26). -/
def emit (e : Event) (s : State) : State := { s with hist := s.hist ++ [e] }

/-- `raise c`, that is `finish(c)`: end the command with the result `c` (R22, R151). The block has no
trap (R182): a failing command goes to its FINISH step with the code in `pend`. -/
def raise (c : ResultCode) (s : State) : State := { s with pend := codeOf c, seq := .finish }

/-- Acceptance of the CMD word `w` (R144). -/
def accept (w : Word) (s : State) : State :=
  { s with
    cmdRaw := w
    lastOp := opcodeField w
    pend := codeOf .ok
    busy := true
    done := false
    seq := .check }

/-- The busy gating rejects an access: nothing changes but `collide <- 1` (R80). -/
def reject (s : State) : State := { s with collide := true }

/-- Completion, in place of trap entry (R151, R197): the FINISH step. -/
def finishStep (s : State) : State :=
  emit (.finish s.pend) { s with result := s.pend, busy := false, done := true, seq := .idle }

/-- Acknowledgement, in place of trap return: what writing 1 to STATUS.DONE does (R44, R199). -/
def acknowledge (s : State) : State := { s with done := false }

/-- What writing 1 to STATUS.COLLIDE does (R45). -/
def clearCollide (s : State) : State := { s with collide := false }

/-- Record the port's answer to a transaction (R67). -/
def answer (r : Reply) (s : State) : State := { s with env := { s.env with reply := some r } }

/-- Reset: every state element takes its reset value, whatever it was (R213); the surroundings are
no state of the block and stay (log 16). -/
def resetBlock (s : State) : State := { State.reset with env := s.env }

end Sys2Proof.Machine
end

