-- ==== Sys2Proof/Machine/Operands.lean ====
section
/-! DEFINITION. Operands of the commands: the 64-bit lengths and their halves, the envelope in the IN buffer, and
framing (R53, R54, R90, R91, R167 to R171). -/

namespace Sys2Proof.Machine

/-! ## Lengths -/

/-- The `_LO` half, bits [31:0] (R53, R54). -/
def lowHalf (x : Length) : Word := x.extractLsb' 0 32

/-- The `_HI` half, bits [63:32] (R53, R54). -/
def highHalf (x : Length) : Word := x.extractLsb' 32 32

/-- A write to DATA_LEN_LO replaces that half only (R53). -/
def setLowHalf (x : Length) (d : Word) : Length := highHalf x ++ d

/-- A write to DATA_LEN_HI replaces that half only (R53). -/
def setHighHalf (x : Length) (d : Word) : Length := d ++ lowHalf x

/-! ## The envelope -/

/-- The byte size of the envelope's header (R16, R168). -/
abbrev headerBytes : Nat := 72

/-- `frame(n, t, c) = n ‖ t ‖ u64le(len(c)) ‖ c` (R169). -/
def envelope (n t : Bytes32) (c : Bytes) : Bytes :=
  n.toList ++ t.toList ++ u64le (BitVec.ofNat 64 c.length) ++ c

/-- The envelope's length field as a number: `u64le⁻¹(MemRead(IN, 64, 8))` (R171). These eight bytes
lie inside IN whatever the length is (R145). -/
def lengthField (m : Memory) : Nat := leNat (m.readBytes 64 8)

/-- `framed(IN, D)` (R171): at least a header, and the length field is exactly `D - 72`. -/
def framed (m : Memory) (d : Length) : Bool :=
  decide (headerBytes ≤ d.toNat) && decide (lengthField m = d.toNat - headerBytes)

/-- The nonce field of the envelope in IN, bytes 0 to 31 (R167). -/
def nonceField (m : Memory) : Bytes32 := m.readBlock 0

/-- The MAC field of the envelope in IN, bytes 32 to 63 (R167). -/
def macField (m : Memory) : Bytes32 := m.readBlock 32

/-! ## Masks -/

/-- Set bit `i` of a load mask (R55, R56). -/
def markWord (mask : BitVec 8) (i : Fin 8) : BitVec 8 := mask ||| (1#8 <<< i.val)

/-- All eight words have been written (R48, R49, R100). -/
def allWritten (mask : BitVec 8) : Bool := mask == 0xFF#8

/-- A write of `d` to KEY`i` (R55, R101). -/
def writeKeyWord (i : Fin 8) (d : Word) (s : State) : State :=
  { s with key := setBlockWord s.key i d, keyMask := markWord s.keyMask i }

/-- A write of `d` to NONCE`i` (R56, R101). -/
def writeNonceWord (i : Fin 8) (d : Word) (s : State) : State :=
  { s with nonce := setBlockWord s.nonce i d, nonceMask := markWord s.nonceMask i }

end Sys2Proof.Machine
end

