-- ==== Sys2Proof/Machine/Flags.lean ====
section
/-! DEFINITION. The flag registers as views of the state: STATUS, CTRL, LOADMASK and the interrupt level (R40 to R52, R65). -/

namespace Sys2Proof.Machine

/-- STATUS.KEY_VALID (R48). -/
def keyValid (s : State) : Bool := allWritten s.keyMask

/-- STATUS.NONCE_VALID (R49). -/
def nonceValid (s : State) : Bool := allWritten s.nonceMask

/-- A flag as one bit. -/
def bit (b : Bool) : BitVec 1 := BitVec.ofBool b

/-- STATUS as read (R42), from bit 31 down: reserved, LAST_OP, RESULT, reserved, NONCE_VALID,
KEY_VALID, FATAL, SEEDED, COLLIDE, DONE, BUSY. -/
def statusWord (s : State) : Word :=
  0#16 ++ s.lastOp ++ s.result ++ 0#1 ++ bit (nonceValid s) ++ bit (keyValid s) ++ bit s.fatal ++
    bit s.seeded ++ bit s.collide ++ bit s.done ++ bit s.busy

/-- A write of `d` to STATUS: bit 1 clears DONE, bit 2 clears COLLIDE, nothing else (R42). -/
def writeStatus (d : Word) (s : State) : State :=
  let s := if d.getLsbD 1 then acknowledge s else s
  if d.getLsbD 2 then clearCollide s else s

/-- CTRL as read: IE in bit 0, reserved bits 0 (R40). -/
def ctrlWord (s : State) : Word := 0#31 ++ bit s.ie

/-- A write of `d` to CTRL: `ie <- d[0]` (R40). -/
def writeCtrl (d : Word) (s : State) : State := { s with ie := d.getLsbD 0 }

/-- LOADMASK as read (R52). -/
def loadMaskWord (s : State) : Word := 0#16 ++ s.nonceMask ++ s.keyMask

/-- The interrupt output, a level computed from the state (R65, R200). -/
def irq (s : State) : Bool := s.ie && s.done

end Sys2Proof.Machine
end

