-- ==== Sys2Proof/Machine/Bus.lean ====
section
/-! DEFINITION. The bus port: the register map, address decode, access classes, busy gating and transactions (R32 to R56, R67 to R81). -/

namespace Sys2Proof.Machine

/-- The host-visible registers (R32). -/
inductive Reg where
  | id | version | ctrl | cmd | status | loadMask
  | dataLenLo | dataLenHi | outLenLo | outLenHi
  | key (i : Fin 8)
  | nonce (i : Fin 8)
deriving DecidableEq, Repr

/-- What a mapped offset selects: a register, or a word of the IN or OUT window at buffer address `a` (R74). -/
inductive Target where
  | reg (r : Reg)
  | inWord (a : Nat)
  | outWord (a : Nat)
deriving DecidableEq, Repr

/-- The offset of a register (R32). -/
def regOffset : Reg → Offset
  | .id => 0x00000#18
  | .version => 0x00004#18
  | .ctrl => 0x00008#18
  | .cmd => 0x0000C#18
  | .status => 0x00010#18
  | .loadMask => 0x00014#18
  | .dataLenLo => 0x00018#18
  | .dataLenHi => 0x0001C#18
  | .outLenLo => 0x00020#18
  | .outLenHi => 0x00024#18
  | .key i => 0x00040#18 + BitVec.ofNat 18 (4 * i.val)
  | .nonce i => 0x00060#18 + BitVec.ofNat 18 (4 * i.val)

/-- The ten registers below 0x28, in order (R32). -/
def lowRegs : List Reg :=
  [.id, .version, .ctrl, .cmd, .status, .loadMask, .dataLenLo, .dataLenHi, .outLenLo, .outLenHi]

/-- The address decode of an aligned offset, in the order of R74; none for a reserved offset (R78). -/
def decodeOffset (cfg : Config) (off : Nat) : Option Target :=
  if off < 0x00028 then (lowRegs[off / 4]?).map .reg
  else if 0x00040 ≤ off ∧ off < 0x00060 then some (.reg (.key (Fin.ofNat 8 ((off - 0x00040) / 4))))
  else if 0x00060 ≤ off ∧ off < 0x00080 then some (.reg (.nonce (Fin.ofNat 8 ((off - 0x00060) / 4))))
  else if 0x10000 ≤ off ∧ off < 0x10000 + cfg.bufBytes then some (.inWord (off - 0x10000))
  else if 0x20000 ≤ off ∧ off < 0x20000 + cfg.bufBytes then some (.outWord (off - 0x20000))
  else none

/-- What a legal transaction selects; none for an illegal one (R68, R69). -/
def legalTarget (cfg : Config) (t : Transaction) : Option Target :=
  if t.size = .four ∧ t.off.toNat % 4 = 0 then decodeOffset cfg t.off.toNat else none

/-! ## Registers -/

/-- The constant of ID (R38). -/
def idWord : Word := 0x434D5445#32

/-- The constant of VERSION (R39). -/
def versionWord : Word := 0x00000001#32

/-- A register read: a view of the state (R34), 0 for a write-only register (R33). -/
def readReg (r : Reg) (s : State) : Word :=
  match r with
  | .id => idWord
  | .version => versionWord
  | .ctrl => ctrlWord s
  | .cmd => 0#32
  | .status => statusWord s
  | .loadMask => loadMaskWord s
  | .dataLenLo => lowHalf s.dataLen
  | .dataLenHi => highHalf s.dataLen
  | .outLenLo => lowHalf s.outLen
  | .outLenHi => highHalf s.outLen
  | .key _ => 0#32
  | .nonce i => blockWord s.nonce i

/-- A register write: the state elements its rule names change (R34); a read-only register ignores
it (R33). A write to CMD is the acceptance of a command (R41, R144). -/
def writeReg (r : Reg) (d : Word) (s : State) : State :=
  match r with
  | .id | .version | .loadMask | .outLenLo | .outLenHi => s
  | .ctrl => writeCtrl d s
  | .cmd => accept d s
  | .status => writeStatus d s
  | .dataLenLo => { s with dataLen := setLowHalf s.dataLen d }
  | .dataLenHi => { s with dataLen := setHighHalf s.dataLen d }
  | .key i => writeKeyWord i d s
  | .nonce i => writeNonceWord i d s

/-! ## Windows -/

/-- The word of IN at buffer address `a` (R70, R75). -/
def inWord (m : Memory) (a : Nat) : Word := u32leInv (m.readBytes a 4)

/-- Byte `a` of OUT as the host sees it: zero at and beyond `out_len` (R76). -/
def outByte (s : State) (a : Nat) : Byte :=
  if a < s.outLen.toNat then s.outBuf.read a else 0x00#8

/-- The word of OUT at buffer address `a` (R70, R76). -/
def outWord (s : State) (a : Nat) : Word :=
  u32leInv [outByte s a, outByte s (a + 1), outByte s (a + 2), outByte s (a + 3)]

/-- A read of a target (R33, R75, R76). -/
def readTarget (t : Target) (s : State) : Word :=
  match t with
  | .reg r => readReg r s
  | .inWord a => inWord s.inBuf a
  | .outWord a => outWord s a

/-- A write to a target (R33, R75, R76): the OUT window ignores it. -/
def writeTarget (t : Target) (d : Word) (s : State) : State :=
  match t with
  | .reg r => writeReg r d s
  | .inWord a => { s with inBuf := s.inBuf.writeBytes a (u32le d) }
  | .outWord _ => s

/-! ## Busy gating and transactions -/

/-- The reads admitted while busy (R80). -/
def admitsRead : Target → Bool
  | .reg .id | .reg .version | .reg .ctrl | .reg .status | .reg .loadMask => true
  | _ => false

/-- The writes admitted while busy (R80); a write to a read-only register is not among them (log 14). -/
def admitsWrite : Target → Bool
  | .reg .ctrl | .reg .status => true
  | _ => false

/-- A legal read of a target: gated while busy, answered OKAY with data (R73, R80). -/
def busRead (t : Target) (s : State) : State :=
  if s.busy && !admitsRead t then answer (.data 0#32) (reject s)
  else answer (.data (readTarget t s)) s

/-- A legal write to a target: gated while busy, answered OKAY (R73, R80). -/
def busWrite (t : Target) (d : Word) (s : State) : State :=
  if s.busy && !admitsWrite t then answer .okay (reject s)
  else answer .okay (writeTarget t d s)

/-- The port serves one transaction (R67): an illegal one is answered BUS_ERR and changes no state
of the block, busy or not (R68, R80). -/
def transact (cfg : Config) (t : Transaction) (s : State) : State :=
  match legalTarget cfg t with
  | none => answer .busErr s
  | some tgt =>
    match t.kind with
    | .read => busRead tgt s
    | .write => busWrite tgt t.wdata s

end Sys2Proof.Machine
end

