-- ==== Sys2Proof/Machine/Assembly.lean ====
section
/-! DEFINITION. Host assembly: symbols, the encoding of a line as a transaction, the pseudo-instructions, the check of
a program, and a host agent's step (R98, R99, R212). -/

namespace Sys2Proof.Machine

/-! ## Symbols -/

/-- An offset as host assembly writes it (R98): a number, a register's name, `IN+<a>` or `OUT+<a>`. -/
inductive OffsetSymbol where
  | num (off : Offset)
  | reg (r : Reg)
  | inPlus (a : Nat)
  | outPlus (a : Nat)
deriving DecidableEq, Repr

/-- The offset a symbol stands for (R98). -/
def symbolOffset : OffsetSymbol → Offset
  | .num off => off
  | .reg r => regOffset r
  | .inPlus a => BitVec.ofNat 18 (0x10000 + a)
  | .outPlus a => BitVec.ofNat 18 (0x20000 + a)

/-! ## Lines -/

/-- What the name `x` holds for host `h` at `a`: the newest value an `RD` line gave it, a free value
before the first (R98, log 13). -/
def nameValue (h : Nat) (a : HostAgent) (x : Nat) : Word :=
  match a.names.lookup x with
  | some w => w
  | none => Config.hostFreeValue h a.executed

/-- The value of the data of a `WR` line. -/
def hostValue (h : Nat) (a : HostAgent) : HostData → Word
  | .num w => w
  | .name x => nameValue h a x

/-- The encoding of a line issued by host `h` (R98): a transaction of size 4; none for `BNZ`, which
is no transaction. -/
def encodeLine (h : Nat) (a : HostAgent) : HostLine → Option Transaction
  | .wr off d => some { host := h, kind := .write, off := off, size := .four, wdata := hostValue h a d }
  | .rd off _ => some { host := h, kind := .read, off := off, size := .four, wdata := 0#32 }
  | .bnz _ _ _ => none

/-- The name a line reads a value from, if any. -/
def usedName : HostLine → Option Nat
  | .wr _ (.name x) => some x
  | .wr _ (.num _) => none
  | .rd _ _ => none
  | .bnz x _ _ => some x

/-- The names the `RD` lines of a program give values to. -/
def readNames (prog : List HostLine) : List Nat :=
  prog.filterMap fun
    | .rd _ x => x
    | .wr _ _ => none
    | .bnz _ _ _ => none

/-- A line is well formed in a program: its offset is 4-byte aligned, a name it uses is read by some
`RD` line, and a branch goes to a line of the program or to its end. -/
def HostLine.wellFormed (prog : List HostLine) (l : HostLine) : Bool :=
  (match usedName l with
    | some x => (readNames prog).contains x
    | none => true) &&
  (match l with
    | .wr off _ => off.toNat % 4 == 0
    | .rd off _ => off.toNat % 4 == 0
    | .bnz _ _ t => decide (t ≤ prog.length))

/-- Every line of a program is well formed in it. -/
def hostProgramWellFormed (prog : List HostLine) : Bool :=
  prog.all (HostLine.wellFormed prog)

/-! ## Pseudo-instructions (R99) -/

/-- `WR <off>, <data>` with a symbol and a number. -/
def lineWr (o : OffsetSymbol) (w : Word) : HostLine := .wr (symbolOffset o) (.num w)

/-- `RD <off>` with a symbol. -/
def lineRd (o : OffsetSymbol) : HostLine := .rd (symbolOffset o) none

/-- `CMD <mnemonic>`. -/
def pseudoCmd (i : Instr) : List HostLine := [lineWr (.reg .cmd) (encode i)]

/-- `WAIT`, placed at line `at`, polling into the name `x`: until BUSY = 0. -/
def pseudoWait (line x : Nat) : List HostLine :=
  [.rd (regOffset .status) (some x), .bnz x 0x1#32 line]

/-- `RUN <mnemonic>`, placed at line `line`. -/
def pseudoRun (i : Instr) (line x : Nat) : List HostLine :=
  pseudoCmd i ++ pseudoWait (line + 1) x

/-- The eight word numbers in order. -/
def wordIndices : List (Fin 8) := [0, 1, 2, 3, 4, 5, 6, 7]

/-- `LOADKEY <k>`. -/
def pseudoLoadKey (k : Bytes32) : List HostLine :=
  wordIndices.map fun i => lineWr (.reg (.key i)) (blockWord k i)

/-- `LOADNONCE <n>`. -/
def pseudoLoadNonce (n : Bytes32) : List HostLine :=
  wordIndices.map fun i => lineWr (.reg (.nonce i)) (blockWord n i)

/-- The words `u32le⁻¹((b ‖ 0^3)[4i .. 4i+4))` of a byte string, `ceil(len(b)/4)` of them. -/
def wordsOfBytes : Bytes → List Word
  | [] => []
  | [b0] => [u32leInv [b0, 0#8, 0#8, 0#8]]
  | [b0, b1] => [u32leInv [b0, b1, 0#8, 0#8]]
  | [b0, b1, b2] => [u32leInv [b0, b1, b2, 0#8]]
  | b0 :: b1 :: b2 :: b3 :: bs => u32leInv [b0, b1, b2, b3] :: wordsOfBytes bs

/-- `WR` lines for consecutive words of IN from buffer address `a`. -/
def writeInWords (a : Nat) : List Word → List HostLine
  | [] => []
  | w :: ws => lineWr (.inPlus a) w :: writeInWords (a + 4) ws

/-- `LOADIN <b>`. -/
def pseudoLoadIn (b : Bytes) : List HostLine := writeInWords 0 (wordsOfBytes b)

/-- `SETLEN <x>`. -/
def pseudoSetLen (x : Length) : List HostLine :=
  [lineWr (.reg .dataLenLo) (lowHalf x), lineWr (.reg .dataLenHi) (highHalf x)]

/-- `RD` lines for `n` consecutive words of OUT from buffer address `a`. -/
def readOutWords (a : Nat) : Nat → List HostLine
  | 0 => []
  | n + 1 => lineRd (.outPlus a) :: readOutWords (a + 4) n

/-- `READOUT <n>`: `ceil(n/4)` words. -/
def pseudoReadOut (n : Nat) : List HostLine := readOutWords 0 ((n + 3) / 4)

/-- `CLRDONE`. -/
def pseudoClrDone : List HostLine := [lineWr (.reg .status) 0x2#32]

/-! ## A host agent's step -/

/-- Put host agent `h` at a line with given names. -/
def setHost (h : Nat) (a : HostAgent) (s : State) : State :=
  { s with env := { s.env with hosts := s.env.hosts.set h a } }

/-- The data of the port's latest answer to host `h` at `a`; an answer without data leaves a free
value (log 13). -/
def replyData (h : Nat) (a : HostAgent) (s : State) : Word :=
  match s.env.reply with
  | some (.data w) => w
  | some .okay | some .busErr | none => Config.hostFreeValue h a.executed

/-- The state after the transaction of a line, if it is one (R98). -/
def lineTransaction (cfg : Config) (h : Nat) (a : HostAgent) (l : HostLine) (s : State) : State :=
  match encodeLine h a l with
  | some t => transact cfg t s
  | none => s

/-- Where host agent `h` at `a` stands after line `l`, given the state `s` after its transaction (R98). -/
def afterLine (h : Nat) (a : HostAgent) (l : HostLine) (s : State) : HostAgent :=
  { a with
    executed := a.executed + 1
    line :=
      match l with
      | .bnz x mask target => if nameValue h a x &&& mask ≠ 0#32 then target else a.line + 1
      | .wr _ _ | .rd _ _ => a.line + 1
    names :=
      match l with
      | .rd _ (some x) => (x, replyData h a s) :: a.names
      | .rd _ none | .wr _ _ | .bnz _ _ _ => a.names }

/-- Host agent `h` at `a` executes line `l` (R98): a `WR` or `RD` is one transaction, `BNZ` none. It
never faults (R27). -/
def runLine (cfg : Config) (h : Nat) (a : HostAgent) (l : HostLine) (s : State) : State :=
  setHost h (afterLine h a l (lineTransaction cfg h a l s)) (lineTransaction cfg h a l s)

/-- Host agent `h` executes its next line; a host that has none, or does not exist, does nothing. -/
def hostStep (cfg : Config) (h : Nat) (s : State) : State :=
  match s.env.hosts[h]? with
  | none => s
  | some a =>
    match a.prog[a.line]? with
    | none => s
    | some l => runLine cfg h a l s

/-- The end of a run of host `h`'s program (R212): its last line is executed and `busy = 0`. -/
def runEnded (h : Nat) (s : State) : Bool :=
  match s.env.hosts[h]? with
  | none => false
  | some a => decide (a.prog.length ≤ a.line) && !s.busy

end Sys2Proof.Machine
end

