-- ==== Sys2Proof/Machine/Arbiter.lean ====
section
/-! DEFINITION. The domain-separated KDF arbiter: the labels of the two paths and the KDF_ENC and KDF_MAC steps (R116 to R129). -/

namespace Sys2Proof.Machine

/-- The label fed to KDF on a path (R116, R117): chosen by the path and by nothing else. -/
def pathLabel (cfg : Config) : KdfPath → Bytes32
  | .enc => cfg.labelEnc
  | .mac => cfg.labelMac

/-- Store a subkey in the path's destination, `dest(p)` (R117). -/
def storeSubkey (p : KdfPath) (k : Bytes32) (s : State) : State :=
  match p with
  | .enc => { s with skEnc := k }
  | .mac => { s with skMac := k }

/-- A derivation on path `p`: `kdf_sel <- p`, `dest(p) <- KDF(key, label(p))`, `emit EvKdf(p)` (R117). -/
def derive (cfg : Config) (p : KdfPath) (s : State) : State :=
  emit (.kdf p) (storeSubkey p (cfg.kdf s.key (pathLabel cfg p)) { s with kdfSel := p })

/-- The KDF_ENC step (R124). -/
def kdfEncStep (cfg : Config) (s : State) : State :=
  { derive cfg .enc s with seq := .kdfMac }

/-- The KDF_MAC step (R125): MAC_CHK follows for DEC_RAW, SENC otherwise. -/
def kdfMacStep (cfg : Config) (s : State) : State :=
  { derive cfg .mac s with seq := if opcodeField s.cmdRaw = 0x4#4 then .macChk else .senc }

end Sys2Proof.Machine
end

