-- ==== Sys2Proof/Machine/Framing.lean ====
section
/-! DEFINITION. Wire framing and constant-time MAC verification: the FRAME, MAC_CHK and CMP steps (R167 to R181). -/

namespace Sys2Proof.Machine

/-- The FRAME step (R170): the header goes before the ciphertext that stands at OUT[72 ..]. -/
def frameStep (cfg : Config) (s : State) : Result :=
  memWrite cfg s.outBuf 0 s.nonce.toList fun m =>
  memWrite cfg m 32 s.tagCalc.toList fun m =>
  memWrite cfg m 64 (u64le s.latLen) fun m =>
  .next { s with outBuf := m, outLen := 72#64 + s.latLen, seq := .wipe }

/-- The MAC_CHK step (R175). -/
def macChkStep (cfg : Config) (s : State) : Result :=
  memRead cfg s.inBuf headerBytes s.latLen.toNat fun c =>
  .next { emit (.mac s.latLen.toNat) s with
    tagCalc := cfg.macf s.skMac c, diff := 0#8, cmpI := 0, seq := .cmp }

/-- The accumulator after comparing byte `i` (R176). -/
def compareByte (s : State) (i : Fin 32) : BitVec 8 :=
  s.diff ||| (s.tagCalc[i.val] ^^^ s.inBuf.read (32 + i.val))

/-- Where the sequencer goes after the 32nd compare (R176). -/
def verdict (s : State) : State :=
  if s.diff = 0#8 then { s with seq := .sdec }
  else { s with pend := codeOf .badMac, seq := .wipe }

/-- The CMP step (R176): every byte is compared, and only the step after the 32nd byte branches. -/
def cmpStep (s : State) : Result :=
  if h : s.cmpI.val < 32 then
    let s' := { emit (.cmp s.cmpI.val) s with
      diff := compareByte s ⟨s.cmpI.val, h⟩, cmpI := ⟨s.cmpI.val + 1, by omega⟩ }
    if s'.cmpI.val < 32 then .next { s' with seq := .cmp } else .next (verdict s')
  else .fault .comparePastEnd

end Sys2Proof.Machine
end

