-- ==== Sys2Proof/Machine/Prng.lean ====
section
/-! DEFINITION. Seeding and the nonce draw: the SEED and DRAW steps (R130 to R138). -/

namespace Sys2Proof.Machine

/-! ## The PRNG state -/

/-- The element of `PState` with this origin: `st_i` of R136 for the seed and `i` draws. -/
def pstateOf (cfg : Config) (o : PrngOrigin) : cfg.PState := cfg.prngAfter o.seed o.draws

/-- `prng_state` (R61): none until seeded, then an element of `PState`. -/
def prngStateOf (cfg : Config) (s : State) : Option cfg.PState := s.prngState.map (pstateOf cfg)

/-- The origin `PRNG_INIT(seed)` has. -/
def seededOrigin (seed : Bytes) : PrngOrigin := { seed := seed, draws := 0 }

/-- The origin after one more draw of 32 bytes. -/
def advanceOrigin (o : PrngOrigin) : PrngOrigin := { o with draws := o.draws + 1 }

/-! ## Seeding -/

/-- An answer the entropy source can give: a seed of SEED_BYTES bytes, or failure (R111). -/
def answerLegal (cfg : Config) : EntropyAnswer → Bool
  | .ok seed => decide (seed.length = cfg.seedBytes)
  | .fail => true

/-- The entropy source gives an answer (R111); nothing else is an answer of it. -/
def giveAnswer (cfg : Config) (a : EntropyAnswer) (s : State) : State :=
  { s with env := { s.env with
      entropy := if answerLegal cfg a then s.env.entropy ++ [a] else s.env.entropy } }

/-- The entropy source answers `fail` at the SEED step (R131, R190). -/
def seedFailed (s : State) : State :=
  raise .entropyFail { emit (.entropy false) s with fatal := true }

/-- The entropy source answers `ok seed` at the SEED step (R131). -/
def seedDone (seed : Bytes) (s : State) : State :=
  { emit (.entropy true) s with
    prngState := some (seededOrigin seed)
    seeded := true
    seq := if opcodeField s.cmdRaw = 0x6#4 then .finish else .draw }

/-- The SEED step (R131). It is enabled only once the entropy source has answered (R111): while no
answer waits, the sequencer stays at SEED and nothing changes. A byte string that is no Seed is no
answer; `giveAnswer` never lets one wait (log 3). -/
def seedStep (cfg : Config) (s : State) : State :=
  match s.env.entropy with
  | [] => s
  | a :: rest =>
    if answerLegal cfg a then
      let s := { s with env := { s.env with entropy := rest } }
      match a with
      | .fail => seedFailed s
      | .ok seed => seedDone seed s
    else s

/-! ## The draw -/

/-- The nonce that a draw from `st` gives (R134). -/
def drawNonce (cfg : Config) (st : cfg.PState) : Bytes32 :=
  blockOfBytes (cfg.prngNext st 32).1 (cfg.prngLen st 32)

/-- The DRAW step (R134); `prng_state <- some st'` is one more draw from the same seed. -/
def drawStep (cfg : Config) (s : State) : Result :=
  match s.prngState with
  | none => .fault .drawUnseeded
  | some o =>
    .next (emit (.draw 32)
      { s with
        nonce := drawNonce cfg (pstateOf cfg o)
        prngState := some (advanceOrigin o)
        nonceMask := 0xFF#8
        seq := if opcodeField s.cmdRaw = 0x1#4 then .finish else .kdfEnc })

end Sys2Proof.Machine
end

