-- ==== Sys2Proof/Machine/Sequencer.lean ====
section
/-! DEFINITION. The sequencer: the CHECK, SENC, MAC_GEN, SDEC, WIPE and CLEAR steps, one step of the sequencer, and a
command from acceptance along its state path (R143 to R152). -/

namespace Sys2Proof.Machine

/-! ## CHECK -/

/-- The commands that clear `out_len` at CHECK: opcodes 0x2, 0x3, 0x4, 0x5 (R145). -/
def clearsOutLen : Instr → Bool
  | .encRaw | .enc | .decRaw | .zeroize => true
  | .nop | .genNonce | .seed => false

/-- The commands that run when FATAL is set: opcodes 0x0 and 0x5 (R132, R145). -/
def runsWhenFatal : Instr → Bool
  | .nop | .zeroize => true
  | .genNonce | .encRaw | .enc | .decRaw | .seed => false

/-- The commands that need the key: opcodes 0x2, 0x3, 0x4 (R145). -/
def needsKey : Instr → Bool
  | .encRaw | .enc | .decRaw => true
  | .nop | .genNonce | .zeroize | .seed => false

/-- The length is beyond the command's bound (R145, R187): an unsigned comparison of 64 bits. -/
def lengthTooLong (cfg : Config) (d : Length) : Instr → Bool
  | .encRaw | .enc => decide (cfg.maxPt < d.toNat)
  | .decRaw => decide (cfg.maxPt + headerBytes < d.toNat)
  | .nop | .genNonce | .zeroize | .seed => false

/-- The tests of CHECK after ILLEGAL, in the order of R145 and R195, each with its result code. -/
def checkTests (cfg : Config) (i : Instr) (s : State) : List (Bool × ResultCode) :=
  [(s.fatal && !runsWhenFatal i, .entropyFail),
   (needsKey i && !allWritten s.keyMask, .keyMissing),
   (decide (i = .encRaw) && !allWritten s.nonceMask, .nonceMissing),
   (lengthTooLong cfg s.dataLen i, .lenErr),
   (decide (i = .decRaw) && !framed s.inBuf s.dataLen, .frameErr)]

/-- The code of the first test that holds (R195). -/
def firstFailure : List (Bool × ResultCode) → Option ResultCode
  | [] => none
  | (b, c) :: ts => if b then some c else firstFailure ts

/-- Where a command that passes CHECK goes (R145). -/
def afterCheck (i : Instr) (seeded : Bool) : SeqState :=
  match i with
  | .nop => .finish
  | .genNonce => if seeded then .draw else .seed
  | .encRaw => .kdfEnc
  | .enc => if seeded then .draw else .seed
  | .decRaw => .kdfEnc
  | .zeroize => .clear
  | .seed => if seeded then .finish else .seed

/-- The length CHECK latches: the ciphertext's for DEC_RAW, `data_len` otherwise (R145). -/
def latchedLength (i : Instr) (d : Length) : Length :=
  match i with
  | .decRaw => d - 72#64
  | .nop | .genNonce | .encRaw | .enc | .zeroize | .seed => d

/-- CHECK of a word that decodes to command `i` (R145). -/
def checkCommand (cfg : Config) (i : Instr) (s : State) : State :=
  let s := if clearsOutLen i then { s with outLen := 0#64 } else s
  match firstFailure (checkTests cfg i s) with
  | some c => raise c s
  | none => { s with latLen := latchedLength i s.dataLen, seq := afterCheck i s.seeded }

/-- The CHECK step (R145): ILLEGAL comes first and leaves `out_len` alone (R160). -/
def checkStep (cfg : Config) (s : State) : State :=
  match decode s.cmdRaw with
  | .illegal _ => raise .illegal s
  | .command i => checkCommand cfg i s

/-! ## Stream, MAC, wipe and clear steps -/

/-- The SENC step (R146): the ciphertext goes to its place in the envelope. -/
def sencStep (cfg : Config) (s : State) : Result :=
  memRead cfg s.inBuf 0 s.latLen.toNat fun p =>
  memWrite cfg s.outBuf headerBytes (cfg.senc s.skEnc s.nonce p) fun m =>
  .next { emit (.senc s.latLen.toNat) s with outBuf := m, seq := .macGen }

/-- The MAC_GEN step (R147): the MAC is over the ciphertext only. -/
def macGenStep (cfg : Config) (s : State) : Result :=
  memRead cfg s.outBuf headerBytes s.latLen.toNat fun c =>
  .next { emit (.mac s.latLen.toNat) s with tagCalc := cfg.macf s.skMac c, seq := .frame }

/-- The SDEC step (R148). -/
def sdecStep (cfg : Config) (s : State) : Result :=
  memRead cfg s.inBuf headerBytes s.latLen.toNat fun c =>
  memWrite cfg s.outBuf 0 (cfg.sdec s.skEnc (nonceField s.inBuf) c) fun m =>
  .next { emit (.sdec s.latLen.toNat) s with outBuf := m, outLen := s.latLen, seq := .wipe }

/-- What WIPE and CLEAR set alike: subkeys, MAC, compare state and path (R149, R150). -/
def wipeSecrets (s : State) : State :=
  { s with skEnc := zero32, skMac := zero32, tagCalc := zero32, diff := 0#8, cmpI := 0, kdfSel := .enc }

/-- The WIPE step (R149). -/
def wipeStep (s : State) : State := { wipeSecrets s with seq := .finish }

/-- The CLEAR step (R150). -/
def clearStep (s : State) : State :=
  { wipeSecrets s with
    key := zero32
    keyMask := 0#8
    nonce := zero32
    nonceMask := 0#8
    dataLen := 0#64
    outLen := 0#64
    inBuf := []
    outBuf := []
    latLen := 0#64
    seq := .finish }

/-! ## The sequencer -/

/-- One step of the sequencer: the step of the state it is in (R63, R143; log 11). In IDLE it has none. -/
def seqStep (cfg : Config) (s : State) : Result :=
  match s.seq with
  | .idle => .next s
  | .check => .next (checkStep cfg s)
  | .seed => .next (seedStep cfg s)
  | .draw => drawStep cfg s
  | .kdfEnc => .next (kdfEncStep cfg s)
  | .kdfMac => .next (kdfMacStep cfg s)
  | .senc => sencStep cfg s
  | .macGen => macGenStep cfg s
  | .frame => frameStep cfg s
  | .macChk => macChkStep cfg s
  | .cmp => cmpStep s
  | .sdec => sdecStep cfg s
  | .wipe => .next (wipeStep s)
  | .clear => .next (clearStep s)
  | .finish => .next (finishStep s)

/-- `n` steps of the sequencer one after the other. -/
def seqRun (cfg : Config) : Nat → State → Result
  | 0, s => .next s
  | n + 1, s => andThen (seqStep cfg s) (seqRun cfg n)

/-- Follow a state path (R152): take the sequencer's step at each state of the path that the
sequencer is in, and pass over a state it is not in. Passed over are a state in brackets, the rest
of the path of a command that failed, and everything after SEED while no entropy answer waits. -/
def runPath (cfg : Config) : List SeqState → State → Result
  | [], s => .next s
  | p :: ps, s => if s.seq = p then andThen (seqStep cfg s) (runPath cfg ps) else runPath cfg ps s

/-- A CMD word's operation from acceptance on (R143), along the path of its command, with no other
move between: while another command runs the write of CMD is rejected (R80, R85). -/
def issue (cfg : Config) (w : Word) (path : List SeqState) (s : State) : Result :=
  if s.busy then .next (reject s) else runPath cfg path (accept w s)

end Sys2Proof.Machine
end

