-- ==== Sys2Proof/Machine/Control.lean ====
section
/-! DEFINITION. The housekeeping commands NOP and ZEROIZE, and illegal CMD words (R153, R158, R160). -/

namespace Sys2Proof.Machine

/-- NOP under a configuration: its state path is FINISH (R152, R153). -/
def commandNop (cfg : Config) (s : State) : Result :=
  issue cfg (encode .nop) [.check, .finish] s

/-- NOP (R153): completes with OK, even when FATAL is set. -/
def execNop (s : State) : Result := commandNop Config.hw s

/-- ZEROIZE under a configuration: its state path is CLEAR FINISH (R152, R158). -/
def commandZeroize (cfg : Config) (s : State) : Result :=
  issue cfg (encode .zeroize) [.check, .clear, .finish] s

/-- ZEROIZE (R158): clears key, nonce, lengths, buffers and secrets, keeps the PRNG state. -/
def execZeroize (s : State) : Result := commandZeroize Config.hw s

/-- An illegal CMD word under a configuration (R160): accepted, ILLEGAL at CHECK, FINISH. -/
def commandIllegal (cfg : Config) (w : Word) (s : State) : Result :=
  issue cfg w [.check, .finish] s

/-- An illegal CMD word (R93, R94, R160). -/
def execIllegal (w : Word) (s : State) : Result := commandIllegal Config.hw w s

end Sys2Proof.Machine
end

