-- ==== Sys2Proof/Machine/Decrypt.lean ====
section
/-! DEFINITION. The decrypting command DEC_RAW (R157). -/

namespace Sys2Proof.Machine

/-- DEC_RAW under a configuration, along its state path: 32 CMP states, and SDEC only where the MAC
matches (R152, R157). -/
def commandDecRaw (cfg : Config) (s : State) : Result :=
  issue cfg (encode .decRaw)
    ([.check, .kdfEnc, .kdfMac, .macChk] ++ List.replicate 32 .cmp ++ [.sdec, .wipe, .finish]) s

/-- DEC_RAW (R157): verify the envelope in IN in constant time, then decrypt it into OUT. -/
def execDecRaw (s : State) : Result := commandDecRaw Config.hw s

end Sys2Proof.Machine
end

