-- ==== Sys2Proof/Machine/Encrypt.lean ====
section
/-! DEFINITION. The encrypting commands ENC_RAW and ENC (R155, R156). -/

namespace Sys2Proof.Machine

/-- ENC_RAW under a configuration, along its state path (R152, R155). -/
def commandEncRaw (cfg : Config) (s : State) : Result :=
  issue cfg (encode .encRaw)
    [.check, .kdfEnc, .kdfMac, .senc, .macGen, .frame, .wipe, .finish] s

/-- ENC_RAW (R155): encrypt IN under the loaded key and nonce into an envelope in OUT. -/
def execEncRaw (s : State) : Result := commandEncRaw Config.hw s

/-- ENC under a configuration, along its state path (R152, R156). -/
def commandEnc (cfg : Config) (s : State) : Result :=
  issue cfg (encode .enc)
    [.check, .seed, .draw, .kdfEnc, .kdfMac, .senc, .macGen, .frame, .wipe, .finish] s

/-- ENC (R156): draw a nonce, seeding first if needed, then the steps of ENC_RAW from KDF_ENC on. -/
def execEnc (s : State) : Result := commandEnc Config.hw s

end Sys2Proof.Machine
end

