-- ==== Sys2Proof/Machine/Nonce.lean ====
section
/-! DEFINITION. The commands of nonce generation and seeding: GEN_NONCE and SEED (R154, R159). -/

namespace Sys2Proof.Machine

/-- GEN_NONCE under a configuration: its state path is [SEED] DRAW FINISH (R152, R154). -/
def commandGenNonce (cfg : Config) (s : State) : Result :=
  issue cfg (encode .genNonce) [.check, .seed, .draw, .finish] s

/-- GEN_NONCE (R154): draws the next 32 bytes of the PRNG stream into the nonce register, seeding first if needed. -/
def execGenNonce (s : State) : Result := commandGenNonce Config.hw s

/-- SEED under a configuration: its state path is [SEED] FINISH (R152, R159). -/
def commandSeed (cfg : Config) (s : State) : Result :=
  issue cfg (encode .seed) [.check, .seed, .finish] s

/-- SEED (R159): seeds the PRNG if it is not seeded; draws no nonce. -/
def execSeed (s : State) : Result := commandSeed Config.hw s

end Sys2Proof.Machine
end

