-- ==== Sys2Proof/Machine/Dispatch.lean ====
section
/-! DEFINITION. One arm per command: each calls that command's meaning. -/

namespace Sys2Proof.Machine

def exec (i : Instr) (s : State) : Host.Outcome State Fault Refusal :=
  match i with
  | .nop => Sys2Proof.Machine.execNop s
  | .genNonce => Sys2Proof.Machine.execGenNonce s
  | .encRaw => Sys2Proof.Machine.execEncRaw s
  | .enc => Sys2Proof.Machine.execEnc s
  | .decRaw => Sys2Proof.Machine.execDecRaw s
  | .zeroize => Sys2Proof.Machine.execZeroize s
  | .seed => Sys2Proof.Machine.execSeed s

end Sys2Proof.Machine
end

