-- ==== Sys2Proof/Machine/Moves.lean ====
section
/-! DEFINITION. The moves of the model: what each entry of the total order of R82 does. -/

namespace Sys2Proof.Machine

/-- Run the command the word `w` decodes to; a word that decodes to none runs as an illegal word (R96, R160). -/
def runWord (w : Word) (s : State) : Result :=
  match decode w with
  | .command i => exec i s
  | .illegal _ => execIllegal w s

/-- One move (R25, R82). The write of CMD in a RUN is answered OKAY, accepted or not (R80). -/
def performMove (m : Move) (s : State) : Result :=
  match m with
  | .bus t => .next (transact Config.hw t s)
  | .sequencer => seqStep Config.hw s
  | .reset => .next (resetBlock s)
  | .run _ w => runWord w (answer .okay s)
  | .host h => .next (hostStep Config.hw h s)
  | .entropy a => .next (giveAnswer Config.hw a s)

/-- Take the first of the moves to come off the list. -/
def withoutMove (ms : List Move) (s : State) : State := { s with env := { s.env with moves := ms } }

/-- The next thing that happens: the first move to come, or, when none is listed, a step of the
sequencer, which goes on by itself (R143, R232; log 10). -/
def nextMove (s : State) : Result :=
  match s.env.moves with
  | [] => seqStep Config.hw s
  | m :: ms => performMove m (withoutMove ms s)

/-- Put a RUN of the CMD word `w` before the moves to come. -/
def placeRun (w : Word) (s : State) : State := withoutMove (.run 0 w :: s.env.moves) s

end Sys2Proof.Machine
end

