-- ==== Sys2Proof/Machine/Step.lean ====
section
/-! DEFINITION. One step of the model, and where the next instruction comes from. -/

namespace Sys2Proof.Machine

/-- One step: the next move in the total order of R82. -/
def step (s : State) : Host.Outcome State Fault Refusal := nextMove s

/-- `s` with the CMD word `w` of `nbits` bits about to be run: the block fetches nothing (R86), a
command comes from a host's write of CMD, so the word is placed as the next move (log 2). -/
def State.withFetchWord (s : State) (nbits w : Nat) : State :=
  placeRun (BitVec.ofNat 32 (w % 2 ^ nbits)) s

end Sys2Proof.Machine
end

