-- ==== Sys2Proof/Safety.lean ====
section
/-! DEFINITION. What a good state is: the invariant of the model, in the terms statements use. -/

namespace Sys2Proof.Machine

/-- Both buffers are in canonical form and lie inside BUF_BYTES (R57, log 7). -/
structure BuffersWf (cfg : Config) (s : State) : Prop where
  inWf : s.inBuf.wf
  outWf : s.outBuf.wf
  inBelow : s.inBuf.below cfg.bufBytes
  outBelow : s.outBuf.below cfg.bufBytes

/-- `busy = 1 ⇔ seq ≠ IDLE` (R64). -/
def BusyMatchesSeq (s : State) : Prop := s.busy = true ↔ s.seq ≠ .idle

/-- RESULT and the result being built are codes of R183 (R192). -/
def CodesAssigned (s : State) : Prop := s.result.toNat < 8 ∧ s.pend.toNat < 8

/-- The PRNG state is there exactly when SEEDED is set (R46, R61), and FATAL and SEEDED exclude
each other: the seeding that failed is the only one (R131, R132). -/
def SeedingMatches (s : State) : Prop :=
  (s.seeded = true ↔ s.prngState.isSome = true) ∧ ¬(s.fatal = true ∧ s.seeded = true)

/-- The number of draws in a history (R26, R134). -/
def drawCount (hist : List Event) : Nat :=
  hist.countP fun
    | .draw _ => true
    | .entropy _ | .kdf _ | .senc _ | .sdec _ | .mac _ | .cmp _ | .finish _ => false

/-- The PRNG state comes from a Seed and from as many draws as the history of the epoch has, none
before seeding (R111, R136). -/
def PrngMatches (cfg : Config) (s : State) : Prop :=
  match s.prngState with
  | none => drawCount s.hist = 0
  | some o => o.seed.length = cfg.seedBytes ∧ o.draws = drawCount s.hist

/-- Every answer that waits is one the entropy source can give (R111). -/
def AnswersLegal (cfg : Config) (s : State) : Prop := ∀ a ∈ s.env.entropy, answerLegal cfg a = true

/-- The states in which the latched length is used, or will be by every path from there. -/
def usesLength : SeqState → Bool
  | .kdfEnc | .kdfMac | .senc | .macGen | .frame | .macChk | .cmp | .sdec => true
  | .idle | .check | .seed | .draw | .wipe | .clear | .finish => false

/-- What holds in a sequencer state: SEED is entered unseeded and without FATAL, DRAW with a PRNG
state, CMP with a byte left to compare, and a command past CHECK that will use the latched length
has one within MAX_PT (R77, R131, R134, R145, R176). -/
structure SeqConsistent (cfg : Config) (s : State) : Prop where
  atSeed : s.seq = .seed → s.seeded = false ∧ s.fatal = false ∧
    (opcodeField s.cmdRaw = 0x1#4 ∨ opcodeField s.cmdRaw = 0x6#4 ∨ s.latLen.toNat ≤ cfg.maxPt)
  atDraw : s.seq = .draw → s.prngState.isSome = true ∧
    (opcodeField s.cmdRaw = 0x1#4 ∨ s.latLen.toNat ≤ cfg.maxPt)
  atCmp : s.seq = .cmp → s.cmpI.val < 32
  atData : usesLength s.seq = true → s.latLen.toNat ≤ cfg.maxPt

/-- The states in which a subkey, `tag_calc` or the compare state may hold something (R60). -/
def holdsSecrets : SeqState → Bool
  | .kdfEnc | .kdfMac | .senc | .macGen | .frame | .macChk | .cmp | .sdec | .wipe => true
  | .idle | .check | .seed | .draw | .clear | .finish => false

/-- Outside the steps from KDF_ENC to WIPE the subkeys, `tag_calc` and the compare state are as at reset (R60, R126, R149). -/
def SecretsWiped (s : State) : Prop :=
  holdsSecrets s.seq = false →
    s.skEnc = zero32 ∧ s.skMac = zero32 ∧ s.tagCalc = zero32 ∧ s.diff = 0#8 ∧ s.cmpI = 0 ∧ s.kdfSel = .enc

/-- The invariant: it holds at reset and every step keeps it. -/
structure Inv (cfg : Config) (s : State) : Prop where
  buffers : BuffersWf cfg s
  busySeq : BusyMatchesSeq s
  codes : CodesAssigned s
  seeding : SeedingMatches s
  prng : PrngMatches cfg s
  answers : AnswersLegal cfg s
  seqOk : SeqConsistent cfg s
  wiped : SecretsWiped s

/-- An illegal transaction: not 32 bits wide, misaligned, or at a reserved offset (R68, R69, R78). -/
abbrev IllegalTransaction (cfg : Config) (t : Transaction) : Prop :=
  t.size ≠ .four ∨ t.off.toNat % 4 ≠ 0 ∨
  (0x00028 ≤ t.off.toNat ∧ t.off.toNat ≤ 0x0003F) ∨ (0x00080 ≤ t.off.toNat ∧ t.off.toNat ≤ 0x0FFFF) ∨
  (0x10000 + cfg.bufBytes ≤ t.off.toNat ∧ t.off.toNat ≤ 0x1FFFF) ∨
  (0x20000 + cfg.bufBytes ≤ t.off.toNat ∧ t.off.toNat ≤ 0x3FFFF)

/-- What the host can see of the block at once: every register and window word, and `irq` (R59, R62, R204). -/
structure SameForHost (s t : State) : Prop where
  registers : ∀ r, readReg r s = readReg r t
  inWords : ∀ a, inWord s.inBuf a = inWord t.inBuf a
  outWords : ∀ a, outWord s a = outWord t a
  irqLevel : irq s = irq t
  busyFlag : s.busy = t.busy

/-- Two states that differ at most in the secrets of R59 and the PRNG state (R61): the master key's
bytes, the subkeys, `tag_calc`, `diff` and `prng_state`. -/
def sameButSecrets (s t : State) : Prop :=
  t = { s with key := t.key, skEnc := t.skEnc, skMac := t.skMac, tagCalc := t.tagCalc,
               diff := t.diff, prngState := t.prngState }

/-! ## The terms of the statements about commands -/

/-- `s` after a command of word `w` has run from acceptance to completion with result `c` and the
events `es` before its `EvFinish`: the lifecycle elements of R198, and nothing else, are written. -/
def completed (w : Word) (c : ResultCode) (es : List Event) (s : State) : State :=
  { s with
    cmdRaw := w
    lastOp := opcodeField w
    pend := codeOf c
    result := codeOf c
    busy := false
    done := true
    seq := .idle
    hist := s.hist ++ es ++ [.finish (codeOf c)] }

/-- The first failure CHECK reports for command `i`, in the order of R195; none when it passes. -/
def firstCheckFailure (cfg : Config) (i : Instr) (s : State) : Option ResultCode :=
  if s.fatal = true ∧ i ≠ .nop ∧ i ≠ .zeroize then some .entropyFail
  else if (i = .encRaw ∨ i = .enc ∨ i = .decRaw) ∧ s.keyMask ≠ 0xFF#8 then some .keyMissing
  else if i = .encRaw ∧ s.nonceMask ≠ 0xFF#8 then some .nonceMissing
  else if (i = .encRaw ∨ i = .enc) ∧ cfg.maxPt < s.dataLen.toNat then some .lenErr
  else if i = .decRaw ∧ cfg.maxPt + 72 < s.dataLen.toNat then some .lenErr
  else if i = .decRaw ∧ ¬(72 ≤ s.dataLen.toNat ∧
      leNat (s.inBuf.readBytes 64 8) = s.dataLen.toNat - 72) then some .frameErr
  else none

/-- The ciphertext of `p` under a master key and a nonce (R155). -/
def cipherOf (cfg : Config) (key nonce : Bytes32) (p : Bytes) : Bytes :=
  cfg.senc (cfg.kdf key cfg.labelEnc) nonce p

/-- The MAC of ciphertext `c` under a master key (R155, R157). -/
def tagOf (cfg : Config) (key : Bytes32) (c : Bytes) : Bytes32 :=
  cfg.macf (cfg.kdf key cfg.labelMac) c

/-- The ciphertext of the envelope in IN, of the length `data_len - 72` (R171). -/
def ciphertextField (s : State) : Bytes := s.inBuf.readBytes 72 (s.dataLen.toNat - 72)

/-- OUT of `t` holds the envelope of the plaintext that IN of `s` holds, under nonce `n`, OUT beyond
it is as in `s`, and `out_len` is the envelope's length (R155, R168, R170). -/
structure Encrypted (cfg : Config) (n : Bytes32) (s t : State) : Prop where
  bytes : t.outBuf.readBytes 0 (72 + s.dataLen.toNat) =
    envelope n (tagOf cfg s.key (cipherOf cfg s.key n (s.inBuf.readBytes 0 s.dataLen.toNat)))
      (cipherOf cfg s.key n (s.inBuf.readBytes 0 s.dataLen.toNat))
  outLength : t.outLen.toNat = 72 + s.dataLen.toNat
  rest : ∀ a, 72 + s.dataLen.toNat ≤ a → t.outBuf.read a = s.outBuf.read a

/-- A PRNG state `st` is at hand for a draw: either the block is seeded and holds it, or it is not
seeded and the entropy source's next answer, a Seed, gives it. `es` are the events of getting it and
`rest` the answers left (R130, R131). -/
def PrngReady (cfg : Config) (s : State) (st : cfg.PState) (es : List Event) (rest : List EntropyAnswer) : Prop :=
  (s.seeded = true ∧ prngStateOf cfg s = some st ∧ es = [] ∧ rest = s.env.entropy) ∨
  (s.seeded = false ∧ es = [.entropy true] ∧ ∃ seed, seed.length = cfg.seedBytes ∧
    s.env.entropy = .ok seed :: rest ∧ st = cfg.prngInit seed)

/-- The seed of the epoch, once there is one (R136). -/
def epochSeed (s : State) : Option Bytes := s.prngState.map (·.seed)

/-- The 32 compare events, in order (R176). -/
def compareEvents : List Event := (List.range 32).map .cmp

/-- `n` steps of the model one after the other. -/
def stepTimes : Nat → State → Result
  | 0, s => .next s
  | n + 1, s => andThen (step s) (stepTimes n)

/-- `n` lines of host agent `h`, one after the other. -/
def hostLines (cfg : Config) (h : Nat) : Nat → State → State
  | 0, s => s
  | n + 1, s => hostLines cfg h n (hostStep cfg h s)

end Sys2Proof.Machine
end

