-- ==== Sys2Proof/Certificates/Slice0/Obligations.lean ====
section
/-! DEFINITION. The statements about ETMC for the provers; each docstring names the rules of spec/ it formalises. -/

open Sys2Proof Sys2Proof.Machine

/-! ## Encoding -/

/-- R92: a CMD word selects a mnemonic exactly when its RSVD field is 0 and its OPCODE is the mnemonic's
in the table. -/
def Obligations.WordSelectsMnemonicExactly : Prop :=
  ∀ w : Word,
    (decode w = .command .nop ↔ w.extractLsb' 4 28 = 0#28 ∧ w.extractLsb' 0 4 = 0x0#4) ∧
    (decode w = .command .genNonce ↔ w.extractLsb' 4 28 = 0#28 ∧ w.extractLsb' 0 4 = 0x1#4) ∧
    (decode w = .command .encRaw ↔ w.extractLsb' 4 28 = 0#28 ∧ w.extractLsb' 0 4 = 0x2#4) ∧
    (decode w = .command .enc ↔ w.extractLsb' 4 28 = 0#28 ∧ w.extractLsb' 0 4 = 0x3#4) ∧
    (decode w = .command .decRaw ↔ w.extractLsb' 4 28 = 0#28 ∧ w.extractLsb' 0 4 = 0x4#4) ∧
    (decode w = .command .zeroize ↔ w.extractLsb' 4 28 = 0#28 ∧ w.extractLsb' 0 4 = 0x5#4) ∧
    (decode w = .command .seed ↔ w.extractLsb' 4 28 = 0#28 ∧ w.extractLsb' 0 4 = 0x6#4)

/-- R95: every word outside the seven rows is illegal: a nonzero RSVD field, or an OPCODE of 0x7 to 0xF. -/
def Obligations.EveryOtherWordIsIllegal : Prop :=
  ∀ w : Word,
    (∃ why, decode w = .illegal why) ↔ w.extractLsb' 4 28 ≠ 0#28 ∨ 7 ≤ (w.extractLsb' 0 4).toNat

/-- The encoder's word of every command, laid out as bytes before any others, decodes to that
command and leaves the others; and a word that decodes to a command is that command's word. -/
def Obligations.DecodeAndEncodeAgree : Prop :=
  (∀ (i : Instr) (rest : Bytes), decodeBytes (u32le (encode i) ++ rest) = (.command i, rest)) ∧
  (∀ (w : Word) (i : Instr), decode w = .command i → w = encode i)

/-- Words written out from R92's table decode to their commands, and words of R93 and R94 to none. -/
def Obligations.WrittenOutWordsDecode : Prop :=
  decode 0x00000000#32 = .command .nop ∧ decode 0x00000001#32 = .command .genNonce ∧
  decode 0x00000002#32 = .command .encRaw ∧ decode 0x00000004#32 = .command .decRaw ∧
  decode 0x00000007#32 = .illegal .reservedOpcode ∧ decode 0x00000012#32 = .illegal .reservedBits

/-! ## Steps and moves -/

/-- A step whose next move is a RUN of a word that decodes to a command is `exec` of that command,
after the port's OKAY is recorded and the move is taken off the list. -/
def Obligations.StepRunsTheDecodedCommand : Prop :=
  ∀ (s : State) (h : Nat) (w : Word) (ms : List Move) (i : Instr),
    s.env.moves = .run h w :: ms → decode w = .command i →
    step s = exec i { s with env := { s.env with moves := ms, reply := some .okay } }

/-- R82: a move that is one transaction, one step of the sequencer, one line of a host agent or one
answer of the entropy source does that, and with no move listed the sequencer goes on by itself. (The
RUN and reset moves have statements of their own.) -/
def Obligations.EachMoveDoesItsPart : Prop :=
  ∀ (s : State) (ms : List Move),
    (∀ t, s.env.moves = .bus t :: ms →
      step s = .next (transact Config.hw t { s with env := { s.env with moves := ms } })) ∧
    (s.env.moves = .sequencer :: ms →
      step s = seqStep Config.hw { s with env := { s.env with moves := ms } }) ∧
    (∀ h, s.env.moves = .host h :: ms →
      step s = .next (hostStep Config.hw h { s with env := { s.env with moves := ms } })) ∧
    (∀ seed, s.env.moves = .entropy (.ok seed) :: ms →
      step s = .next { s with env := { s.env with
        moves := ms
        entropy := if seed.length = Config.hw.seedBytes then s.env.entropy ++ [.ok seed] else s.env.entropy } }) ∧
    (s.env.moves = .entropy .fail :: ms →
      step s = .next { s with env := { s.env with moves := ms, entropy := s.env.entropy ++ [.fail] } }) ∧
    (s.env.moves = [] → step s = seqStep Config.hw s)

/-- R213: reset sets every state element to its reset value, whatever the state was; the surroundings stay. -/
def Obligations.ResetMoveResetsEveryElement : Prop :=
  ∀ (s : State) (ms : List Move), s.env.moves = .reset :: ms →
    step s = .next { State.reset with env := { s.env with moves := ms } }

/-- A command run in one move is the same as its write of CMD on the bus followed by so many steps
of the sequencer, at most 39, and nothing else between: for every word, legal or not. -/
def Obligations.RunIsTheBusWriteAndItsSequencerSteps : Prop :=
  ∀ (s : State) (h : Nat) (w : Word) (ms : List Move), s.busy = false →
    s.env.moves = .run h w :: ms →
    ∃ n, n ≤ 39 ∧
      let write : Transaction := { host := h, kind := .write, off := 0x0000C#18, size := .four, wdata := w }
      let fine : List Move := .bus write :: (List.replicate n .sequencer ++ ms)
      step s = stepTimes (n + 1) { s with env := { s.env with moves := fine } }

/-! ## Reset and the invariant -/

/-- R214: the state after reset and what its registers read. -/
def Obligations.ResetLeavesTheStatedValues : Prop :=
  State.reset.seq = .idle ∧ State.reset.busy = false ∧ State.reset.done = false ∧
  State.reset.ie = false ∧ State.reset.collide = false ∧ State.reset.seeded = false ∧
  State.reset.prngState = none ∧ State.reset.fatal = false ∧
  State.reset.key = zero32 ∧ State.reset.nonce = zero32 ∧ State.reset.skEnc = zero32 ∧
  State.reset.skMac = zero32 ∧ State.reset.tagCalc = zero32 ∧
  State.reset.keyMask = 0#8 ∧ State.reset.nonceMask = 0#8 ∧
  State.reset.dataLen = 0#64 ∧ State.reset.outLen = 0#64 ∧ State.reset.latLen = 0#64 ∧
  State.reset.result = 0#4 ∧ State.reset.lastOp = 0#4 ∧ State.reset.cmdRaw = 0#32 ∧
  State.reset.pend = 0#4 ∧ State.reset.kdfSel = .enc ∧ State.reset.diff = 0#8 ∧ State.reset.cmpI = 0 ∧
  State.reset.hist = [] ∧
  (∀ a, State.reset.inBuf.read a = 0x00#8) ∧ (∀ a, State.reset.outBuf.read a = 0x00#8) ∧
  readReg .id State.reset = 0x434D5445#32 ∧ readReg .version State.reset = 0x00000001#32 ∧
  (∀ r, r ≠ .id → r ≠ .version → readReg r State.reset = 0#32)

/-- The invariant holds at reset. -/
def Obligations.InvariantHoldsAtReset : Prop := Inv Config.hw State.reset

/-- Every step keeps the invariant: the buffers' canonical form and bounds, busy with seq (R64), codes
below 8 (R192), seeding (R61, R131), a PRNG state that comes from a Seed and the draws of the epoch (R111,
R136), waiting answers that are Seeds or failures (R111), the sequencer's consistency (R77) and wiped
secrets (R60). -/
def Obligations.EveryStepKeepsTheInvariant : Prop :=
  ∀ s t : State, Inv Config.hw s → step s = .next t → Inv Config.hw t

/-- R27, R182: from a state of the invariant every step answers a next state, whatever the next move is:
no step of the block, of a host or of the entropy source faults or refuses. -/
def Obligations.TheBlockNeverFaults : Prop :=
  ∀ s : State, Inv Config.hw s → ∃ t, step s = .next t

/-! ## The bus port -/

/-- R68, R78, for every configuration: an access that is not 32 bits wide, is misaligned or is at a
reserved offset is answered BUS_ERR and changes no state of the block, busy or not; every other
access is answered OKAY, a read with data. -/
def Obligations.ExactlyTheIllegalTransactionsAnswerBusErr : Prop :=
  ∀ (cfg : Config) (t : Transaction) (s : State),
    (IllegalTransaction cfg t →
      transact cfg t s = { s with env := { s.env with reply := some .busErr } }) ∧
    (¬IllegalTransaction cfg t →
      (t.kind = .write → (transact cfg t s).env.reply = some .okay) ∧
      (t.kind = .read → ∃ w, (transact cfg t s).env.reply = some (.data w)))

/-- R80 as the model reads it for writes to ID, VERSION and LOADMASK, which it rejects like "every other
legal transaction" (log 14), for every configuration: while busy, an illegal access is answered BUS_ERR without COLLIDE; the
reads of ID, VERSION, CTRL, STATUS and LOADMASK are answered with data and change nothing; the writes of
CTRL and STATUS change at most IE, DONE and COLLIDE and never set COLLIDE; every other legal access
changes nothing but `collide <- 1`, is answered OKAY, and if it is a read returns 0. -/
def Obligations.BusyGatingRejectsAllButTheListedAccesses : Prop :=
  ∀ (cfg : Config) (t : Transaction) (s : State), s.busy = true →
    if IllegalTransaction cfg t then
      transact cfg t s = { s with env := { s.env with reply := some .busErr } }
    else if t.kind = .read ∧ t.off.toNat ∈ [0x00, 0x04, 0x08, 0x10, 0x14] then
      ∃ w, transact cfg t s = { s with env := { s.env with reply := some (.data w) } }
    else if t.kind = .write ∧ t.off.toNat ∈ [0x08, 0x10] then
      ∃ ie done collide, (collide = true → s.collide = true) ∧
        transact cfg t s =
          { s with ie := ie, done := done, collide := collide, env := { s.env with reply := some .okay } }
    else
      transact cfg t s = { s with
        collide := true
        env := { s.env with reply := some (if t.kind = .read then .data 0#32 else .okay) } }

/-- R73: a read changes nothing but the port's answer, COLLIDE included, unless the busy gating rejects it;
a rejected read sets COLLIDE and changes nothing else. -/
def Obligations.ReadsHaveNoSideEffect : Prop :=
  ∀ (t : Transaction) (s : State), t.kind = .read →
    ∃ r, transact Config.hw t s = { s with
      collide :=
        if s.busy = true ∧ ¬IllegalTransaction Config.hw t ∧ t.off.toNat ∉ [0x00, 0x04, 0x08, 0x10, 0x14] then true
        else s.collide
      env := { s.env with reply := some r } }

/-- R32 and the rules of the registers: a read at a register's offset returns the value its rule gives, at
ID and VERSION busy or not (R80), at the others while not busy. -/
def Obligations.RegisterReadsReturnTheirViews : Prop :=
  ∀ (s : State) (h : Nat) (d : Word) (off : Offset),
    let value := (transact Config.hw { host := h, kind := .read, off := off, size := .four, wdata := d } s).env.reply
    (off = 0x00000#18 → value = some (.data 0x434D5445#32)) ∧
    (off = 0x00004#18 → value = some (.data 0x00000001#32)) ∧
    (s.busy = false →
      (off = 0x0000C#18 → value = some (.data 0#32)) ∧
      (off = 0x00018#18 → value = some (.data (s.dataLen.extractLsb' 0 32))) ∧
      (off = 0x0001C#18 → value = some (.data (s.dataLen.extractLsb' 32 32))) ∧
      (off = 0x00020#18 → value = some (.data (s.outLen.extractLsb' 0 32))) ∧
      (off = 0x00024#18 → value = some (.data (s.outLen.extractLsb' 32 32))) ∧
      (∀ i : Fin 8, off = 0x00040#18 + BitVec.ofNat 18 (4 * i.val) → value = some (.data 0#32)) ∧
      (∀ i : Fin 8, off = 0x00060#18 + BitVec.ofNat 18 (4 * i.val) →
        ∃ w : Word, value = some (.data w) ∧
          ∀ j : Fin 4, w.extractLsb' (8 * j.val) 8 = s.nonce[4 * i.val + j.val]))

/-- R42: STATUS as read, busy or not, has each field at its bits and 0 at the reserved bits, all 0 at
reset; a write of `d`, busy or not, clears DONE where `d[1] = 1` and COLLIDE where `d[2] = 1`, and does nothing else. -/
def Obligations.StatusReadsItsFieldsAndClearsTwo : Prop :=
  (∀ (s : State) (h : Nat) (d : Word), ∃ w : Word,
    transact Config.hw { host := h, kind := .read, off := 0x00010#18, size := .four, wdata := d } s =
      { s with env := { s.env with reply := some (.data w) } } ∧
    w.getLsbD 0 = s.busy ∧ w.getLsbD 1 = s.done ∧ w.getLsbD 2 = s.collide ∧
    w.getLsbD 3 = s.seeded ∧ w.getLsbD 4 = s.fatal ∧
    (w.getLsbD 5 = true ↔ s.keyMask = 0xFF#8) ∧ (w.getLsbD 6 = true ↔ s.nonceMask = 0xFF#8) ∧
    w.getLsbD 7 = false ∧ w.extractLsb' 8 4 = s.result ∧ w.extractLsb' 12 4 = s.lastOp ∧
    w.extractLsb' 16 16 = 0#16) ∧
  statusWord State.reset = 0#32 ∧
  (∀ (s : State) (h : Nat) (d : Word),
    transact Config.hw { host := h, kind := .write, off := 0x00010#18, size := .four, wdata := d } s =
      { s with
        done := s.done && !d.getLsbD 1
        collide := s.collide && !d.getLsbD 2
        env := { s.env with reply := some .okay } })

/-- R40: CTRL holds IE in bit 0 and reads 0 elsewhere; a write sets `ie <- d[0]` and nothing else, busy or
not; at reset it reads 0. -/
def Obligations.CtrlWritesAndReadsInterruptEnable : Prop :=
  (∀ (s : State) (h : Nat) (d : Word),
    transact Config.hw { host := h, kind := .write, off := 0x00008#18, size := .four, wdata := d } s =
      { s with ie := d.getLsbD 0, env := { s.env with reply := some .okay } } ∧
    transact Config.hw { host := h, kind := .read, off := 0x00008#18, size := .four, wdata := d } s =
      { s with env := { s.env with reply := some (.data (if s.ie then 1#32 else 0#32)) } }) ∧
  readReg .ctrl State.reset = 0#32

/-- R52: LOADMASK reads `key_mask` in bits 7:0, `nonce_mask` in bits 15:8 and 0 above, busy or not. -/
def Obligations.LoadMaskReadsBothMasks : Prop :=
  ∀ (s : State) (h : Nat) (d : Word), ∃ w : Word,
    transact Config.hw { host := h, kind := .read, off := 0x00014#18, size := .four, wdata := d } s =
      { s with env := { s.env with reply := some (.data w) } } ∧
    w.extractLsb' 0 8 = s.keyMask ∧ w.extractLsb' 8 8 = s.nonceMask ∧ w.extractLsb' 16 16 = 0#16

/-- R55: while not busy, a write of `d` to KEY`i` sets bytes 4i to 4i+3 of the key to the bytes of
`d`, least significant first, and bit `i` of `key_mask`, and changes nothing else of the block. -/
def Obligations.KeyWriteReplacesOneWord : Prop :=
  ∀ (s : State) (h : Nat) (i : Fin 8) (d : Word), s.busy = false →
    ∃ t : State,
      transact Config.hw { host := h, kind := .write, off := 0x00040#18 + BitVec.ofNat 18 (4 * i.val),
                           size := .four, wdata := d } s = t ∧
      t = { s with key := t.key, keyMask := t.keyMask, env := { s.env with reply := some .okay } } ∧
      (∀ j : Fin 4, t.key[4 * i.val + j.val] = d.extractLsb' (8 * j.val) 8) ∧
      (∀ (k : Nat) (hk : k < 32), k / 4 ≠ i.val → t.key[k] = s.key[k]) ∧
      (∀ k : Fin 8, t.keyMask.getLsbD k.val = (decide (k = i) || s.keyMask.getLsbD k.val))

/-- R56: while not busy, a write of `d` to NONCE`i` sets bytes 4i to 4i+3 of the nonce and bit `i` of
`nonce_mask`, changes nothing else of the block, and is read back. -/
def Obligations.NonceWriteReplacesOneWordAndReadsBack : Prop :=
  ∀ (s : State) (h : Nat) (i : Fin 8) (d : Word), s.busy = false →
    ∃ t : State,
      transact Config.hw { host := h, kind := .write, off := 0x00060#18 + BitVec.ofNat 18 (4 * i.val),
                           size := .four, wdata := d } s = t ∧
      t = { s with nonce := t.nonce, nonceMask := t.nonceMask,
                   env := { s.env with reply := some .okay } } ∧
      (∀ j : Fin 4, t.nonce[4 * i.val + j.val] = d.extractLsb' (8 * j.val) 8) ∧
      (∀ (k : Nat) (hk : k < 32), k / 4 ≠ i.val → t.nonce[k] = s.nonce[k]) ∧
      (∀ k : Fin 8, t.nonceMask.getLsbD k.val = (decide (k = i) || s.nonceMask.getLsbD k.val)) ∧
      (transact Config.hw { host := h, kind := .read, off := 0x00060#18 + BitVec.ofNat 18 (4 * i.val),
                            size := .four, wdata := d } t).env.reply = some (.data d)

/-- R53: while not busy, a write to DATA_LEN_LO or DATA_LEN_HI replaces that half of `data_len` only. -/
def Obligations.DataLenWritesReplaceOneHalf : Prop :=
  ∀ (s : State) (h : Nat) (d : Word), s.busy = false →
    ∃ lo hi : Length,
      transact Config.hw { host := h, kind := .write, off := 0x00018#18, size := .four, wdata := d } s =
        { s with dataLen := lo, env := { s.env with reply := some .okay } } ∧
      transact Config.hw { host := h, kind := .write, off := 0x0001C#18, size := .four, wdata := d } s =
        { s with dataLen := hi, env := { s.env with reply := some .okay } } ∧
      lo.extractLsb' 0 32 = d ∧ lo.extractLsb' 32 32 = s.dataLen.extractLsb' 32 32 ∧
      hi.extractLsb' 0 32 = s.dataLen.extractLsb' 0 32 ∧ hi.extractLsb' 32 32 = d

/-- R33, R76, for every configuration: while not busy, a write to ID, VERSION, LOADMASK, OUT_LEN_LO, OUT_LEN_HI or a word of
the OUT window is answered OKAY and ignored. -/
def Obligations.ReadOnlyWritesAreIgnored : Prop :=
  ∀ (cfg : Config) (s : State) (t : Transaction), s.busy = false → t.kind = .write → t.size = .four →
    t.off.toNat % 4 = 0 →
    (t.off.toNat ∈ [0x00, 0x04, 0x14, 0x20, 0x24] ∨
      (0x20000 ≤ t.off.toNat ∧ t.off.toNat < 0x20000 + cfg.bufBytes)) →
    transact cfg t s = { s with env := { s.env with reply := some .okay } }

/-- R75, for every configuration: while not busy, a write of `d` to the word of IN at buffer address `a` sets IN[a+j] to byte
`j` of `d`, leaves every other byte of IN and everything else of the block as it was, keeps the
canonical form, and is read back. -/
def Obligations.InWindowStoresAndReadsBack : Prop :=
  ∀ (cfg : Config) (s : State) (h : Nat) (off : Offset) (a : Nat) (d : Word), s.busy = false →
    off.toNat = 0x10000 + a → a % 4 = 0 → a < cfg.bufBytes →
    ∃ t : State,
      transact cfg { host := h, kind := .write, off := off, size := .four, wdata := d } s = t ∧
      t = { s with inBuf := t.inBuf, env := { s.env with reply := some .okay } } ∧
      (∀ j : Fin 4, t.inBuf.read (a + j.val) = d.extractLsb' (8 * j.val) 8) ∧
      (∀ c, c < a ∨ a + 4 ≤ c → t.inBuf.read c = s.inBuf.read c) ∧
      (s.inBuf.wf → t.inBuf.wf) ∧
      (transact cfg { host := h, kind := .read, off := off, size := .four, wdata := d } t).env.reply =
        some (.data d)

/-- R76, for every configuration: while not busy, a read of the word of OUT at buffer address `a` has OUT[a+j] as
byte `j` where `a + j < out_len`, and 0x00 as byte `j` elsewhere; a write there is answered OKAY and ignored. -/
def Obligations.OutWindowReadsZeroBeyondItsLength : Prop :=
  ∀ (cfg : Config) (s : State) (h : Nat) (off : Offset) (a : Nat) (d : Word), s.busy = false →
    off.toNat = 0x20000 + a → a % 4 = 0 → a < cfg.bufBytes →
    (∃ w : Word,
      transact cfg { host := h, kind := .read, off := off, size := .four, wdata := d } s =
        { s with env := { s.env with reply := some (.data w) } } ∧
      ∀ j : Fin 4, w.extractLsb' (8 * j.val) 8 =
        if a + j.val < s.outLen.toNat then s.outBuf.read (a + j.val) else 0x00#8) ∧
    transact cfg { host := h, kind := .write, off := off, size := .four, wdata := d } s =
      { s with env := { s.env with reply := some .okay } }

/-- R59, R61, R204: no transaction's answer depends on the master key, the subkeys, `tag_calc` or the
PRNG state: two states that differ at most there (and in `diff`) get the same answer, and go on to
states that differ at most there. -/
def Obligations.NoAccessReadsTheSecrets : Prop :=
  ∀ (t : Transaction) (s s' : State), sameButSecrets s s' →
    (transact Config.hw t s).env.reply = (transact Config.hw t s').env.reply ∧
    sameButSecrets (transact Config.hw t s) (transact Config.hw t s')

/-- R144: while not busy, a write of `w` to CMD is the acceptance of a command: these six elements and
no other state of the block are written. While busy it is rejected: only COLLIDE is set. -/
def Obligations.CmdWriteAcceptsTheCommand : Prop :=
  ∀ (s : State) (h : Nat) (w : Word),
    transact Config.hw { host := h, kind := .write, off := 0x0000C#18, size := .four, wdata := w } s =
      if s.busy then { s with collide := true, env := { s.env with reply := some .okay } }
      else { s with
        cmdRaw := w
        lastOp := w.extractLsb' 0 4
        pend := 0#4
        busy := true
        done := false
        seq := .check
        env := { s.env with reply := some .okay } }

/-- R65: `irq` is `ie ∧ done`; a write of 1 to STATUS.DONE lowers it, accepting a command lowers
it, and completion raises it exactly when `ie = 1`. -/
def Obligations.InterruptFollowsEnableAndDone : Prop :=
  ∀ (s : State) (h : Nat) (w : Word),
    (irq s = true ↔ s.ie = true ∧ s.done = true) ∧
    (w.getLsbD 1 = true →
      irq (transact Config.hw { host := h, kind := .write, off := 0x00010#18, size := .four, wdata := w } s) = false) ∧
    (s.busy = false →
      irq (transact Config.hw { host := h, kind := .write, off := 0x0000C#18, size := .four, wdata := w } s) = false) ∧
    (s.seq = .finish → ∃ t, seqStep Config.hw s = .next t ∧ irq t = s.ie)

/-! ## Steps of the sequencer -/

/-- R145: the CHECK step for every CMD word: its tests in their order, what each failure writes, and the
latched length and the next state of a command that passes them all. -/
def Obligations.CheckStepTestsInOrder : Prop :=
  ∀ s : State, s.seq = .check → ∃ t : State, seqStep Config.hw s = .next t ∧
    let op := s.cmdRaw.extractLsb' 0 4
    let d := s.dataLen.toNat
    let s1 : State :=
      { s with outLen := if op = 2#4 ∨ op = 3#4 ∨ op = 4#4 ∨ op = 5#4 then 0#64 else s.outLen }
    if s.cmdRaw.extractLsb' 4 28 ≠ 0#28 ∨ 7 ≤ op.toNat then t = { s with pend := 7#4, seq := .finish }
    else if s.fatal = true ∧ op ≠ 0#4 ∧ op ≠ 5#4 then t = { s1 with pend := 6#4, seq := .finish }
    else if (op = 2#4 ∨ op = 3#4 ∨ op = 4#4) ∧ s.keyMask ≠ 0xFF#8 then
      t = { s1 with pend := 4#4, seq := .finish }
    else if op = 2#4 ∧ s.nonceMask ≠ 0xFF#8 then t = { s1 with pend := 5#4, seq := .finish }
    else if (op = 2#4 ∨ op = 3#4) ∧ Config.hw.maxPt < d then t = { s1 with pend := 3#4, seq := .finish }
    else if op = 4#4 ∧ Config.hw.maxPt + 72 < d then t = { s1 with pend := 3#4, seq := .finish }
    else if op = 4#4 ∧ ¬(72 ≤ d ∧ leNat (s.inBuf.readBytes 64 8) = d - 72) then
      t = { s1 with pend := 2#4, seq := .finish }
    else t = { s1 with
      latLen := if op = 4#4 then s.dataLen - 72#64 else s.dataLen
      seq :=
        if op = 1#4 ∨ op = 3#4 then (if s.seeded then .draw else .seed)
        else if op = 2#4 ∨ op = 4#4 then .kdfEnc
        else if op = 5#4 then .clear
        else if op = 6#4 then (if s.seeded then .finish else .seed)
        else .finish }

/-- R124, R125: the two derivations, ENC path first, each from the master key and its own label; the
step after KDF_MAC is MAC_CHK for DEC_RAW's opcode and SENC otherwise. Nothing else is written. -/
def Obligations.ArbiterDerivesBothSubkeys : Prop :=
  ∀ s : State,
    (s.seq = .kdfEnc → seqStep Config.hw s = .next { s with
      kdfSel := .enc, skEnc := Config.hw.kdf s.key Config.hw.labelEnc,
      hist := s.hist ++ [.kdf .enc], seq := .kdfMac }) ∧
    (s.seq = .kdfMac → seqStep Config.hw s = .next { s with
      kdfSel := .mac, skMac := Config.hw.kdf s.key Config.hw.labelMac,
      hist := s.hist ++ [.kdf .mac],
      seq := if s.cmdRaw.extractLsb' 0 4 = 0x4#4 then .macChk else .senc })

/-- R127: the master key is read only by the KDF steps (CLEAR overwrites it): the step of every other
state does the same whatever the key is, and keeps the key. -/
def Obligations.OnlyTheKdfStepsReadTheMasterKey : Prop :=
  ∀ (s : State) (k : Bytes32), s.seq ≠ .kdfEnc → s.seq ≠ .kdfMac → s.seq ≠ .clear →
    seqStep Config.hw { s with key := k } =
      andThen (seqStep Config.hw s) fun t => .next { t with key := k }

/-- R131: the SEED step: with no answer waiting nothing changes; on `fail` FATAL is set and the command
ends with ENTROPY_FAIL; on `ok s`, `s` a Seed (R111), the PRNG is seeded with `s` and SEED finishes while
the others draw. A byte string that is no Seed is no answer (log 3). -/
def Obligations.SeedStepTakesOneEntropyAnswer : Prop :=
  ∀ (s : State), s.seq = .seed →
    (s.env.entropy = [] → seqStep Config.hw s = .next s) ∧
    (∀ rest, s.env.entropy = .fail :: rest →
      seqStep Config.hw s = .next { s with
        fatal := true, pend := 6#4, seq := .finish, hist := s.hist ++ [.entropy false],
        env := { s.env with entropy := rest } }) ∧
    (∀ seed rest, s.env.entropy = .ok seed :: rest → seed.length = Config.hw.seedBytes →
      ∃ t, seqStep Config.hw s = .next t ∧
        t = { s with
          prngState := t.prngState, seeded := true, hist := s.hist ++ [.entropy true],
          seq := if s.cmdRaw.extractLsb' 0 4 = 0x6#4 then .finish else .draw,
          env := { s.env with entropy := rest } } ∧
        prngStateOf Config.hw t = some (Config.hw.prngInit seed) ∧ epochSeed t = some seed) ∧
    (∀ seed rest, s.env.entropy = .ok seed :: rest → seed.length ≠ Config.hw.seedBytes →
      seqStep Config.hw s = .next s)

/-- R134: the DRAW step draws 32 bytes and advances the PRNG state in one step. -/
def Obligations.DrawStepAdvancesThePrngAtomically : Prop :=
  ∀ (s : State) (st : Config.hw.PState), s.seq = .draw → prngStateOf Config.hw s = some st →
    ∃ t, seqStep Config.hw s = .next t ∧
      t = { s with
        nonce := t.nonce, prngState := t.prngState, nonceMask := 0xFF#8,
        hist := s.hist ++ [.draw 32],
        seq := if s.cmdRaw.extractLsb' 0 4 = 0x1#4 then .finish else .kdfEnc } ∧
      t.nonce.toList = (Config.hw.prngNext st 32).1 ∧
      prngStateOf Config.hw t = some (Config.hw.prngNext st 32).2

/-- R177: 32 compare steps from a fresh accumulator decide byte equality of the computed MAC and the
envelope's MAC field: SDEC follows if they are equal, WIPE with BAD_MAC if not; every byte is
compared either way. -/
def Obligations.CompareDecidesByteEquality : Prop :=
  ∀ s : State, s.seq = .cmp → s.diff = 0#8 → s.cmpI = 0 →
    ∃ t, seqRun Config.hw 32 s = .next t ∧ t.hist = s.hist ++ compareEvents ∧
      (t.diff = 0#8 ↔ ∀ i : Fin 32, s.tagCalc[i.val] = s.inBuf.read (32 + i.val)) ∧
      ((∀ i : Fin 32, s.tagCalc[i.val] = s.inBuf.read (32 + i.val)) → t.seq = .sdec ∧ t.pend = s.pend) ∧
      (¬(∀ i : Fin 32, s.tagCalc[i.val] = s.inBuf.read (32 + i.val)) → t.seq = .wipe ∧ t.pend = 1#4)

/-- R178: two DEC_RAW commands that pass CHECK with the same `data_len` go through the same sequencer
states and the same events from CHECK through the 32nd compare, whatever the keys, the MAC fields
and the ciphertexts are. -/
def Obligations.VerificationIsConstantTime : Prop :=
  ∀ (s s' : State), s.seq = .check → s'.seq = .check →
    s.cmdRaw = encode .decRaw → s'.cmdRaw = encode .decRaw → s.dataLen = s'.dataLen →
    firstCheckFailure Config.hw .decRaw s = none → firstCheckFailure Config.hw .decRaw s' = none →
    ∀ n, n ≤ 36 → ∃ t t' es,
      seqRun Config.hw n s = .next t ∧ seqRun Config.hw n s' = .next t' ∧
      t.hist = s.hist ++ es ∧ t'.hist = s'.hist ++ es ∧ (n < 36 → t.seq = t'.seq)

/-- R148, R162: SDEC is entered only from the last compare step with `diff = 0`, and an `EvSdec` event
is emitted only by the SDEC step. -/
def Obligations.DecryptionOnlyAfterMatchingMac : Prop :=
  ∀ (s t : State), seqStep Config.hw s = .next t →
    (t.seq = .sdec → s.seq = .cmp ∧ s.cmpI.val = 31 ∧ t.diff = 0#8) ∧
    (s.seq ≠ .sdec → ∀ n, Event.sdec n ∈ t.hist → Event.sdec n ∈ s.hist)

/-- R61: only the SEED and DRAW steps write the PRNG state; no transaction and no other step does. -/
def Obligations.OnlySeedAndDrawWriteThePrngState : Prop :=
  (∀ (tr : Transaction) (s : State), (transact Config.hw tr s).prngState = s.prngState) ∧
  (∀ (s t : State), seqStep Config.hw s = .next t → s.seq ≠ .seed → s.seq ≠ .draw →
    t.prngState = s.prngState)

/-- R46, R47: SEEDED and FATAL, once 1, stay 1 in every step but reset. -/
def Obligations.SeededAndFatalLastUntilReset : Prop :=
  ∀ (s t : State), step s = .next t → (∀ ms, s.env.moves ≠ .reset :: ms) →
    (s.seeded = true → t.seeded = true) ∧ (s.fatal = true → t.fatal = true)

/-- R26: the history only grows, in every step but reset. -/
def Obligations.HistoryOnlyGrows : Prop :=
  ∀ (s t : State), step s = .next t → (∀ ms, s.env.moves ≠ .reset :: ms) →
    ∃ es, t.hist = s.hist ++ es

/-! ## The envelope -/

/-- R179, for every configuration: a buffer whose first `72 + L` bytes are `frame(n, t, c)` is framed for the length `72 + L`, and
its fields are `n`, `t` and `c`. -/
def Obligations.ParsingInvertsFraming : Prop :=
  ∀ (cfg : Config) (m : Memory) (n t : Bytes32) (c : Bytes), c.length ≤ cfg.maxPt →
    m.readBytes 0 (72 + c.length) = envelope n t c →
    framed m (BitVec.ofNat 64 (72 + c.length)) = true ∧
    nonceField m = n ∧ macField m = t ∧ lengthField m = c.length ∧ m.readBytes 72 c.length = c

/-- R171, R172: `framed` holds exactly when there is a whole header and the full 64-bit length field,
least significant byte first, equals the declared length less 72. -/
def Obligations.FramedMeansExactLength : Prop :=
  ∀ (m : Memory) (d : Length),
    framed m d = true ↔
      72 ≤ d.toNat ∧
      (m.read 64).toNat + 2 ^ 8 * (m.read 65).toNat + 2 ^ 16 * (m.read 66).toNat +
        2 ^ 24 * (m.read 67).toNat + 2 ^ 32 * (m.read 68).toNat + 2 ^ 40 * (m.read 69).toNat +
        2 ^ 48 * (m.read 70).toNat + 2 ^ 56 * (m.read 71).toNat + 72 = d.toNat

/-! ## The commands: where each completes, with what result, and what it leaves unchanged -/

/-- R153: NOP completes with OK in every state that is not busy, FATAL or not, and writes the lifecycle
elements and the latched length (R145) only. -/
def Obligations.NopCompletes : Prop :=
  ∀ s : State, s.busy = false →
    exec .nop s = .next (completed (encode .nop) .ok [] { s with latLen := s.dataLen })

/-- R158, R150: ZEROIZE completes with OK in every state that is not busy, FATAL or not; it clears key,
nonce, masks, lengths, buffers, subkeys, MAC and compare state, and keeps the PRNG state, SEEDED,
FATAL, IE and COLLIDE. -/
def Obligations.ZeroizeCompletes : Prop :=
  ∀ s : State, s.busy = false →
    exec .zeroize s = .next (completed (encode .zeroize) .ok []
      { s with
        key := zero32, keyMask := 0#8, nonce := zero32, nonceMask := 0#8, dataLen := 0#64,
        outLen := 0#64, inBuf := [], outBuf := [], skEnc := zero32, skMac := zero32,
        tagCalc := zero32, diff := 0#8, cmpI := 0, kdfSel := .enc, latLen := 0#64 })

/-- R159: SEED completes with OK: a seeded block draws nothing; an unseeded one is seeded with the
source's answer. The nonce and everything else stay. -/
def Obligations.SeedCompletes : Prop :=
  ∀ s : State, s.busy = false → s.fatal = false →
    (s.seeded = true →
      exec .seed s = .next (completed (encode .seed) .ok [] { s with latLen := s.dataLen })) ∧
    (∀ seed rest, s.seeded = false → s.env.entropy = .ok seed :: rest → seed.length = Config.hw.seedBytes →
      ∃ t, exec .seed s = .next t ∧
        t = completed (encode .seed) .ok [.entropy true]
          { s with latLen := s.dataLen, seeded := true, prngState := t.prngState,
                   env := { s.env with entropy := rest } } ∧
        prngStateOf Config.hw t = some (Config.hw.prngInit seed) ∧ epochSeed t = some seed)

/-- R154: GEN_NONCE completes with OK, seeding first if needed: the nonce is the next 32 bytes of the PRNG
stream, the mask is full, the PRNG state advances, and nothing else changes. -/
def Obligations.GenNonceCompletes : Prop :=
  ∀ (s : State) (st : Config.hw.PState) (es : List Event) (rest : List EntropyAnswer),
    s.busy = false → s.fatal = false → PrngReady Config.hw s st es rest →
    ∃ t, exec .genNonce s = .next t ∧
      t = completed (encode .genNonce) .ok (es ++ [.draw 32])
        { s with latLen := s.dataLen, seeded := true, nonce := t.nonce, nonceMask := 0xFF#8,
                 prngState := t.prngState, env := { s.env with entropy := rest } } ∧
      t.nonce.toList = (Config.hw.prngNext st 32).1 ∧
      prngStateOf Config.hw t = some (Config.hw.prngNext st 32).2

/-- R155: ENC_RAW with key and nonce loaded and a length within MAX_PT completes with OK: OUT[0 .. 72+L)
is the envelope, `out_len = 72 + L`, OUT beyond it, key, nonce, IN and the PRNG state are unchanged,
and the events are in encrypt-then-MAC order (R161). -/
def Obligations.EncRawCompletes : Prop :=
  ∀ s : State, s.busy = false → s.fatal = false → s.keyMask = 0xFF#8 → s.nonceMask = 0xFF#8 →
    s.dataLen.toNat ≤ Config.hw.maxPt →
    ∃ t, exec .encRaw s = .next t ∧
      t = completed (encode .encRaw) .ok
        [.kdf .enc, .kdf .mac, .senc s.dataLen.toNat, .mac s.dataLen.toNat]
        { s with latLen := s.dataLen, outLen := t.outLen, outBuf := t.outBuf, skEnc := zero32,
                 skMac := zero32, tagCalc := zero32, diff := 0#8, cmpI := 0, kdfSel := .enc } ∧
      Encrypted Config.hw s.nonce s t

/-- R156: ENC with the key loaded and a length within MAX_PT completes with OK, seeding first if needed:
it draws a nonce and then does what ENC_RAW does with it. -/
def Obligations.EncCompletes : Prop :=
  ∀ (s : State) (st : Config.hw.PState) (es : List Event) (rest : List EntropyAnswer),
    s.busy = false → s.fatal = false → s.keyMask = 0xFF#8 → s.dataLen.toNat ≤ Config.hw.maxPt →
    PrngReady Config.hw s st es rest →
    ∃ t, exec .enc s = .next t ∧
      t = completed (encode .enc) .ok
        (es ++ [.draw 32, .kdf .enc, .kdf .mac, .senc s.dataLen.toNat, .mac s.dataLen.toNat])
        { s with latLen := s.dataLen, outLen := t.outLen, outBuf := t.outBuf, skEnc := zero32,
                 skMac := zero32, tagCalc := zero32, diff := 0#8, cmpI := 0, kdfSel := .enc,
                 seeded := true, nonce := t.nonce, nonceMask := 0xFF#8,
                 prngState := t.prngState, env := { s.env with entropy := rest } } ∧
      t.nonce.toList = (Config.hw.prngNext st 32).1 ∧
      prngStateOf Config.hw t = some (Config.hw.prngNext st 32).2 ∧
      Encrypted Config.hw t.nonce s t

/-- R157: DEC_RAW of a framed envelope whose MAC field is the MAC of its ciphertext completes with OK:
OUT[0 .. L) is the decrypted ciphertext, `out_len = L`, OUT beyond it, the nonce register and IN are
unchanged. -/
def Obligations.DecRawDecryptsAnAuthenticEnvelope : Prop :=
  ∀ s : State, s.busy = false → s.fatal = false → s.keyMask = 0xFF#8 →
    s.dataLen.toNat ≤ Config.hw.maxPt + 72 → framed s.inBuf s.dataLen = true →
    macField s.inBuf = tagOf Config.hw s.key (ciphertextField s) →
    ∃ t, exec .decRaw s = .next t ∧
      t = completed (encode .decRaw) .ok
        ([.kdf .enc, .kdf .mac, .mac (s.dataLen.toNat - 72)] ++ compareEvents ++
          [.sdec (s.dataLen.toNat - 72)])
        { s with latLen := s.dataLen - 72#64, outLen := s.dataLen - 72#64, outBuf := t.outBuf,
                 skEnc := zero32, skMac := zero32, tagCalc := zero32, diff := 0#8, cmpI := 0,
                 kdfSel := .enc } ∧
      t.outBuf.readBytes 0 (s.dataLen.toNat - 72) =
        Config.hw.sdec (Config.hw.kdf s.key Config.hw.labelEnc) (nonceField s.inBuf) (ciphertextField s) ∧
      ∀ a, s.dataLen.toNat - 72 ≤ a → t.outBuf.read a = s.outBuf.read a

/-- R185: DEC_RAW of a framed envelope whose MAC field is not the MAC of its ciphertext
completes with BAD_MAC: `out_len = 0`, OUT is not written, no SDEC call is made, the subkeys and the
MAC are wiped. -/
def Obligations.DecRawRejectsAForgedEnvelope : Prop :=
  ∀ s : State, s.busy = false → s.fatal = false → s.keyMask = 0xFF#8 →
    s.dataLen.toNat ≤ Config.hw.maxPt + 72 → framed s.inBuf s.dataLen = true →
    macField s.inBuf ≠ tagOf Config.hw s.key (ciphertextField s) →
    exec .decRaw s = .next (completed (encode .decRaw) .badMac
      ([.kdf .enc, .kdf .mac, .mac (s.dataLen.toNat - 72)] ++ compareEvents)
      { s with latLen := s.dataLen - 72#64, outLen := 0#64, skEnc := zero32, skMac := zero32,
               tagCalc := zero32, diff := 0#8, cmpI := 0, kdfSel := .enc })

/-- R195, R198: a command that fails CHECK reports the first failure in the order of R195 and changes
only the lifecycle elements, and `out_len`, which it clears for ENC_RAW, ENC and DEC_RAW. -/
def Obligations.FailedCheckReportsTheFirstFailure : Prop :=
  ∀ (i : Instr) (s : State) (c : ResultCode), s.busy = false →
    firstCheckFailure Config.hw i s = some c →
    exec i s = .next (completed (encode i) c []
      { s with outLen := if i = .encRaw ∨ i = .enc ∨ i = .decRaw then 0#64 else s.outLen })

/-- R131, R190, R198: a command that needs seeding and whose entropy draw fails completes with
ENTROPY_FAIL and sets FATAL; no nonce is drawn. -/
def Obligations.FailedSeedingSetsFatal : Prop :=
  ∀ (i : Instr) (s : State) (rest : List EntropyAnswer), s.busy = false →
    i = .genNonce ∨ i = .enc ∨ i = .seed → firstCheckFailure Config.hw i s = none →
    s.seeded = false → s.env.entropy = .fail :: rest →
    exec i s = .next (completed (encode i) .entropyFail [.entropy false]
      { s with fatal := true, latLen := s.dataLen, outLen := if i = .enc then 0#64 else s.outLen,
               env := { s.env with entropy := rest } })

/-- R111, R232: a command that needs seeding waits at SEED, busy, while the entropy source has not
answered. -/
def Obligations.SeedingWaitsForTheEntropySource : Prop :=
  ∀ (i : Instr) (s : State), s.busy = false →
    i = .genNonce ∨ i = .enc ∨ i = .seed → firstCheckFailure Config.hw i s = none →
    s.seeded = false → s.env.entropy = [] →
    ∃ t, exec i s = .next t ∧ t.busy = true ∧ t.seq = .seed ∧
      ∀ n, seqRun Config.hw n t = .next t

/-- R93, R94, R160: the RUN of a word that is no command completes with ILLEGAL and changes only the
lifecycle elements, FATAL or not. -/
def Obligations.IllegalWordsCompleteWithIllegal : Prop :=
  ∀ (s : State) (w : Word), s.busy = false →
    (w.extractLsb' 4 28 ≠ 0#28 ∨ 7 ≤ (w.extractLsb' 0 4).toNat) →
    runWord w s = .next (completed w .illegal [] s)

/-- R132: once FATAL is set, every command other than NOP and ZEROIZE completes with ENTROPY_FAIL and
takes no entropy answer. -/
def Obligations.FatalLocksTheBlock : Prop :=
  ∀ (i : Instr) (s : State), s.busy = false → s.fatal = true → i ≠ .nop → i ≠ .zeroize →
    ∃ t, exec i s = .next t ∧ t.result = 6#4 ∧ t.fatal = true ∧ t.env = s.env ∧
      t.hist = s.hist ++ [.finish 6#4] ∧ t.prngState = s.prngState ∧ t.nonce = s.nonce

/-- R80, R85: while a command runs, the write of another's word is rejected: only `collide` changes. -/
def Obligations.SecondCommandIsRejectedWhileBusy : Prop :=
  ∀ (i : Instr) (s : State), s.busy = true → exec i s = .next { s with collide := true }

/-- R165: every accepted word, legal or not, completes within 39 steps of the sequencer, if the entropy
source has an answer waiting. -/
def Obligations.EveryAcceptedWordCompletesInThirtyNineSteps : Prop :=
  ∀ (s : State) (w : Word), Inv Config.hw s → s.busy = false → s.env.entropy ≠ [] →
    ∃ n t, n ≤ 39 ∧ seqRun Config.hw n (accept w s) = .next t ∧
      t.seq = .idle ∧ t.busy = false ∧ t.done = true

/-- R163: round trip. If an ENC_RAW or ENC completes with OK and its envelope is copied into IN, then
DEC_RAW under the same key with `DATA_LEN = 72 + L` completes with OK and gives back the plaintext. -/
def Obligations.DecryptionUndoesEncryption : Prop :=
  ∀ (i : Instr) (s t s' : State), i = .encRaw ∨ i = .enc → s.busy = false →
    exec i s = .next t → t.busy = false → t.result = codeOf .ok →
    s'.busy = false → s'.fatal = false → s'.keyMask = 0xFF#8 → s'.key = s.key →
    s'.dataLen = 72#64 + s.dataLen →
    s'.inBuf.readBytes 0 (72 + s.dataLen.toNat) = t.outBuf.readBytes 0 (72 + s.dataLen.toNat) →
    ∃ u, exec .decRaw s' = .next u ∧ u.result = codeOf .ok ∧ u.busy = false ∧
      u.outLen = s.dataLen ∧
      u.outBuf.readBytes 0 s.dataLen.toNat = s.inBuf.readBytes 0 s.dataLen.toNat

/-- R174 (a), R228: the nonce field is not covered by the MAC: DEC_RAW of two envelopes that differ at
most in bytes 0 to 31 reports the same result. -/
def Obligations.NonceFieldIsNotAuthenticated : Prop :=
  ∀ (s t t' : State) (m : Memory), s.busy = false →
    (∀ a, 32 ≤ a → m.read a = s.inBuf.read a) →
    exec .decRaw s = .next t → exec .decRaw { s with inBuf := m } = .next t' →
    t'.result = t.result ∧ t'.outLen = t.outLen

/-- R136, R137, log 17: the i-th draw of a seeding epoch, by GEN_NONCE or ENC, in any order with other
moves, writes `b_i` to the nonce and `st_i` to the PRNG state. Said of every step but reset, for the
step that is a draw: `drawCount` of the history is `i - 1` before it and `i` after it. And where the
first `count` draws are distinct (PRNG_FRESH, R108, a premise), two DRAW steps of one epoch give two
nonces, for every configuration. -/
def Obligations.NoncesFollowThePrngStream : Prop :=
  (∀ s t : State, Inv Config.hw s → step s = .next t → (∀ ms, s.env.moves ≠ .reset :: ms) →
    (∀ seed, epochSeed s = some seed → epochSeed t = some seed) ∧
    (epochSeed t = none → drawCount t.hist = 0) ∧
    (∀ seed, epochSeed t = some seed →
      prngStateOf Config.hw t = some (Config.hw.prngAfter seed (drawCount t.hist)) ∧
      (drawCount t.hist = drawCount s.hist ∨
        drawCount t.hist = drawCount s.hist + 1 ∧
          t.nonce.toList = Config.hw.drawnBytes seed (drawCount s.hist)))) ∧
  (∀ (cfg : Config) (s t s' t' : State) (seed : Bytes) (count : Nat), Inv cfg s → Inv cfg s' →
    s.seq = .draw → s'.seq = .draw → seqStep cfg s = .next t → seqStep cfg s' = .next t' →
    epochSeed s = some seed → epochSeed s' = some seed → cfg.PrngFresh seed count →
    drawCount s.hist < count → drawCount s'.hist < count → drawCount s.hist ≠ drawCount s'.hist →
    t.nonce ≠ t'.nonce)

/-! ## Host assembly -/

/-- R99: the eight lines of LOADKEY, run by a host agent while the block is not busy, load the key and
fill `key_mask`, and change nothing else of the block. -/
def Obligations.LoadKeyLoadsTheKey : Prop :=
  ∀ (s : State) (k : Bytes32) (n : Nat), s.busy = false →
    s.env.hosts[0]? = some { prog := pseudoLoadKey k, line := 0, names := [], executed := n } →
    let t := hostLines Config.hw 0 8 s
    t = { s with key := k, keyMask := 0xFF#8, env := t.env } ∧ runEnded 0 t = true
end

