-- ==== Sys2Proof/Laws/Encoding.lean ====
section
/-! SUPPORT. Little-endian byte strings, and what the decoder gives for the encoder's words. -/

namespace Sys2Proof

@[simp] theorem leBytes_length (n x : Nat) : (leBytes n x).length = n := by
  induction n generalizing x with
  | zero => rfl
  | succ n ih => simp [leBytes, ih]

/-- A number written in `n` bytes is read back modulo `256^n` (R19). -/
theorem leNat_leBytes (n x : Nat) : leNat (leBytes n x) = x % 256 ^ n := by
  induction n generalizing x with
  | zero => simp [leBytes, leNat, Nat.mod_one]
  | succ n ih =>
    rw [leBytes, leNat, ih, BitVec.toNat_ofNat, show (2 : Nat) ^ 8 = 256 from rfl, Nat.pow_succ',
      Nat.mod_mul (x := x) (a := 256)]

@[simp] theorem u64le_length (x : Length) : (u64le x).length = 8 := leBytes_length 8 _

@[simp] theorem u32le_length (w : Word) : (u32le w).length = 4 := leBytes_length 4 _

/-- `u64le⁻¹(u64le(x)) = x` (R19). -/
theorem leNat_u64le (x : Length) : leNat (u64le x) = x.toNat := by
  rw [u64le, leNat_leBytes]
  exact Nat.mod_eq_of_lt x.isLt

/-- `u32le⁻¹(u32le(w)) = w` (R19). -/
theorem u32leInv_u32le (w : Word) : u32leInv (u32le w) = w := by
  have h : w.toNat % 256 ^ 4 = w.toNat := Nat.mod_eq_of_lt w.isLt
  rw [u32leInv, u32le, leNat_leBytes, h]
  simp

/-- The encoder's word decodes to its command (R92). -/
@[simp] theorem decode_encode (i : Instr) : decode (encode i) = .command i := by
  cases i <;> decide

/-- The OPCODE field of a word that decodes to a command is that command's (R92). -/
theorem opcodeField_of_decode {w : Word} {i : Instr} (h : decode w = .command i) :
    opcodeField w = opcodeOf i := by
  unfold decode at h
  split at h
  · cases h
  · split at h
    · next hi =>
      cases h
      generalize opcodeField w = op at hi ⊢
      revert op
      cases i <;> decide
    · cases h

@[simp] theorem opcodeField_encode (i : Instr) : opcodeField (encode i) = opcodeOf i := by
  cases i <;> decide

end Sys2Proof
end

