-- ==== Sys2Proof/Laws/Memory.lean ====
section
/-! SUPPORT. What the buffer operations do: reads after writes, other addresses unchanged, canonical form kept. -/

namespace Sys2Proof.Machine

/-! ## One byte -/

@[simp] theorem Memory.read_nil (a : Nat) : Memory.read [] a = Memory.blank := rfl

theorem Memory.read_cons (c : Host.Cell) (m : Memory) (a : Nat) :
    Memory.read (c :: m) a = if c.1 = a then c.2 else Memory.read m a := rfl

/-- An address that no cell lists reads as blank. -/
theorem Memory.read_of_not_listed (m : Memory) (a : Nat) (h : ∀ c ∈ m, c.1 ≠ a) :
    Memory.read m a = Memory.blank := by
  induction m with
  | nil => rfl
  | cons c m ih =>
    rw [Memory.read_cons, if_neg (h c (by simp))]
    exact ih fun d hd => h d (List.mem_cons_of_mem _ hd)

/-- Taking an address's cells out leaves every other address as it was. -/
theorem Memory.read_filter_other (m : Memory) (a c : Nat) (h : c ≠ a) :
    Memory.read (m.filter (fun x => x.1 != a)) c = Memory.read m c := by
  induction m with
  | nil => rfl
  | cons x m ih =>
    by_cases hx : x.1 = a
    · rw [List.filter_cons_of_neg (by simp [hx]), ih, Memory.read_cons, if_neg (by omega)]
    · rw [List.filter_cons_of_pos (by simp [hx]), Memory.read_cons, Memory.read_cons, ih]

theorem Memory.read_insertCell_other (m : Memory) (a c : Nat) (b : Byte) (h : c ≠ a) :
    Memory.read (Memory.insertCell m a b) c = Memory.read m c := by
  induction m with
  | nil => rw [Memory.insertCell, Memory.read_cons, if_neg (by simpa using h.symm)]
  | cons x m ih =>
    rw [Memory.insertCell]
    split
    · rw [Memory.read_cons, if_neg (by simpa using h.symm)]
    · rw [Memory.read_cons, Memory.read_cons, ih]

theorem Memory.read_insertCell_same (m : Memory) (a : Nat) (b : Byte) (h : ∀ c ∈ m, c.1 ≠ a) :
    Memory.read (Memory.insertCell m a b) a = b := by
  induction m with
  | nil => rw [Memory.insertCell, Memory.read_cons, if_pos rfl]
  | cons x m ih =>
    rw [Memory.insertCell]
    split
    · rw [Memory.read_cons, if_pos rfl]
    · rw [Memory.read_cons, if_neg (h x (by simp))]
      exact ih fun d hd => h d (List.mem_cons_of_mem _ hd)

theorem Memory.not_listed_filter (m : Memory) (a : Nat) :
    ∀ c ∈ m.filter (fun x => x.1 != a), c.1 ≠ a := by
  intro c hc
  simpa using (List.mem_filter.mp hc).2

/-- A read gives the byte last written there. -/
@[simp] theorem Memory.read_write_same (m : Memory) (a : Nat) (b : Byte) :
    (m.write a b).read a = b := by
  unfold Memory.write
  split
  · next h => rw [Memory.read_of_not_listed _ _ (m.not_listed_filter a), h]
  · exact Memory.read_insertCell_same _ _ _ (m.not_listed_filter a)

/-- A write leaves every other address as it was. -/
theorem Memory.read_write_other (m : Memory) (a c : Nat) (b : Byte) (h : c ≠ a) :
    (m.write a b).read c = m.read c := by
  unfold Memory.write
  split
  · exact m.read_filter_other a c h
  · rw [Memory.read_insertCell_other _ _ _ _ h, m.read_filter_other a c h]

/-! ## Byte strings -/

@[simp] theorem Memory.readBytes_zero (m : Memory) (a : Nat) : m.readBytes a 0 = [] := rfl

theorem Memory.readBytes_succ (m : Memory) (a n : Nat) :
    m.readBytes a (n + 1) = m.read a :: m.readBytes (a + 1) n := rfl

/-- Byte `i` of a byte string read from `a` is the byte at `a + i`. -/
theorem Memory.readBytes_getElem (m : Memory) (a n i : Nat) (h : i < (m.readBytes a n).length) :
    (m.readBytes a n)[i] = m.read (a + i) := by
  induction n generalizing a i with
  | zero => simp at h
  | succ n ih =>
    cases i with
    | zero => simp [Memory.readBytes_succ]
    | succ i =>
      simp only [Memory.readBytes_succ, List.getElem_cons_succ]
      rw [ih]
      congr 1
      omega

/-- Two buffers that agree on `[a, a+n)` give the same byte string there. -/
theorem Memory.readBytes_congr (m m' : Memory) (a n : Nat)
    (h : ∀ i, a ≤ i → i < a + n → m.read i = m'.read i) : m.readBytes a n = m'.readBytes a n := by
  induction n generalizing a with
  | zero => rfl
  | succ n ih =>
    rw [Memory.readBytes_succ, Memory.readBytes_succ, h a (by omega) (by omega),
      ih (a + 1) fun i h1 h2 => h i (by omega) (by omega)]

/-- A read of `n + k` bytes is a read of `n`, then a read of `k`. -/
theorem Memory.readBytes_add (m : Memory) (a n k : Nat) :
    m.readBytes a (n + k) = m.readBytes a n ++ m.readBytes (a + n) k := by
  induction n generalizing a with
  | zero => simp
  | succ n ih =>
    rw [show n + 1 + k = n + k + 1 by omega, Memory.readBytes_succ, Memory.readBytes_succ, ih,
      List.cons_append, show a + 1 + n = a + (n + 1) by omega]

@[simp] theorem Memory.writeBytes_nil (m : Memory) (a : Nat) : m.writeBytes a [] = m := rfl

theorem Memory.writeBytes_cons (m : Memory) (a : Nat) (b : Byte) (bs : Bytes) :
    m.writeBytes a (b :: bs) = (m.write a b).writeBytes (a + 1) bs := rfl

/-- A write of a byte string leaves every address outside it as it was. -/
theorem Memory.read_writeBytes_other (m : Memory) (a : Nat) (v : Bytes) (c : Nat)
    (h : c < a ∨ a + v.length ≤ c) : (m.writeBytes a v).read c = m.read c := by
  induction v generalizing m a with
  | nil => rfl
  | cons b bs ih =>
    simp only [List.length_cons] at h
    rw [Memory.writeBytes_cons, ih _ _ (by omega), Memory.read_write_other _ _ _ _ (by omega)]

/-- After a write of a byte string the address `a + i` holds its byte `i`. -/
theorem Memory.read_writeBytes_inside (m : Memory) (a : Nat) (v : Bytes) (i : Nat) (h : i < v.length) :
    (m.writeBytes a v).read (a + i) = v[i] := by
  induction v generalizing m a i with
  | nil => simp at h
  | cons b bs ih =>
    cases i with
    | zero =>
      rw [Memory.writeBytes_cons, Memory.read_writeBytes_other _ _ _ _ (by omega)]
      simp
    | succ i =>
      simp only [List.length_cons] at h
      rw [Memory.writeBytes_cons, show a + (i + 1) = a + 1 + i by omega, ih _ _ _ (by omega)]
      simp

/-- A byte string written is read back. -/
theorem Memory.readBytes_writeBytes_same (m : Memory) (a : Nat) (v : Bytes) :
    (m.writeBytes a v).readBytes a v.length = v := by
  apply List.ext_getElem (Memory.readBytes_length _ _ _)
  intro i h1 h2
  rw [Memory.readBytes_getElem, Memory.read_writeBytes_inside _ _ _ _ h2]

/-- A byte string read where nothing was written is as before. -/
theorem Memory.readBytes_writeBytes_other (m : Memory) (a : Nat) (v : Bytes) (c n : Nat)
    (h : c + n ≤ a ∨ a + v.length ≤ c) : (m.writeBytes a v).readBytes c n = m.readBytes c n := by
  apply Memory.readBytes_congr
  intro i h1 h2
  exact Memory.read_writeBytes_other _ _ _ _ (by omega)

/-! ## The canonical form -/

theorem Memory.mem_insertCell (m : Memory) (a : Nat) (b : Byte) (c : Host.Cell) :
    c ∈ Memory.insertCell m a b ↔ c = (a, b) ∨ c ∈ m := by
  induction m with
  | nil => simp [Memory.insertCell]
  | cons x m ih =>
    rw [Memory.insertCell]
    split
    · simp
    · simp only [List.mem_cons, ih]
      tauto

theorem Memory.insertCell_pairwise (m : Memory) (a : Nat) (b : Byte)
    (hm : m.Pairwise (fun c d => c.1 < d.1)) (h : ∀ c ∈ m, c.1 ≠ a) :
    (Memory.insertCell m a b).Pairwise (fun c d => c.1 < d.1) := by
  induction m with
  | nil => simp [Memory.insertCell]
  | cons x m ih =>
    rw [Memory.insertCell]
    have hx := List.pairwise_cons.mp hm
    split
    · next hlt =>
      refine List.pairwise_cons.mpr ⟨fun c hc => ?_, hm⟩
      rcases List.mem_cons.mp hc with rfl | hc
      · exact hlt
      · exact Nat.lt_trans hlt (hx.1 c hc)
    · next hge =>
      refine List.pairwise_cons.mpr ⟨fun c hc => ?_, ih hx.2 fun d hd => h d (List.mem_cons_of_mem _ hd)⟩
      rcases (Memory.mem_insertCell _ _ _ _).mp hc with rfl | hc
      · have := h x (by simp)
        simp only
        omega
      · exact hx.1 c hc

/-- A write keeps the canonical form. -/
theorem Memory.write_wf (m : Memory) (a : Nat) (b : Byte) (h : m.wf) : (m.write a b).wf := by
  unfold Memory.write
  have hp := h.1.filter (fun c => c.1 != a)
  have hb : ∀ c ∈ m.filter (fun c => c.1 != a), c.2 ≠ Memory.blank :=
    fun c hc => h.2 c (List.mem_filter.mp hc).1
  split
  · exact ⟨hp, hb⟩
  · next hne =>
    refine ⟨Memory.insertCell_pairwise _ _ _ hp (m.not_listed_filter a), fun c hc => ?_⟩
    rcases (Memory.mem_insertCell _ _ _ _).mp hc with rfl | hc
    · exact hne
    · exact hb c hc

/-- A write below `n` keeps every listed address below `n`. -/
theorem Memory.write_below (m : Memory) (a n : Nat) (b : Byte) (h : m.below n) (ha : a < n) :
    (m.write a b).below n := by
  unfold Memory.write
  intro c hc
  split at hc
  · exact h c (List.mem_filter.mp hc).1
  · rcases (Memory.mem_insertCell _ _ _ _).mp hc with rfl | hc
    · exact ha
    · exact h c (List.mem_filter.mp hc).1

/-- A write of a byte string keeps the canonical form. -/
theorem Memory.writeBytes_wf (m : Memory) (a : Nat) (v : Bytes) (h : m.wf) : (m.writeBytes a v).wf := by
  induction v generalizing m a with
  | nil => exact h
  | cons b bs ih => exact ih _ _ (m.write_wf a b h)

/-- A write of a byte string inside `[0, n)` keeps every listed address below `n`. -/
theorem Memory.writeBytes_below (m : Memory) (a n : Nat) (v : Bytes) (h : m.below n)
    (ha : a + v.length ≤ n) : (m.writeBytes a v).below n := by
  induction v generalizing m a with
  | nil => exact h
  | cons b bs ih =>
    simp only [List.length_cons] at ha
    exact ih _ _ (m.write_below a n b h (by omega)) (by omega)

/-- The empty buffer, as at reset, is in canonical form. -/
theorem Memory.nil_wf : Memory.wf [] := ⟨List.Pairwise.nil, by simp⟩

/-! ## MemRead and MemWrite -/

/-- `MemRead` inside the buffer goes on with the bytes (R21). -/
theorem memRead_inside (cfg : Config) (m : Memory) (a n : Nat) (k : Bytes → Result)
    (h : a + n ≤ cfg.bufBytes) : memRead cfg m a n k = k (m.readBytes a n) := if_pos h

/-- `MemWrite` inside the buffer goes on with the new contents (R21). -/
theorem memWrite_inside (cfg : Config) (m : Memory) (a : Nat) (v : Bytes) (k : Memory → Result)
    (h : a + v.length ≤ cfg.bufBytes) : memWrite cfg m a v k = k (m.writeBytes a v) := if_pos h

/-- `MemRead` that would leave the buffer faults. -/
theorem memRead_outside (cfg : Config) (m : Memory) (a n : Nat) (k : Bytes → Result)
    (h : ¬a + n ≤ cfg.bufBytes) : memRead cfg m a n k = .fault .bufferRange := if_neg h

/-- `MemWrite` that would leave the buffer faults. -/
theorem memWrite_outside (cfg : Config) (m : Memory) (a : Nat) (v : Bytes) (k : Memory → Result)
    (h : ¬a + v.length ≤ cfg.bufBytes) : memWrite cfg m a v k = .fault .bufferRange := if_neg h

/-- Everything `MemRead` can do: go on inside the buffer, or fault. -/
theorem memRead_next {cfg : Config} {m : Memory} {a n : Nat} {k : Bytes → Result} {t : State}
    (h : memRead cfg m a n k = .next t) : a + n ≤ cfg.bufBytes ∧ k (m.readBytes a n) = .next t := by
  unfold memRead at h
  split at h
  · exact ⟨‹_›, h⟩
  · cases h

/-- Everything `MemWrite` can do: go on inside the buffer, or fault. -/
theorem memWrite_next {cfg : Config} {m : Memory} {a : Nat} {v : Bytes} {k : Memory → Result} {t : State}
    (h : memWrite cfg m a v k = .next t) :
    a + v.length ≤ cfg.bufBytes ∧ k (m.writeBytes a v) = .next t := by
  unfold memWrite at h
  split at h
  · exact ⟨‹_›, h⟩
  · cases h

/-! ## Blocks -/

@[simp] theorem blockOfBytes_toList (b : Bytes) (h : b.length = 32) : (blockOfBytes b h).toList = b := by
  simp [blockOfBytes]

@[simp] theorem Memory.readBlock_toList (m : Memory) (a : Nat) :
    (m.readBlock a).toList = m.readBytes a 32 := by
  simp [Memory.readBlock]

/-- A block is its 32 bytes. -/
theorem Bytes32.ext_toList {v w : Bytes32} (h : v.toList = w.toList) : v = w := Vector.toList_inj.mp h

/-- Byte `i` of a block read at `a` is the byte at `a + i`. -/
theorem Memory.readBlock_getElem (m : Memory) (a i : Nat) (h : i < 32) :
    (m.readBlock a)[i] = m.read (a + i) := by
  have := m.readBytes_getElem a 32 i (by simpa [Memory.readBytes_length] using h)
  rw [← this]
  simp [Memory.readBlock, blockOfBytes]

end Sys2Proof.Machine
end

