-- ==== Sys2Proof/Laws/State.lean ====
section
/-! SUPPORT. One lemma per field of State for each named update: what the field is afterwards. -/

namespace Sys2Proof.Machine

/-! ## emit -/

@[simp] theorem emit_key (e : Event) (s : State) : (emit e s).key = s.key := rfl
@[simp] theorem emit_keyMask (e : Event) (s : State) : (emit e s).keyMask = s.keyMask := rfl
@[simp] theorem emit_nonce (e : Event) (s : State) : (emit e s).nonce = s.nonce := rfl
@[simp] theorem emit_nonceMask (e : Event) (s : State) : (emit e s).nonceMask = s.nonceMask := rfl
@[simp] theorem emit_dataLen (e : Event) (s : State) : (emit e s).dataLen = s.dataLen := rfl
@[simp] theorem emit_outLen (e : Event) (s : State) : (emit e s).outLen = s.outLen := rfl
@[simp] theorem emit_ie (e : Event) (s : State) : (emit e s).ie = s.ie := rfl
@[simp] theorem emit_busy (e : Event) (s : State) : (emit e s).busy = s.busy := rfl
@[simp] theorem emit_done (e : Event) (s : State) : (emit e s).done = s.done := rfl
@[simp] theorem emit_collide (e : Event) (s : State) : (emit e s).collide = s.collide := rfl
@[simp] theorem emit_seeded (e : Event) (s : State) : (emit e s).seeded = s.seeded := rfl
@[simp] theorem emit_fatal (e : Event) (s : State) : (emit e s).fatal = s.fatal := rfl
@[simp] theorem emit_result (e : Event) (s : State) : (emit e s).result = s.result := rfl
@[simp] theorem emit_lastOp (e : Event) (s : State) : (emit e s).lastOp = s.lastOp := rfl
@[simp] theorem emit_cmdRaw (e : Event) (s : State) : (emit e s).cmdRaw = s.cmdRaw := rfl
@[simp] theorem emit_pend (e : Event) (s : State) : (emit e s).pend = s.pend := rfl
@[simp] theorem emit_seq (e : Event) (s : State) : (emit e s).seq = s.seq := rfl
@[simp] theorem emit_latLen (e : Event) (s : State) : (emit e s).latLen = s.latLen := rfl
@[simp] theorem emit_kdfSel (e : Event) (s : State) : (emit e s).kdfSel = s.kdfSel := rfl
@[simp] theorem emit_skEnc (e : Event) (s : State) : (emit e s).skEnc = s.skEnc := rfl
@[simp] theorem emit_skMac (e : Event) (s : State) : (emit e s).skMac = s.skMac := rfl
@[simp] theorem emit_tagCalc (e : Event) (s : State) : (emit e s).tagCalc = s.tagCalc := rfl
@[simp] theorem emit_diff (e : Event) (s : State) : (emit e s).diff = s.diff := rfl
@[simp] theorem emit_cmpI (e : Event) (s : State) : (emit e s).cmpI = s.cmpI := rfl
@[simp] theorem emit_prngState (e : Event) (s : State) : (emit e s).prngState = s.prngState := rfl
@[simp] theorem emit_inBuf (e : Event) (s : State) : (emit e s).inBuf = s.inBuf := rfl
@[simp] theorem emit_outBuf (e : Event) (s : State) : (emit e s).outBuf = s.outBuf := rfl
@[simp] theorem emit_hist (e : Event) (s : State) : (emit e s).hist = s.hist ++ [e] := rfl
@[simp] theorem emit_env (e : Event) (s : State) : (emit e s).env = s.env := rfl

/-! ## raise -/

@[simp] theorem raise_key (c : ResultCode) (s : State) : (raise c s).key = s.key := rfl
@[simp] theorem raise_keyMask (c : ResultCode) (s : State) : (raise c s).keyMask = s.keyMask := rfl
@[simp] theorem raise_nonce (c : ResultCode) (s : State) : (raise c s).nonce = s.nonce := rfl
@[simp] theorem raise_nonceMask (c : ResultCode) (s : State) : (raise c s).nonceMask = s.nonceMask := rfl
@[simp] theorem raise_dataLen (c : ResultCode) (s : State) : (raise c s).dataLen = s.dataLen := rfl
@[simp] theorem raise_outLen (c : ResultCode) (s : State) : (raise c s).outLen = s.outLen := rfl
@[simp] theorem raise_ie (c : ResultCode) (s : State) : (raise c s).ie = s.ie := rfl
@[simp] theorem raise_busy (c : ResultCode) (s : State) : (raise c s).busy = s.busy := rfl
@[simp] theorem raise_done (c : ResultCode) (s : State) : (raise c s).done = s.done := rfl
@[simp] theorem raise_collide (c : ResultCode) (s : State) : (raise c s).collide = s.collide := rfl
@[simp] theorem raise_seeded (c : ResultCode) (s : State) : (raise c s).seeded = s.seeded := rfl
@[simp] theorem raise_fatal (c : ResultCode) (s : State) : (raise c s).fatal = s.fatal := rfl
@[simp] theorem raise_result (c : ResultCode) (s : State) : (raise c s).result = s.result := rfl
@[simp] theorem raise_lastOp (c : ResultCode) (s : State) : (raise c s).lastOp = s.lastOp := rfl
@[simp] theorem raise_cmdRaw (c : ResultCode) (s : State) : (raise c s).cmdRaw = s.cmdRaw := rfl
@[simp] theorem raise_pend (c : ResultCode) (s : State) : (raise c s).pend = codeOf c := rfl
@[simp] theorem raise_seq (c : ResultCode) (s : State) : (raise c s).seq = .finish := rfl
@[simp] theorem raise_latLen (c : ResultCode) (s : State) : (raise c s).latLen = s.latLen := rfl
@[simp] theorem raise_kdfSel (c : ResultCode) (s : State) : (raise c s).kdfSel = s.kdfSel := rfl
@[simp] theorem raise_skEnc (c : ResultCode) (s : State) : (raise c s).skEnc = s.skEnc := rfl
@[simp] theorem raise_skMac (c : ResultCode) (s : State) : (raise c s).skMac = s.skMac := rfl
@[simp] theorem raise_tagCalc (c : ResultCode) (s : State) : (raise c s).tagCalc = s.tagCalc := rfl
@[simp] theorem raise_diff (c : ResultCode) (s : State) : (raise c s).diff = s.diff := rfl
@[simp] theorem raise_cmpI (c : ResultCode) (s : State) : (raise c s).cmpI = s.cmpI := rfl
@[simp] theorem raise_prngState (c : ResultCode) (s : State) : (raise c s).prngState = s.prngState := rfl
@[simp] theorem raise_inBuf (c : ResultCode) (s : State) : (raise c s).inBuf = s.inBuf := rfl
@[simp] theorem raise_outBuf (c : ResultCode) (s : State) : (raise c s).outBuf = s.outBuf := rfl
@[simp] theorem raise_hist (c : ResultCode) (s : State) : (raise c s).hist = s.hist := rfl
@[simp] theorem raise_env (c : ResultCode) (s : State) : (raise c s).env = s.env := rfl

/-! ## accept -/

@[simp] theorem accept_key (w : Word) (s : State) : (accept w s).key = s.key := rfl
@[simp] theorem accept_keyMask (w : Word) (s : State) : (accept w s).keyMask = s.keyMask := rfl
@[simp] theorem accept_nonce (w : Word) (s : State) : (accept w s).nonce = s.nonce := rfl
@[simp] theorem accept_nonceMask (w : Word) (s : State) : (accept w s).nonceMask = s.nonceMask := rfl
@[simp] theorem accept_dataLen (w : Word) (s : State) : (accept w s).dataLen = s.dataLen := rfl
@[simp] theorem accept_outLen (w : Word) (s : State) : (accept w s).outLen = s.outLen := rfl
@[simp] theorem accept_ie (w : Word) (s : State) : (accept w s).ie = s.ie := rfl
@[simp] theorem accept_busy (w : Word) (s : State) : (accept w s).busy = true := rfl
@[simp] theorem accept_done (w : Word) (s : State) : (accept w s).done = false := rfl
@[simp] theorem accept_collide (w : Word) (s : State) : (accept w s).collide = s.collide := rfl
@[simp] theorem accept_seeded (w : Word) (s : State) : (accept w s).seeded = s.seeded := rfl
@[simp] theorem accept_fatal (w : Word) (s : State) : (accept w s).fatal = s.fatal := rfl
@[simp] theorem accept_result (w : Word) (s : State) : (accept w s).result = s.result := rfl
@[simp] theorem accept_lastOp (w : Word) (s : State) : (accept w s).lastOp = opcodeField w := rfl
@[simp] theorem accept_cmdRaw (w : Word) (s : State) : (accept w s).cmdRaw = w := rfl
@[simp] theorem accept_pend (w : Word) (s : State) : (accept w s).pend = codeOf .ok := rfl
@[simp] theorem accept_seq (w : Word) (s : State) : (accept w s).seq = .check := rfl
@[simp] theorem accept_latLen (w : Word) (s : State) : (accept w s).latLen = s.latLen := rfl
@[simp] theorem accept_kdfSel (w : Word) (s : State) : (accept w s).kdfSel = s.kdfSel := rfl
@[simp] theorem accept_skEnc (w : Word) (s : State) : (accept w s).skEnc = s.skEnc := rfl
@[simp] theorem accept_skMac (w : Word) (s : State) : (accept w s).skMac = s.skMac := rfl
@[simp] theorem accept_tagCalc (w : Word) (s : State) : (accept w s).tagCalc = s.tagCalc := rfl
@[simp] theorem accept_diff (w : Word) (s : State) : (accept w s).diff = s.diff := rfl
@[simp] theorem accept_cmpI (w : Word) (s : State) : (accept w s).cmpI = s.cmpI := rfl
@[simp] theorem accept_prngState (w : Word) (s : State) : (accept w s).prngState = s.prngState := rfl
@[simp] theorem accept_inBuf (w : Word) (s : State) : (accept w s).inBuf = s.inBuf := rfl
@[simp] theorem accept_outBuf (w : Word) (s : State) : (accept w s).outBuf = s.outBuf := rfl
@[simp] theorem accept_hist (w : Word) (s : State) : (accept w s).hist = s.hist := rfl
@[simp] theorem accept_env (w : Word) (s : State) : (accept w s).env = s.env := rfl

/-! ## reject -/

@[simp] theorem reject_key (s : State) : (reject s).key = s.key := rfl
@[simp] theorem reject_keyMask (s : State) : (reject s).keyMask = s.keyMask := rfl
@[simp] theorem reject_nonce (s : State) : (reject s).nonce = s.nonce := rfl
@[simp] theorem reject_nonceMask (s : State) : (reject s).nonceMask = s.nonceMask := rfl
@[simp] theorem reject_dataLen (s : State) : (reject s).dataLen = s.dataLen := rfl
@[simp] theorem reject_outLen (s : State) : (reject s).outLen = s.outLen := rfl
@[simp] theorem reject_ie (s : State) : (reject s).ie = s.ie := rfl
@[simp] theorem reject_busy (s : State) : (reject s).busy = s.busy := rfl
@[simp] theorem reject_done (s : State) : (reject s).done = s.done := rfl
@[simp] theorem reject_collide (s : State) : (reject s).collide = true := rfl
@[simp] theorem reject_seeded (s : State) : (reject s).seeded = s.seeded := rfl
@[simp] theorem reject_fatal (s : State) : (reject s).fatal = s.fatal := rfl
@[simp] theorem reject_result (s : State) : (reject s).result = s.result := rfl
@[simp] theorem reject_lastOp (s : State) : (reject s).lastOp = s.lastOp := rfl
@[simp] theorem reject_cmdRaw (s : State) : (reject s).cmdRaw = s.cmdRaw := rfl
@[simp] theorem reject_pend (s : State) : (reject s).pend = s.pend := rfl
@[simp] theorem reject_seq (s : State) : (reject s).seq = s.seq := rfl
@[simp] theorem reject_latLen (s : State) : (reject s).latLen = s.latLen := rfl
@[simp] theorem reject_kdfSel (s : State) : (reject s).kdfSel = s.kdfSel := rfl
@[simp] theorem reject_skEnc (s : State) : (reject s).skEnc = s.skEnc := rfl
@[simp] theorem reject_skMac (s : State) : (reject s).skMac = s.skMac := rfl
@[simp] theorem reject_tagCalc (s : State) : (reject s).tagCalc = s.tagCalc := rfl
@[simp] theorem reject_diff (s : State) : (reject s).diff = s.diff := rfl
@[simp] theorem reject_cmpI (s : State) : (reject s).cmpI = s.cmpI := rfl
@[simp] theorem reject_prngState (s : State) : (reject s).prngState = s.prngState := rfl
@[simp] theorem reject_inBuf (s : State) : (reject s).inBuf = s.inBuf := rfl
@[simp] theorem reject_outBuf (s : State) : (reject s).outBuf = s.outBuf := rfl
@[simp] theorem reject_hist (s : State) : (reject s).hist = s.hist := rfl
@[simp] theorem reject_env (s : State) : (reject s).env = s.env := rfl

/-! ## finishStep -/

@[simp] theorem finishStep_key (s : State) : (finishStep s).key = s.key := rfl
@[simp] theorem finishStep_keyMask (s : State) : (finishStep s).keyMask = s.keyMask := rfl
@[simp] theorem finishStep_nonce (s : State) : (finishStep s).nonce = s.nonce := rfl
@[simp] theorem finishStep_nonceMask (s : State) : (finishStep s).nonceMask = s.nonceMask := rfl
@[simp] theorem finishStep_dataLen (s : State) : (finishStep s).dataLen = s.dataLen := rfl
@[simp] theorem finishStep_outLen (s : State) : (finishStep s).outLen = s.outLen := rfl
@[simp] theorem finishStep_ie (s : State) : (finishStep s).ie = s.ie := rfl
@[simp] theorem finishStep_busy (s : State) : (finishStep s).busy = false := rfl
@[simp] theorem finishStep_done (s : State) : (finishStep s).done = true := rfl
@[simp] theorem finishStep_collide (s : State) : (finishStep s).collide = s.collide := rfl
@[simp] theorem finishStep_seeded (s : State) : (finishStep s).seeded = s.seeded := rfl
@[simp] theorem finishStep_fatal (s : State) : (finishStep s).fatal = s.fatal := rfl
@[simp] theorem finishStep_result (s : State) : (finishStep s).result = s.pend := rfl
@[simp] theorem finishStep_lastOp (s : State) : (finishStep s).lastOp = s.lastOp := rfl
@[simp] theorem finishStep_cmdRaw (s : State) : (finishStep s).cmdRaw = s.cmdRaw := rfl
@[simp] theorem finishStep_pend (s : State) : (finishStep s).pend = s.pend := rfl
@[simp] theorem finishStep_seq (s : State) : (finishStep s).seq = .idle := rfl
@[simp] theorem finishStep_latLen (s : State) : (finishStep s).latLen = s.latLen := rfl
@[simp] theorem finishStep_kdfSel (s : State) : (finishStep s).kdfSel = s.kdfSel := rfl
@[simp] theorem finishStep_skEnc (s : State) : (finishStep s).skEnc = s.skEnc := rfl
@[simp] theorem finishStep_skMac (s : State) : (finishStep s).skMac = s.skMac := rfl
@[simp] theorem finishStep_tagCalc (s : State) : (finishStep s).tagCalc = s.tagCalc := rfl
@[simp] theorem finishStep_diff (s : State) : (finishStep s).diff = s.diff := rfl
@[simp] theorem finishStep_cmpI (s : State) : (finishStep s).cmpI = s.cmpI := rfl
@[simp] theorem finishStep_prngState (s : State) : (finishStep s).prngState = s.prngState := rfl
@[simp] theorem finishStep_inBuf (s : State) : (finishStep s).inBuf = s.inBuf := rfl
@[simp] theorem finishStep_outBuf (s : State) : (finishStep s).outBuf = s.outBuf := rfl
@[simp] theorem finishStep_hist (s : State) : (finishStep s).hist = s.hist ++ [.finish s.pend] := rfl
@[simp] theorem finishStep_env (s : State) : (finishStep s).env = s.env := rfl

/-! ## acknowledge -/

@[simp] theorem acknowledge_key (s : State) : (acknowledge s).key = s.key := rfl
@[simp] theorem acknowledge_keyMask (s : State) : (acknowledge s).keyMask = s.keyMask := rfl
@[simp] theorem acknowledge_nonce (s : State) : (acknowledge s).nonce = s.nonce := rfl
@[simp] theorem acknowledge_nonceMask (s : State) : (acknowledge s).nonceMask = s.nonceMask := rfl
@[simp] theorem acknowledge_dataLen (s : State) : (acknowledge s).dataLen = s.dataLen := rfl
@[simp] theorem acknowledge_outLen (s : State) : (acknowledge s).outLen = s.outLen := rfl
@[simp] theorem acknowledge_ie (s : State) : (acknowledge s).ie = s.ie := rfl
@[simp] theorem acknowledge_busy (s : State) : (acknowledge s).busy = s.busy := rfl
@[simp] theorem acknowledge_done (s : State) : (acknowledge s).done = false := rfl
@[simp] theorem acknowledge_collide (s : State) : (acknowledge s).collide = s.collide := rfl
@[simp] theorem acknowledge_seeded (s : State) : (acknowledge s).seeded = s.seeded := rfl
@[simp] theorem acknowledge_fatal (s : State) : (acknowledge s).fatal = s.fatal := rfl
@[simp] theorem acknowledge_result (s : State) : (acknowledge s).result = s.result := rfl
@[simp] theorem acknowledge_lastOp (s : State) : (acknowledge s).lastOp = s.lastOp := rfl
@[simp] theorem acknowledge_cmdRaw (s : State) : (acknowledge s).cmdRaw = s.cmdRaw := rfl
@[simp] theorem acknowledge_pend (s : State) : (acknowledge s).pend = s.pend := rfl
@[simp] theorem acknowledge_seq (s : State) : (acknowledge s).seq = s.seq := rfl
@[simp] theorem acknowledge_latLen (s : State) : (acknowledge s).latLen = s.latLen := rfl
@[simp] theorem acknowledge_kdfSel (s : State) : (acknowledge s).kdfSel = s.kdfSel := rfl
@[simp] theorem acknowledge_skEnc (s : State) : (acknowledge s).skEnc = s.skEnc := rfl
@[simp] theorem acknowledge_skMac (s : State) : (acknowledge s).skMac = s.skMac := rfl
@[simp] theorem acknowledge_tagCalc (s : State) : (acknowledge s).tagCalc = s.tagCalc := rfl
@[simp] theorem acknowledge_diff (s : State) : (acknowledge s).diff = s.diff := rfl
@[simp] theorem acknowledge_cmpI (s : State) : (acknowledge s).cmpI = s.cmpI := rfl
@[simp] theorem acknowledge_prngState (s : State) : (acknowledge s).prngState = s.prngState := rfl
@[simp] theorem acknowledge_inBuf (s : State) : (acknowledge s).inBuf = s.inBuf := rfl
@[simp] theorem acknowledge_outBuf (s : State) : (acknowledge s).outBuf = s.outBuf := rfl
@[simp] theorem acknowledge_hist (s : State) : (acknowledge s).hist = s.hist := rfl
@[simp] theorem acknowledge_env (s : State) : (acknowledge s).env = s.env := rfl

/-! ## clearCollide -/

@[simp] theorem clearCollide_key (s : State) : (clearCollide s).key = s.key := rfl
@[simp] theorem clearCollide_keyMask (s : State) : (clearCollide s).keyMask = s.keyMask := rfl
@[simp] theorem clearCollide_nonce (s : State) : (clearCollide s).nonce = s.nonce := rfl
@[simp] theorem clearCollide_nonceMask (s : State) : (clearCollide s).nonceMask = s.nonceMask := rfl
@[simp] theorem clearCollide_dataLen (s : State) : (clearCollide s).dataLen = s.dataLen := rfl
@[simp] theorem clearCollide_outLen (s : State) : (clearCollide s).outLen = s.outLen := rfl
@[simp] theorem clearCollide_ie (s : State) : (clearCollide s).ie = s.ie := rfl
@[simp] theorem clearCollide_busy (s : State) : (clearCollide s).busy = s.busy := rfl
@[simp] theorem clearCollide_done (s : State) : (clearCollide s).done = s.done := rfl
@[simp] theorem clearCollide_collide (s : State) : (clearCollide s).collide = false := rfl
@[simp] theorem clearCollide_seeded (s : State) : (clearCollide s).seeded = s.seeded := rfl
@[simp] theorem clearCollide_fatal (s : State) : (clearCollide s).fatal = s.fatal := rfl
@[simp] theorem clearCollide_result (s : State) : (clearCollide s).result = s.result := rfl
@[simp] theorem clearCollide_lastOp (s : State) : (clearCollide s).lastOp = s.lastOp := rfl
@[simp] theorem clearCollide_cmdRaw (s : State) : (clearCollide s).cmdRaw = s.cmdRaw := rfl
@[simp] theorem clearCollide_pend (s : State) : (clearCollide s).pend = s.pend := rfl
@[simp] theorem clearCollide_seq (s : State) : (clearCollide s).seq = s.seq := rfl
@[simp] theorem clearCollide_latLen (s : State) : (clearCollide s).latLen = s.latLen := rfl
@[simp] theorem clearCollide_kdfSel (s : State) : (clearCollide s).kdfSel = s.kdfSel := rfl
@[simp] theorem clearCollide_skEnc (s : State) : (clearCollide s).skEnc = s.skEnc := rfl
@[simp] theorem clearCollide_skMac (s : State) : (clearCollide s).skMac = s.skMac := rfl
@[simp] theorem clearCollide_tagCalc (s : State) : (clearCollide s).tagCalc = s.tagCalc := rfl
@[simp] theorem clearCollide_diff (s : State) : (clearCollide s).diff = s.diff := rfl
@[simp] theorem clearCollide_cmpI (s : State) : (clearCollide s).cmpI = s.cmpI := rfl
@[simp] theorem clearCollide_prngState (s : State) : (clearCollide s).prngState = s.prngState := rfl
@[simp] theorem clearCollide_inBuf (s : State) : (clearCollide s).inBuf = s.inBuf := rfl
@[simp] theorem clearCollide_outBuf (s : State) : (clearCollide s).outBuf = s.outBuf := rfl
@[simp] theorem clearCollide_hist (s : State) : (clearCollide s).hist = s.hist := rfl
@[simp] theorem clearCollide_env (s : State) : (clearCollide s).env = s.env := rfl

/-! ## answer -/

@[simp] theorem answer_key (r : Reply) (s : State) : (answer r s).key = s.key := rfl
@[simp] theorem answer_keyMask (r : Reply) (s : State) : (answer r s).keyMask = s.keyMask := rfl
@[simp] theorem answer_nonce (r : Reply) (s : State) : (answer r s).nonce = s.nonce := rfl
@[simp] theorem answer_nonceMask (r : Reply) (s : State) : (answer r s).nonceMask = s.nonceMask := rfl
@[simp] theorem answer_dataLen (r : Reply) (s : State) : (answer r s).dataLen = s.dataLen := rfl
@[simp] theorem answer_outLen (r : Reply) (s : State) : (answer r s).outLen = s.outLen := rfl
@[simp] theorem answer_ie (r : Reply) (s : State) : (answer r s).ie = s.ie := rfl
@[simp] theorem answer_busy (r : Reply) (s : State) : (answer r s).busy = s.busy := rfl
@[simp] theorem answer_done (r : Reply) (s : State) : (answer r s).done = s.done := rfl
@[simp] theorem answer_collide (r : Reply) (s : State) : (answer r s).collide = s.collide := rfl
@[simp] theorem answer_seeded (r : Reply) (s : State) : (answer r s).seeded = s.seeded := rfl
@[simp] theorem answer_fatal (r : Reply) (s : State) : (answer r s).fatal = s.fatal := rfl
@[simp] theorem answer_result (r : Reply) (s : State) : (answer r s).result = s.result := rfl
@[simp] theorem answer_lastOp (r : Reply) (s : State) : (answer r s).lastOp = s.lastOp := rfl
@[simp] theorem answer_cmdRaw (r : Reply) (s : State) : (answer r s).cmdRaw = s.cmdRaw := rfl
@[simp] theorem answer_pend (r : Reply) (s : State) : (answer r s).pend = s.pend := rfl
@[simp] theorem answer_seq (r : Reply) (s : State) : (answer r s).seq = s.seq := rfl
@[simp] theorem answer_latLen (r : Reply) (s : State) : (answer r s).latLen = s.latLen := rfl
@[simp] theorem answer_kdfSel (r : Reply) (s : State) : (answer r s).kdfSel = s.kdfSel := rfl
@[simp] theorem answer_skEnc (r : Reply) (s : State) : (answer r s).skEnc = s.skEnc := rfl
@[simp] theorem answer_skMac (r : Reply) (s : State) : (answer r s).skMac = s.skMac := rfl
@[simp] theorem answer_tagCalc (r : Reply) (s : State) : (answer r s).tagCalc = s.tagCalc := rfl
@[simp] theorem answer_diff (r : Reply) (s : State) : (answer r s).diff = s.diff := rfl
@[simp] theorem answer_cmpI (r : Reply) (s : State) : (answer r s).cmpI = s.cmpI := rfl
@[simp] theorem answer_prngState (r : Reply) (s : State) : (answer r s).prngState = s.prngState := rfl
@[simp] theorem answer_inBuf (r : Reply) (s : State) : (answer r s).inBuf = s.inBuf := rfl
@[simp] theorem answer_outBuf (r : Reply) (s : State) : (answer r s).outBuf = s.outBuf := rfl
@[simp] theorem answer_hist (r : Reply) (s : State) : (answer r s).hist = s.hist := rfl
@[simp] theorem answer_env (r : Reply) (s : State) : (answer r s).env = { s.env with reply := some r } := rfl

/-! ## resetBlock -/

@[simp] theorem resetBlock_key (s : State) : (resetBlock s).key = zero32 := rfl
@[simp] theorem resetBlock_keyMask (s : State) : (resetBlock s).keyMask = 0#8 := rfl
@[simp] theorem resetBlock_nonce (s : State) : (resetBlock s).nonce = zero32 := rfl
@[simp] theorem resetBlock_nonceMask (s : State) : (resetBlock s).nonceMask = 0#8 := rfl
@[simp] theorem resetBlock_dataLen (s : State) : (resetBlock s).dataLen = 0#64 := rfl
@[simp] theorem resetBlock_outLen (s : State) : (resetBlock s).outLen = 0#64 := rfl
@[simp] theorem resetBlock_ie (s : State) : (resetBlock s).ie = false := rfl
@[simp] theorem resetBlock_busy (s : State) : (resetBlock s).busy = false := rfl
@[simp] theorem resetBlock_done (s : State) : (resetBlock s).done = false := rfl
@[simp] theorem resetBlock_collide (s : State) : (resetBlock s).collide = false := rfl
@[simp] theorem resetBlock_seeded (s : State) : (resetBlock s).seeded = false := rfl
@[simp] theorem resetBlock_fatal (s : State) : (resetBlock s).fatal = false := rfl
@[simp] theorem resetBlock_result (s : State) : (resetBlock s).result = 0#4 := rfl
@[simp] theorem resetBlock_lastOp (s : State) : (resetBlock s).lastOp = 0#4 := rfl
@[simp] theorem resetBlock_cmdRaw (s : State) : (resetBlock s).cmdRaw = 0#32 := rfl
@[simp] theorem resetBlock_pend (s : State) : (resetBlock s).pend = 0#4 := rfl
@[simp] theorem resetBlock_seq (s : State) : (resetBlock s).seq = .idle := rfl
@[simp] theorem resetBlock_latLen (s : State) : (resetBlock s).latLen = 0#64 := rfl
@[simp] theorem resetBlock_kdfSel (s : State) : (resetBlock s).kdfSel = .enc := rfl
@[simp] theorem resetBlock_skEnc (s : State) : (resetBlock s).skEnc = zero32 := rfl
@[simp] theorem resetBlock_skMac (s : State) : (resetBlock s).skMac = zero32 := rfl
@[simp] theorem resetBlock_tagCalc (s : State) : (resetBlock s).tagCalc = zero32 := rfl
@[simp] theorem resetBlock_diff (s : State) : (resetBlock s).diff = 0#8 := rfl
@[simp] theorem resetBlock_cmpI (s : State) : (resetBlock s).cmpI = 0 := rfl
@[simp] theorem resetBlock_prngState (s : State) : (resetBlock s).prngState = none := rfl
@[simp] theorem resetBlock_inBuf (s : State) : (resetBlock s).inBuf = [] := rfl
@[simp] theorem resetBlock_outBuf (s : State) : (resetBlock s).outBuf = [] := rfl
@[simp] theorem resetBlock_hist (s : State) : (resetBlock s).hist = [] := rfl
@[simp] theorem resetBlock_env (s : State) : (resetBlock s).env = s.env := rfl

/-! ## writeKeyWord -/

@[simp] theorem writeKeyWord_key (i : Fin 8) (d : Word) (s : State) : (writeKeyWord i d s).key = setBlockWord s.key i d := rfl
@[simp] theorem writeKeyWord_keyMask (i : Fin 8) (d : Word) (s : State) : (writeKeyWord i d s).keyMask = markWord s.keyMask i := rfl
@[simp] theorem writeKeyWord_nonce (i : Fin 8) (d : Word) (s : State) : (writeKeyWord i d s).nonce = s.nonce := rfl
@[simp] theorem writeKeyWord_nonceMask (i : Fin 8) (d : Word) (s : State) : (writeKeyWord i d s).nonceMask = s.nonceMask := rfl
@[simp] theorem writeKeyWord_dataLen (i : Fin 8) (d : Word) (s : State) : (writeKeyWord i d s).dataLen = s.dataLen := rfl
@[simp] theorem writeKeyWord_outLen (i : Fin 8) (d : Word) (s : State) : (writeKeyWord i d s).outLen = s.outLen := rfl
@[simp] theorem writeKeyWord_ie (i : Fin 8) (d : Word) (s : State) : (writeKeyWord i d s).ie = s.ie := rfl
@[simp] theorem writeKeyWord_busy (i : Fin 8) (d : Word) (s : State) : (writeKeyWord i d s).busy = s.busy := rfl
@[simp] theorem writeKeyWord_done (i : Fin 8) (d : Word) (s : State) : (writeKeyWord i d s).done = s.done := rfl
@[simp] theorem writeKeyWord_collide (i : Fin 8) (d : Word) (s : State) : (writeKeyWord i d s).collide = s.collide := rfl
@[simp] theorem writeKeyWord_seeded (i : Fin 8) (d : Word) (s : State) : (writeKeyWord i d s).seeded = s.seeded := rfl
@[simp] theorem writeKeyWord_fatal (i : Fin 8) (d : Word) (s : State) : (writeKeyWord i d s).fatal = s.fatal := rfl
@[simp] theorem writeKeyWord_result (i : Fin 8) (d : Word) (s : State) : (writeKeyWord i d s).result = s.result := rfl
@[simp] theorem writeKeyWord_lastOp (i : Fin 8) (d : Word) (s : State) : (writeKeyWord i d s).lastOp = s.lastOp := rfl
@[simp] theorem writeKeyWord_cmdRaw (i : Fin 8) (d : Word) (s : State) : (writeKeyWord i d s).cmdRaw = s.cmdRaw := rfl
@[simp] theorem writeKeyWord_pend (i : Fin 8) (d : Word) (s : State) : (writeKeyWord i d s).pend = s.pend := rfl
@[simp] theorem writeKeyWord_seq (i : Fin 8) (d : Word) (s : State) : (writeKeyWord i d s).seq = s.seq := rfl
@[simp] theorem writeKeyWord_latLen (i : Fin 8) (d : Word) (s : State) : (writeKeyWord i d s).latLen = s.latLen := rfl
@[simp] theorem writeKeyWord_kdfSel (i : Fin 8) (d : Word) (s : State) : (writeKeyWord i d s).kdfSel = s.kdfSel := rfl
@[simp] theorem writeKeyWord_skEnc (i : Fin 8) (d : Word) (s : State) : (writeKeyWord i d s).skEnc = s.skEnc := rfl
@[simp] theorem writeKeyWord_skMac (i : Fin 8) (d : Word) (s : State) : (writeKeyWord i d s).skMac = s.skMac := rfl
@[simp] theorem writeKeyWord_tagCalc (i : Fin 8) (d : Word) (s : State) : (writeKeyWord i d s).tagCalc = s.tagCalc := rfl
@[simp] theorem writeKeyWord_diff (i : Fin 8) (d : Word) (s : State) : (writeKeyWord i d s).diff = s.diff := rfl
@[simp] theorem writeKeyWord_cmpI (i : Fin 8) (d : Word) (s : State) : (writeKeyWord i d s).cmpI = s.cmpI := rfl
@[simp] theorem writeKeyWord_prngState (i : Fin 8) (d : Word) (s : State) : (writeKeyWord i d s).prngState = s.prngState := rfl
@[simp] theorem writeKeyWord_inBuf (i : Fin 8) (d : Word) (s : State) : (writeKeyWord i d s).inBuf = s.inBuf := rfl
@[simp] theorem writeKeyWord_outBuf (i : Fin 8) (d : Word) (s : State) : (writeKeyWord i d s).outBuf = s.outBuf := rfl
@[simp] theorem writeKeyWord_hist (i : Fin 8) (d : Word) (s : State) : (writeKeyWord i d s).hist = s.hist := rfl
@[simp] theorem writeKeyWord_env (i : Fin 8) (d : Word) (s : State) : (writeKeyWord i d s).env = s.env := rfl

/-! ## writeNonceWord -/

@[simp] theorem writeNonceWord_key (i : Fin 8) (d : Word) (s : State) : (writeNonceWord i d s).key = s.key := rfl
@[simp] theorem writeNonceWord_keyMask (i : Fin 8) (d : Word) (s : State) : (writeNonceWord i d s).keyMask = s.keyMask := rfl
@[simp] theorem writeNonceWord_nonce (i : Fin 8) (d : Word) (s : State) : (writeNonceWord i d s).nonce = setBlockWord s.nonce i d := rfl
@[simp] theorem writeNonceWord_nonceMask (i : Fin 8) (d : Word) (s : State) : (writeNonceWord i d s).nonceMask = markWord s.nonceMask i := rfl
@[simp] theorem writeNonceWord_dataLen (i : Fin 8) (d : Word) (s : State) : (writeNonceWord i d s).dataLen = s.dataLen := rfl
@[simp] theorem writeNonceWord_outLen (i : Fin 8) (d : Word) (s : State) : (writeNonceWord i d s).outLen = s.outLen := rfl
@[simp] theorem writeNonceWord_ie (i : Fin 8) (d : Word) (s : State) : (writeNonceWord i d s).ie = s.ie := rfl
@[simp] theorem writeNonceWord_busy (i : Fin 8) (d : Word) (s : State) : (writeNonceWord i d s).busy = s.busy := rfl
@[simp] theorem writeNonceWord_done (i : Fin 8) (d : Word) (s : State) : (writeNonceWord i d s).done = s.done := rfl
@[simp] theorem writeNonceWord_collide (i : Fin 8) (d : Word) (s : State) : (writeNonceWord i d s).collide = s.collide := rfl
@[simp] theorem writeNonceWord_seeded (i : Fin 8) (d : Word) (s : State) : (writeNonceWord i d s).seeded = s.seeded := rfl
@[simp] theorem writeNonceWord_fatal (i : Fin 8) (d : Word) (s : State) : (writeNonceWord i d s).fatal = s.fatal := rfl
@[simp] theorem writeNonceWord_result (i : Fin 8) (d : Word) (s : State) : (writeNonceWord i d s).result = s.result := rfl
@[simp] theorem writeNonceWord_lastOp (i : Fin 8) (d : Word) (s : State) : (writeNonceWord i d s).lastOp = s.lastOp := rfl
@[simp] theorem writeNonceWord_cmdRaw (i : Fin 8) (d : Word) (s : State) : (writeNonceWord i d s).cmdRaw = s.cmdRaw := rfl
@[simp] theorem writeNonceWord_pend (i : Fin 8) (d : Word) (s : State) : (writeNonceWord i d s).pend = s.pend := rfl
@[simp] theorem writeNonceWord_seq (i : Fin 8) (d : Word) (s : State) : (writeNonceWord i d s).seq = s.seq := rfl
@[simp] theorem writeNonceWord_latLen (i : Fin 8) (d : Word) (s : State) : (writeNonceWord i d s).latLen = s.latLen := rfl
@[simp] theorem writeNonceWord_kdfSel (i : Fin 8) (d : Word) (s : State) : (writeNonceWord i d s).kdfSel = s.kdfSel := rfl
@[simp] theorem writeNonceWord_skEnc (i : Fin 8) (d : Word) (s : State) : (writeNonceWord i d s).skEnc = s.skEnc := rfl
@[simp] theorem writeNonceWord_skMac (i : Fin 8) (d : Word) (s : State) : (writeNonceWord i d s).skMac = s.skMac := rfl
@[simp] theorem writeNonceWord_tagCalc (i : Fin 8) (d : Word) (s : State) : (writeNonceWord i d s).tagCalc = s.tagCalc := rfl
@[simp] theorem writeNonceWord_diff (i : Fin 8) (d : Word) (s : State) : (writeNonceWord i d s).diff = s.diff := rfl
@[simp] theorem writeNonceWord_cmpI (i : Fin 8) (d : Word) (s : State) : (writeNonceWord i d s).cmpI = s.cmpI := rfl
@[simp] theorem writeNonceWord_prngState (i : Fin 8) (d : Word) (s : State) : (writeNonceWord i d s).prngState = s.prngState := rfl
@[simp] theorem writeNonceWord_inBuf (i : Fin 8) (d : Word) (s : State) : (writeNonceWord i d s).inBuf = s.inBuf := rfl
@[simp] theorem writeNonceWord_outBuf (i : Fin 8) (d : Word) (s : State) : (writeNonceWord i d s).outBuf = s.outBuf := rfl
@[simp] theorem writeNonceWord_hist (i : Fin 8) (d : Word) (s : State) : (writeNonceWord i d s).hist = s.hist := rfl
@[simp] theorem writeNonceWord_env (i : Fin 8) (d : Word) (s : State) : (writeNonceWord i d s).env = s.env := rfl

/-! ## writeCtrl -/

@[simp] theorem writeCtrl_key (d : Word) (s : State) : (writeCtrl d s).key = s.key := rfl
@[simp] theorem writeCtrl_keyMask (d : Word) (s : State) : (writeCtrl d s).keyMask = s.keyMask := rfl
@[simp] theorem writeCtrl_nonce (d : Word) (s : State) : (writeCtrl d s).nonce = s.nonce := rfl
@[simp] theorem writeCtrl_nonceMask (d : Word) (s : State) : (writeCtrl d s).nonceMask = s.nonceMask := rfl
@[simp] theorem writeCtrl_dataLen (d : Word) (s : State) : (writeCtrl d s).dataLen = s.dataLen := rfl
@[simp] theorem writeCtrl_outLen (d : Word) (s : State) : (writeCtrl d s).outLen = s.outLen := rfl
@[simp] theorem writeCtrl_ie (d : Word) (s : State) : (writeCtrl d s).ie = d.getLsbD 0 := rfl
@[simp] theorem writeCtrl_busy (d : Word) (s : State) : (writeCtrl d s).busy = s.busy := rfl
@[simp] theorem writeCtrl_done (d : Word) (s : State) : (writeCtrl d s).done = s.done := rfl
@[simp] theorem writeCtrl_collide (d : Word) (s : State) : (writeCtrl d s).collide = s.collide := rfl
@[simp] theorem writeCtrl_seeded (d : Word) (s : State) : (writeCtrl d s).seeded = s.seeded := rfl
@[simp] theorem writeCtrl_fatal (d : Word) (s : State) : (writeCtrl d s).fatal = s.fatal := rfl
@[simp] theorem writeCtrl_result (d : Word) (s : State) : (writeCtrl d s).result = s.result := rfl
@[simp] theorem writeCtrl_lastOp (d : Word) (s : State) : (writeCtrl d s).lastOp = s.lastOp := rfl
@[simp] theorem writeCtrl_cmdRaw (d : Word) (s : State) : (writeCtrl d s).cmdRaw = s.cmdRaw := rfl
@[simp] theorem writeCtrl_pend (d : Word) (s : State) : (writeCtrl d s).pend = s.pend := rfl
@[simp] theorem writeCtrl_seq (d : Word) (s : State) : (writeCtrl d s).seq = s.seq := rfl
@[simp] theorem writeCtrl_latLen (d : Word) (s : State) : (writeCtrl d s).latLen = s.latLen := rfl
@[simp] theorem writeCtrl_kdfSel (d : Word) (s : State) : (writeCtrl d s).kdfSel = s.kdfSel := rfl
@[simp] theorem writeCtrl_skEnc (d : Word) (s : State) : (writeCtrl d s).skEnc = s.skEnc := rfl
@[simp] theorem writeCtrl_skMac (d : Word) (s : State) : (writeCtrl d s).skMac = s.skMac := rfl
@[simp] theorem writeCtrl_tagCalc (d : Word) (s : State) : (writeCtrl d s).tagCalc = s.tagCalc := rfl
@[simp] theorem writeCtrl_diff (d : Word) (s : State) : (writeCtrl d s).diff = s.diff := rfl
@[simp] theorem writeCtrl_cmpI (d : Word) (s : State) : (writeCtrl d s).cmpI = s.cmpI := rfl
@[simp] theorem writeCtrl_prngState (d : Word) (s : State) : (writeCtrl d s).prngState = s.prngState := rfl
@[simp] theorem writeCtrl_inBuf (d : Word) (s : State) : (writeCtrl d s).inBuf = s.inBuf := rfl
@[simp] theorem writeCtrl_outBuf (d : Word) (s : State) : (writeCtrl d s).outBuf = s.outBuf := rfl
@[simp] theorem writeCtrl_hist (d : Word) (s : State) : (writeCtrl d s).hist = s.hist := rfl
@[simp] theorem writeCtrl_env (d : Word) (s : State) : (writeCtrl d s).env = s.env := rfl

/-! ## kdfEncStep -/

@[simp] theorem kdfEncStep_key (cfg : Config) (s : State) : (kdfEncStep cfg s).key = s.key := rfl
@[simp] theorem kdfEncStep_keyMask (cfg : Config) (s : State) : (kdfEncStep cfg s).keyMask = s.keyMask := rfl
@[simp] theorem kdfEncStep_nonce (cfg : Config) (s : State) : (kdfEncStep cfg s).nonce = s.nonce := rfl
@[simp] theorem kdfEncStep_nonceMask (cfg : Config) (s : State) : (kdfEncStep cfg s).nonceMask = s.nonceMask := rfl
@[simp] theorem kdfEncStep_dataLen (cfg : Config) (s : State) : (kdfEncStep cfg s).dataLen = s.dataLen := rfl
@[simp] theorem kdfEncStep_outLen (cfg : Config) (s : State) : (kdfEncStep cfg s).outLen = s.outLen := rfl
@[simp] theorem kdfEncStep_ie (cfg : Config) (s : State) : (kdfEncStep cfg s).ie = s.ie := rfl
@[simp] theorem kdfEncStep_busy (cfg : Config) (s : State) : (kdfEncStep cfg s).busy = s.busy := rfl
@[simp] theorem kdfEncStep_done (cfg : Config) (s : State) : (kdfEncStep cfg s).done = s.done := rfl
@[simp] theorem kdfEncStep_collide (cfg : Config) (s : State) : (kdfEncStep cfg s).collide = s.collide := rfl
@[simp] theorem kdfEncStep_seeded (cfg : Config) (s : State) : (kdfEncStep cfg s).seeded = s.seeded := rfl
@[simp] theorem kdfEncStep_fatal (cfg : Config) (s : State) : (kdfEncStep cfg s).fatal = s.fatal := rfl
@[simp] theorem kdfEncStep_result (cfg : Config) (s : State) : (kdfEncStep cfg s).result = s.result := rfl
@[simp] theorem kdfEncStep_lastOp (cfg : Config) (s : State) : (kdfEncStep cfg s).lastOp = s.lastOp := rfl
@[simp] theorem kdfEncStep_cmdRaw (cfg : Config) (s : State) : (kdfEncStep cfg s).cmdRaw = s.cmdRaw := rfl
@[simp] theorem kdfEncStep_pend (cfg : Config) (s : State) : (kdfEncStep cfg s).pend = s.pend := rfl
@[simp] theorem kdfEncStep_seq (cfg : Config) (s : State) : (kdfEncStep cfg s).seq = .kdfMac := rfl
@[simp] theorem kdfEncStep_latLen (cfg : Config) (s : State) : (kdfEncStep cfg s).latLen = s.latLen := rfl
@[simp] theorem kdfEncStep_kdfSel (cfg : Config) (s : State) : (kdfEncStep cfg s).kdfSel = .enc := rfl
@[simp] theorem kdfEncStep_skEnc (cfg : Config) (s : State) : (kdfEncStep cfg s).skEnc = cfg.kdf s.key cfg.labelEnc := rfl
@[simp] theorem kdfEncStep_skMac (cfg : Config) (s : State) : (kdfEncStep cfg s).skMac = s.skMac := rfl
@[simp] theorem kdfEncStep_tagCalc (cfg : Config) (s : State) : (kdfEncStep cfg s).tagCalc = s.tagCalc := rfl
@[simp] theorem kdfEncStep_diff (cfg : Config) (s : State) : (kdfEncStep cfg s).diff = s.diff := rfl
@[simp] theorem kdfEncStep_cmpI (cfg : Config) (s : State) : (kdfEncStep cfg s).cmpI = s.cmpI := rfl
@[simp] theorem kdfEncStep_prngState (cfg : Config) (s : State) : (kdfEncStep cfg s).prngState = s.prngState := rfl
@[simp] theorem kdfEncStep_inBuf (cfg : Config) (s : State) : (kdfEncStep cfg s).inBuf = s.inBuf := rfl
@[simp] theorem kdfEncStep_outBuf (cfg : Config) (s : State) : (kdfEncStep cfg s).outBuf = s.outBuf := rfl
@[simp] theorem kdfEncStep_hist (cfg : Config) (s : State) : (kdfEncStep cfg s).hist = s.hist ++ [.kdf .enc] := rfl
@[simp] theorem kdfEncStep_env (cfg : Config) (s : State) : (kdfEncStep cfg s).env = s.env := rfl

/-! ## kdfMacStep -/

@[simp] theorem kdfMacStep_key (cfg : Config) (s : State) : (kdfMacStep cfg s).key = s.key := rfl
@[simp] theorem kdfMacStep_keyMask (cfg : Config) (s : State) : (kdfMacStep cfg s).keyMask = s.keyMask := rfl
@[simp] theorem kdfMacStep_nonce (cfg : Config) (s : State) : (kdfMacStep cfg s).nonce = s.nonce := rfl
@[simp] theorem kdfMacStep_nonceMask (cfg : Config) (s : State) : (kdfMacStep cfg s).nonceMask = s.nonceMask := rfl
@[simp] theorem kdfMacStep_dataLen (cfg : Config) (s : State) : (kdfMacStep cfg s).dataLen = s.dataLen := rfl
@[simp] theorem kdfMacStep_outLen (cfg : Config) (s : State) : (kdfMacStep cfg s).outLen = s.outLen := rfl
@[simp] theorem kdfMacStep_ie (cfg : Config) (s : State) : (kdfMacStep cfg s).ie = s.ie := rfl
@[simp] theorem kdfMacStep_busy (cfg : Config) (s : State) : (kdfMacStep cfg s).busy = s.busy := rfl
@[simp] theorem kdfMacStep_done (cfg : Config) (s : State) : (kdfMacStep cfg s).done = s.done := rfl
@[simp] theorem kdfMacStep_collide (cfg : Config) (s : State) : (kdfMacStep cfg s).collide = s.collide := rfl
@[simp] theorem kdfMacStep_seeded (cfg : Config) (s : State) : (kdfMacStep cfg s).seeded = s.seeded := rfl
@[simp] theorem kdfMacStep_fatal (cfg : Config) (s : State) : (kdfMacStep cfg s).fatal = s.fatal := rfl
@[simp] theorem kdfMacStep_result (cfg : Config) (s : State) : (kdfMacStep cfg s).result = s.result := rfl
@[simp] theorem kdfMacStep_lastOp (cfg : Config) (s : State) : (kdfMacStep cfg s).lastOp = s.lastOp := rfl
@[simp] theorem kdfMacStep_cmdRaw (cfg : Config) (s : State) : (kdfMacStep cfg s).cmdRaw = s.cmdRaw := rfl
@[simp] theorem kdfMacStep_pend (cfg : Config) (s : State) : (kdfMacStep cfg s).pend = s.pend := rfl
@[simp] theorem kdfMacStep_seq (cfg : Config) (s : State) : (kdfMacStep cfg s).seq = if opcodeField s.cmdRaw = 0x4#4 then .macChk else .senc := rfl
@[simp] theorem kdfMacStep_latLen (cfg : Config) (s : State) : (kdfMacStep cfg s).latLen = s.latLen := rfl
@[simp] theorem kdfMacStep_kdfSel (cfg : Config) (s : State) : (kdfMacStep cfg s).kdfSel = .mac := rfl
@[simp] theorem kdfMacStep_skEnc (cfg : Config) (s : State) : (kdfMacStep cfg s).skEnc = s.skEnc := rfl
@[simp] theorem kdfMacStep_skMac (cfg : Config) (s : State) : (kdfMacStep cfg s).skMac = cfg.kdf s.key cfg.labelMac := rfl
@[simp] theorem kdfMacStep_tagCalc (cfg : Config) (s : State) : (kdfMacStep cfg s).tagCalc = s.tagCalc := rfl
@[simp] theorem kdfMacStep_diff (cfg : Config) (s : State) : (kdfMacStep cfg s).diff = s.diff := rfl
@[simp] theorem kdfMacStep_cmpI (cfg : Config) (s : State) : (kdfMacStep cfg s).cmpI = s.cmpI := rfl
@[simp] theorem kdfMacStep_prngState (cfg : Config) (s : State) : (kdfMacStep cfg s).prngState = s.prngState := rfl
@[simp] theorem kdfMacStep_inBuf (cfg : Config) (s : State) : (kdfMacStep cfg s).inBuf = s.inBuf := rfl
@[simp] theorem kdfMacStep_outBuf (cfg : Config) (s : State) : (kdfMacStep cfg s).outBuf = s.outBuf := rfl
@[simp] theorem kdfMacStep_hist (cfg : Config) (s : State) : (kdfMacStep cfg s).hist = s.hist ++ [.kdf .mac] := rfl
@[simp] theorem kdfMacStep_env (cfg : Config) (s : State) : (kdfMacStep cfg s).env = s.env := rfl

/-! ## seedFailed -/

@[simp] theorem seedFailed_key (s : State) : (seedFailed s).key = s.key := rfl
@[simp] theorem seedFailed_keyMask (s : State) : (seedFailed s).keyMask = s.keyMask := rfl
@[simp] theorem seedFailed_nonce (s : State) : (seedFailed s).nonce = s.nonce := rfl
@[simp] theorem seedFailed_nonceMask (s : State) : (seedFailed s).nonceMask = s.nonceMask := rfl
@[simp] theorem seedFailed_dataLen (s : State) : (seedFailed s).dataLen = s.dataLen := rfl
@[simp] theorem seedFailed_outLen (s : State) : (seedFailed s).outLen = s.outLen := rfl
@[simp] theorem seedFailed_ie (s : State) : (seedFailed s).ie = s.ie := rfl
@[simp] theorem seedFailed_busy (s : State) : (seedFailed s).busy = s.busy := rfl
@[simp] theorem seedFailed_done (s : State) : (seedFailed s).done = s.done := rfl
@[simp] theorem seedFailed_collide (s : State) : (seedFailed s).collide = s.collide := rfl
@[simp] theorem seedFailed_seeded (s : State) : (seedFailed s).seeded = s.seeded := rfl
@[simp] theorem seedFailed_fatal (s : State) : (seedFailed s).fatal = true := rfl
@[simp] theorem seedFailed_result (s : State) : (seedFailed s).result = s.result := rfl
@[simp] theorem seedFailed_lastOp (s : State) : (seedFailed s).lastOp = s.lastOp := rfl
@[simp] theorem seedFailed_cmdRaw (s : State) : (seedFailed s).cmdRaw = s.cmdRaw := rfl
@[simp] theorem seedFailed_pend (s : State) : (seedFailed s).pend = codeOf .entropyFail := rfl
@[simp] theorem seedFailed_seq (s : State) : (seedFailed s).seq = .finish := rfl
@[simp] theorem seedFailed_latLen (s : State) : (seedFailed s).latLen = s.latLen := rfl
@[simp] theorem seedFailed_kdfSel (s : State) : (seedFailed s).kdfSel = s.kdfSel := rfl
@[simp] theorem seedFailed_skEnc (s : State) : (seedFailed s).skEnc = s.skEnc := rfl
@[simp] theorem seedFailed_skMac (s : State) : (seedFailed s).skMac = s.skMac := rfl
@[simp] theorem seedFailed_tagCalc (s : State) : (seedFailed s).tagCalc = s.tagCalc := rfl
@[simp] theorem seedFailed_diff (s : State) : (seedFailed s).diff = s.diff := rfl
@[simp] theorem seedFailed_cmpI (s : State) : (seedFailed s).cmpI = s.cmpI := rfl
@[simp] theorem seedFailed_prngState (s : State) : (seedFailed s).prngState = s.prngState := rfl
@[simp] theorem seedFailed_inBuf (s : State) : (seedFailed s).inBuf = s.inBuf := rfl
@[simp] theorem seedFailed_outBuf (s : State) : (seedFailed s).outBuf = s.outBuf := rfl
@[simp] theorem seedFailed_hist (s : State) : (seedFailed s).hist = s.hist ++ [.entropy false] := rfl
@[simp] theorem seedFailed_env (s : State) : (seedFailed s).env = s.env := rfl

/-! ## seedDone -/

@[simp] theorem seedDone_key (seed : Bytes) (s : State) : (seedDone seed s).key = s.key := rfl
@[simp] theorem seedDone_keyMask (seed : Bytes) (s : State) : (seedDone seed s).keyMask = s.keyMask := rfl
@[simp] theorem seedDone_nonce (seed : Bytes) (s : State) : (seedDone seed s).nonce = s.nonce := rfl
@[simp] theorem seedDone_nonceMask (seed : Bytes) (s : State) : (seedDone seed s).nonceMask = s.nonceMask := rfl
@[simp] theorem seedDone_dataLen (seed : Bytes) (s : State) : (seedDone seed s).dataLen = s.dataLen := rfl
@[simp] theorem seedDone_outLen (seed : Bytes) (s : State) : (seedDone seed s).outLen = s.outLen := rfl
@[simp] theorem seedDone_ie (seed : Bytes) (s : State) : (seedDone seed s).ie = s.ie := rfl
@[simp] theorem seedDone_busy (seed : Bytes) (s : State) : (seedDone seed s).busy = s.busy := rfl
@[simp] theorem seedDone_done (seed : Bytes) (s : State) : (seedDone seed s).done = s.done := rfl
@[simp] theorem seedDone_collide (seed : Bytes) (s : State) : (seedDone seed s).collide = s.collide := rfl
@[simp] theorem seedDone_seeded (seed : Bytes) (s : State) : (seedDone seed s).seeded = true := rfl
@[simp] theorem seedDone_fatal (seed : Bytes) (s : State) : (seedDone seed s).fatal = s.fatal := rfl
@[simp] theorem seedDone_result (seed : Bytes) (s : State) : (seedDone seed s).result = s.result := rfl
@[simp] theorem seedDone_lastOp (seed : Bytes) (s : State) : (seedDone seed s).lastOp = s.lastOp := rfl
@[simp] theorem seedDone_cmdRaw (seed : Bytes) (s : State) : (seedDone seed s).cmdRaw = s.cmdRaw := rfl
@[simp] theorem seedDone_pend (seed : Bytes) (s : State) : (seedDone seed s).pend = s.pend := rfl
@[simp] theorem seedDone_seq (seed : Bytes) (s : State) : (seedDone seed s).seq = if opcodeField s.cmdRaw = 0x6#4 then .finish else .draw := rfl
@[simp] theorem seedDone_latLen (seed : Bytes) (s : State) : (seedDone seed s).latLen = s.latLen := rfl
@[simp] theorem seedDone_kdfSel (seed : Bytes) (s : State) : (seedDone seed s).kdfSel = s.kdfSel := rfl
@[simp] theorem seedDone_skEnc (seed : Bytes) (s : State) : (seedDone seed s).skEnc = s.skEnc := rfl
@[simp] theorem seedDone_skMac (seed : Bytes) (s : State) : (seedDone seed s).skMac = s.skMac := rfl
@[simp] theorem seedDone_tagCalc (seed : Bytes) (s : State) : (seedDone seed s).tagCalc = s.tagCalc := rfl
@[simp] theorem seedDone_diff (seed : Bytes) (s : State) : (seedDone seed s).diff = s.diff := rfl
@[simp] theorem seedDone_cmpI (seed : Bytes) (s : State) : (seedDone seed s).cmpI = s.cmpI := rfl
@[simp] theorem seedDone_prngState (seed : Bytes) (s : State) : (seedDone seed s).prngState = some (seededOrigin seed) := rfl
@[simp] theorem seedDone_inBuf (seed : Bytes) (s : State) : (seedDone seed s).inBuf = s.inBuf := rfl
@[simp] theorem seedDone_outBuf (seed : Bytes) (s : State) : (seedDone seed s).outBuf = s.outBuf := rfl
@[simp] theorem seedDone_hist (seed : Bytes) (s : State) : (seedDone seed s).hist = s.hist ++ [.entropy true] := rfl
@[simp] theorem seedDone_env (seed : Bytes) (s : State) : (seedDone seed s).env = s.env := rfl

/-! ## wipeSecrets -/

@[simp] theorem wipeSecrets_key (s : State) : (wipeSecrets s).key = s.key := rfl
@[simp] theorem wipeSecrets_keyMask (s : State) : (wipeSecrets s).keyMask = s.keyMask := rfl
@[simp] theorem wipeSecrets_nonce (s : State) : (wipeSecrets s).nonce = s.nonce := rfl
@[simp] theorem wipeSecrets_nonceMask (s : State) : (wipeSecrets s).nonceMask = s.nonceMask := rfl
@[simp] theorem wipeSecrets_dataLen (s : State) : (wipeSecrets s).dataLen = s.dataLen := rfl
@[simp] theorem wipeSecrets_outLen (s : State) : (wipeSecrets s).outLen = s.outLen := rfl
@[simp] theorem wipeSecrets_ie (s : State) : (wipeSecrets s).ie = s.ie := rfl
@[simp] theorem wipeSecrets_busy (s : State) : (wipeSecrets s).busy = s.busy := rfl
@[simp] theorem wipeSecrets_done (s : State) : (wipeSecrets s).done = s.done := rfl
@[simp] theorem wipeSecrets_collide (s : State) : (wipeSecrets s).collide = s.collide := rfl
@[simp] theorem wipeSecrets_seeded (s : State) : (wipeSecrets s).seeded = s.seeded := rfl
@[simp] theorem wipeSecrets_fatal (s : State) : (wipeSecrets s).fatal = s.fatal := rfl
@[simp] theorem wipeSecrets_result (s : State) : (wipeSecrets s).result = s.result := rfl
@[simp] theorem wipeSecrets_lastOp (s : State) : (wipeSecrets s).lastOp = s.lastOp := rfl
@[simp] theorem wipeSecrets_cmdRaw (s : State) : (wipeSecrets s).cmdRaw = s.cmdRaw := rfl
@[simp] theorem wipeSecrets_pend (s : State) : (wipeSecrets s).pend = s.pend := rfl
@[simp] theorem wipeSecrets_seq (s : State) : (wipeSecrets s).seq = s.seq := rfl
@[simp] theorem wipeSecrets_latLen (s : State) : (wipeSecrets s).latLen = s.latLen := rfl
@[simp] theorem wipeSecrets_kdfSel (s : State) : (wipeSecrets s).kdfSel = .enc := rfl
@[simp] theorem wipeSecrets_skEnc (s : State) : (wipeSecrets s).skEnc = zero32 := rfl
@[simp] theorem wipeSecrets_skMac (s : State) : (wipeSecrets s).skMac = zero32 := rfl
@[simp] theorem wipeSecrets_tagCalc (s : State) : (wipeSecrets s).tagCalc = zero32 := rfl
@[simp] theorem wipeSecrets_diff (s : State) : (wipeSecrets s).diff = 0#8 := rfl
@[simp] theorem wipeSecrets_cmpI (s : State) : (wipeSecrets s).cmpI = 0 := rfl
@[simp] theorem wipeSecrets_prngState (s : State) : (wipeSecrets s).prngState = s.prngState := rfl
@[simp] theorem wipeSecrets_inBuf (s : State) : (wipeSecrets s).inBuf = s.inBuf := rfl
@[simp] theorem wipeSecrets_outBuf (s : State) : (wipeSecrets s).outBuf = s.outBuf := rfl
@[simp] theorem wipeSecrets_hist (s : State) : (wipeSecrets s).hist = s.hist := rfl
@[simp] theorem wipeSecrets_env (s : State) : (wipeSecrets s).env = s.env := rfl

/-! ## wipeStep -/

@[simp] theorem wipeStep_key (s : State) : (wipeStep s).key = s.key := rfl
@[simp] theorem wipeStep_keyMask (s : State) : (wipeStep s).keyMask = s.keyMask := rfl
@[simp] theorem wipeStep_nonce (s : State) : (wipeStep s).nonce = s.nonce := rfl
@[simp] theorem wipeStep_nonceMask (s : State) : (wipeStep s).nonceMask = s.nonceMask := rfl
@[simp] theorem wipeStep_dataLen (s : State) : (wipeStep s).dataLen = s.dataLen := rfl
@[simp] theorem wipeStep_outLen (s : State) : (wipeStep s).outLen = s.outLen := rfl
@[simp] theorem wipeStep_ie (s : State) : (wipeStep s).ie = s.ie := rfl
@[simp] theorem wipeStep_busy (s : State) : (wipeStep s).busy = s.busy := rfl
@[simp] theorem wipeStep_done (s : State) : (wipeStep s).done = s.done := rfl
@[simp] theorem wipeStep_collide (s : State) : (wipeStep s).collide = s.collide := rfl
@[simp] theorem wipeStep_seeded (s : State) : (wipeStep s).seeded = s.seeded := rfl
@[simp] theorem wipeStep_fatal (s : State) : (wipeStep s).fatal = s.fatal := rfl
@[simp] theorem wipeStep_result (s : State) : (wipeStep s).result = s.result := rfl
@[simp] theorem wipeStep_lastOp (s : State) : (wipeStep s).lastOp = s.lastOp := rfl
@[simp] theorem wipeStep_cmdRaw (s : State) : (wipeStep s).cmdRaw = s.cmdRaw := rfl
@[simp] theorem wipeStep_pend (s : State) : (wipeStep s).pend = s.pend := rfl
@[simp] theorem wipeStep_seq (s : State) : (wipeStep s).seq = .finish := rfl
@[simp] theorem wipeStep_latLen (s : State) : (wipeStep s).latLen = s.latLen := rfl
@[simp] theorem wipeStep_kdfSel (s : State) : (wipeStep s).kdfSel = .enc := rfl
@[simp] theorem wipeStep_skEnc (s : State) : (wipeStep s).skEnc = zero32 := rfl
@[simp] theorem wipeStep_skMac (s : State) : (wipeStep s).skMac = zero32 := rfl
@[simp] theorem wipeStep_tagCalc (s : State) : (wipeStep s).tagCalc = zero32 := rfl
@[simp] theorem wipeStep_diff (s : State) : (wipeStep s).diff = 0#8 := rfl
@[simp] theorem wipeStep_cmpI (s : State) : (wipeStep s).cmpI = 0 := rfl
@[simp] theorem wipeStep_prngState (s : State) : (wipeStep s).prngState = s.prngState := rfl
@[simp] theorem wipeStep_inBuf (s : State) : (wipeStep s).inBuf = s.inBuf := rfl
@[simp] theorem wipeStep_outBuf (s : State) : (wipeStep s).outBuf = s.outBuf := rfl
@[simp] theorem wipeStep_hist (s : State) : (wipeStep s).hist = s.hist := rfl
@[simp] theorem wipeStep_env (s : State) : (wipeStep s).env = s.env := rfl

/-! ## clearStep -/

@[simp] theorem clearStep_key (s : State) : (clearStep s).key = zero32 := rfl
@[simp] theorem clearStep_keyMask (s : State) : (clearStep s).keyMask = 0#8 := rfl
@[simp] theorem clearStep_nonce (s : State) : (clearStep s).nonce = zero32 := rfl
@[simp] theorem clearStep_nonceMask (s : State) : (clearStep s).nonceMask = 0#8 := rfl
@[simp] theorem clearStep_dataLen (s : State) : (clearStep s).dataLen = 0#64 := rfl
@[simp] theorem clearStep_outLen (s : State) : (clearStep s).outLen = 0#64 := rfl
@[simp] theorem clearStep_ie (s : State) : (clearStep s).ie = s.ie := rfl
@[simp] theorem clearStep_busy (s : State) : (clearStep s).busy = s.busy := rfl
@[simp] theorem clearStep_done (s : State) : (clearStep s).done = s.done := rfl
@[simp] theorem clearStep_collide (s : State) : (clearStep s).collide = s.collide := rfl
@[simp] theorem clearStep_seeded (s : State) : (clearStep s).seeded = s.seeded := rfl
@[simp] theorem clearStep_fatal (s : State) : (clearStep s).fatal = s.fatal := rfl
@[simp] theorem clearStep_result (s : State) : (clearStep s).result = s.result := rfl
@[simp] theorem clearStep_lastOp (s : State) : (clearStep s).lastOp = s.lastOp := rfl
@[simp] theorem clearStep_cmdRaw (s : State) : (clearStep s).cmdRaw = s.cmdRaw := rfl
@[simp] theorem clearStep_pend (s : State) : (clearStep s).pend = s.pend := rfl
@[simp] theorem clearStep_seq (s : State) : (clearStep s).seq = .finish := rfl
@[simp] theorem clearStep_latLen (s : State) : (clearStep s).latLen = 0#64 := rfl
@[simp] theorem clearStep_kdfSel (s : State) : (clearStep s).kdfSel = .enc := rfl
@[simp] theorem clearStep_skEnc (s : State) : (clearStep s).skEnc = zero32 := rfl
@[simp] theorem clearStep_skMac (s : State) : (clearStep s).skMac = zero32 := rfl
@[simp] theorem clearStep_tagCalc (s : State) : (clearStep s).tagCalc = zero32 := rfl
@[simp] theorem clearStep_diff (s : State) : (clearStep s).diff = 0#8 := rfl
@[simp] theorem clearStep_cmpI (s : State) : (clearStep s).cmpI = 0 := rfl
@[simp] theorem clearStep_prngState (s : State) : (clearStep s).prngState = s.prngState := rfl
@[simp] theorem clearStep_inBuf (s : State) : (clearStep s).inBuf = [] := rfl
@[simp] theorem clearStep_outBuf (s : State) : (clearStep s).outBuf = [] := rfl
@[simp] theorem clearStep_hist (s : State) : (clearStep s).hist = s.hist := rfl
@[simp] theorem clearStep_env (s : State) : (clearStep s).env = s.env := rfl

/-! ## giveAnswer -/

@[simp] theorem giveAnswer_key (cfg : Config) (a : EntropyAnswer) (s : State) : (giveAnswer cfg a s).key = s.key := rfl
@[simp] theorem giveAnswer_keyMask (cfg : Config) (a : EntropyAnswer) (s : State) : (giveAnswer cfg a s).keyMask = s.keyMask := rfl
@[simp] theorem giveAnswer_nonce (cfg : Config) (a : EntropyAnswer) (s : State) : (giveAnswer cfg a s).nonce = s.nonce := rfl
@[simp] theorem giveAnswer_nonceMask (cfg : Config) (a : EntropyAnswer) (s : State) : (giveAnswer cfg a s).nonceMask = s.nonceMask := rfl
@[simp] theorem giveAnswer_dataLen (cfg : Config) (a : EntropyAnswer) (s : State) : (giveAnswer cfg a s).dataLen = s.dataLen := rfl
@[simp] theorem giveAnswer_outLen (cfg : Config) (a : EntropyAnswer) (s : State) : (giveAnswer cfg a s).outLen = s.outLen := rfl
@[simp] theorem giveAnswer_ie (cfg : Config) (a : EntropyAnswer) (s : State) : (giveAnswer cfg a s).ie = s.ie := rfl
@[simp] theorem giveAnswer_busy (cfg : Config) (a : EntropyAnswer) (s : State) : (giveAnswer cfg a s).busy = s.busy := rfl
@[simp] theorem giveAnswer_done (cfg : Config) (a : EntropyAnswer) (s : State) : (giveAnswer cfg a s).done = s.done := rfl
@[simp] theorem giveAnswer_collide (cfg : Config) (a : EntropyAnswer) (s : State) : (giveAnswer cfg a s).collide = s.collide := rfl
@[simp] theorem giveAnswer_seeded (cfg : Config) (a : EntropyAnswer) (s : State) : (giveAnswer cfg a s).seeded = s.seeded := rfl
@[simp] theorem giveAnswer_fatal (cfg : Config) (a : EntropyAnswer) (s : State) : (giveAnswer cfg a s).fatal = s.fatal := rfl
@[simp] theorem giveAnswer_result (cfg : Config) (a : EntropyAnswer) (s : State) : (giveAnswer cfg a s).result = s.result := rfl
@[simp] theorem giveAnswer_lastOp (cfg : Config) (a : EntropyAnswer) (s : State) : (giveAnswer cfg a s).lastOp = s.lastOp := rfl
@[simp] theorem giveAnswer_cmdRaw (cfg : Config) (a : EntropyAnswer) (s : State) : (giveAnswer cfg a s).cmdRaw = s.cmdRaw := rfl
@[simp] theorem giveAnswer_pend (cfg : Config) (a : EntropyAnswer) (s : State) : (giveAnswer cfg a s).pend = s.pend := rfl
@[simp] theorem giveAnswer_seq (cfg : Config) (a : EntropyAnswer) (s : State) : (giveAnswer cfg a s).seq = s.seq := rfl
@[simp] theorem giveAnswer_latLen (cfg : Config) (a : EntropyAnswer) (s : State) : (giveAnswer cfg a s).latLen = s.latLen := rfl
@[simp] theorem giveAnswer_kdfSel (cfg : Config) (a : EntropyAnswer) (s : State) : (giveAnswer cfg a s).kdfSel = s.kdfSel := rfl
@[simp] theorem giveAnswer_skEnc (cfg : Config) (a : EntropyAnswer) (s : State) : (giveAnswer cfg a s).skEnc = s.skEnc := rfl
@[simp] theorem giveAnswer_skMac (cfg : Config) (a : EntropyAnswer) (s : State) : (giveAnswer cfg a s).skMac = s.skMac := rfl
@[simp] theorem giveAnswer_tagCalc (cfg : Config) (a : EntropyAnswer) (s : State) : (giveAnswer cfg a s).tagCalc = s.tagCalc := rfl
@[simp] theorem giveAnswer_diff (cfg : Config) (a : EntropyAnswer) (s : State) : (giveAnswer cfg a s).diff = s.diff := rfl
@[simp] theorem giveAnswer_cmpI (cfg : Config) (a : EntropyAnswer) (s : State) : (giveAnswer cfg a s).cmpI = s.cmpI := rfl
@[simp] theorem giveAnswer_prngState (cfg : Config) (a : EntropyAnswer) (s : State) : (giveAnswer cfg a s).prngState = s.prngState := rfl
@[simp] theorem giveAnswer_inBuf (cfg : Config) (a : EntropyAnswer) (s : State) : (giveAnswer cfg a s).inBuf = s.inBuf := rfl
@[simp] theorem giveAnswer_outBuf (cfg : Config) (a : EntropyAnswer) (s : State) : (giveAnswer cfg a s).outBuf = s.outBuf := rfl
@[simp] theorem giveAnswer_hist (cfg : Config) (a : EntropyAnswer) (s : State) : (giveAnswer cfg a s).hist = s.hist := rfl
@[simp] theorem giveAnswer_env (cfg : Config) (a : EntropyAnswer) (s : State) : (giveAnswer cfg a s).env = { s.env with
    entropy := if answerLegal cfg a then s.env.entropy ++ [a] else s.env.entropy } := rfl

/-! ## setHost -/

@[simp] theorem setHost_key (h : Nat) (a : HostAgent) (s : State) : (setHost h a s).key = s.key := rfl
@[simp] theorem setHost_keyMask (h : Nat) (a : HostAgent) (s : State) : (setHost h a s).keyMask = s.keyMask := rfl
@[simp] theorem setHost_nonce (h : Nat) (a : HostAgent) (s : State) : (setHost h a s).nonce = s.nonce := rfl
@[simp] theorem setHost_nonceMask (h : Nat) (a : HostAgent) (s : State) : (setHost h a s).nonceMask = s.nonceMask := rfl
@[simp] theorem setHost_dataLen (h : Nat) (a : HostAgent) (s : State) : (setHost h a s).dataLen = s.dataLen := rfl
@[simp] theorem setHost_outLen (h : Nat) (a : HostAgent) (s : State) : (setHost h a s).outLen = s.outLen := rfl
@[simp] theorem setHost_ie (h : Nat) (a : HostAgent) (s : State) : (setHost h a s).ie = s.ie := rfl
@[simp] theorem setHost_busy (h : Nat) (a : HostAgent) (s : State) : (setHost h a s).busy = s.busy := rfl
@[simp] theorem setHost_done (h : Nat) (a : HostAgent) (s : State) : (setHost h a s).done = s.done := rfl
@[simp] theorem setHost_collide (h : Nat) (a : HostAgent) (s : State) : (setHost h a s).collide = s.collide := rfl
@[simp] theorem setHost_seeded (h : Nat) (a : HostAgent) (s : State) : (setHost h a s).seeded = s.seeded := rfl
@[simp] theorem setHost_fatal (h : Nat) (a : HostAgent) (s : State) : (setHost h a s).fatal = s.fatal := rfl
@[simp] theorem setHost_result (h : Nat) (a : HostAgent) (s : State) : (setHost h a s).result = s.result := rfl
@[simp] theorem setHost_lastOp (h : Nat) (a : HostAgent) (s : State) : (setHost h a s).lastOp = s.lastOp := rfl
@[simp] theorem setHost_cmdRaw (h : Nat) (a : HostAgent) (s : State) : (setHost h a s).cmdRaw = s.cmdRaw := rfl
@[simp] theorem setHost_pend (h : Nat) (a : HostAgent) (s : State) : (setHost h a s).pend = s.pend := rfl
@[simp] theorem setHost_seq (h : Nat) (a : HostAgent) (s : State) : (setHost h a s).seq = s.seq := rfl
@[simp] theorem setHost_latLen (h : Nat) (a : HostAgent) (s : State) : (setHost h a s).latLen = s.latLen := rfl
@[simp] theorem setHost_kdfSel (h : Nat) (a : HostAgent) (s : State) : (setHost h a s).kdfSel = s.kdfSel := rfl
@[simp] theorem setHost_skEnc (h : Nat) (a : HostAgent) (s : State) : (setHost h a s).skEnc = s.skEnc := rfl
@[simp] theorem setHost_skMac (h : Nat) (a : HostAgent) (s : State) : (setHost h a s).skMac = s.skMac := rfl
@[simp] theorem setHost_tagCalc (h : Nat) (a : HostAgent) (s : State) : (setHost h a s).tagCalc = s.tagCalc := rfl
@[simp] theorem setHost_diff (h : Nat) (a : HostAgent) (s : State) : (setHost h a s).diff = s.diff := rfl
@[simp] theorem setHost_cmpI (h : Nat) (a : HostAgent) (s : State) : (setHost h a s).cmpI = s.cmpI := rfl
@[simp] theorem setHost_prngState (h : Nat) (a : HostAgent) (s : State) : (setHost h a s).prngState = s.prngState := rfl
@[simp] theorem setHost_inBuf (h : Nat) (a : HostAgent) (s : State) : (setHost h a s).inBuf = s.inBuf := rfl
@[simp] theorem setHost_outBuf (h : Nat) (a : HostAgent) (s : State) : (setHost h a s).outBuf = s.outBuf := rfl
@[simp] theorem setHost_hist (h : Nat) (a : HostAgent) (s : State) : (setHost h a s).hist = s.hist := rfl
@[simp] theorem setHost_env (h : Nat) (a : HostAgent) (s : State) : (setHost h a s).env = { s.env with hosts := s.env.hosts.set h a } := rfl

/-! ## withoutMove -/

@[simp] theorem withoutMove_key (ms : List Move) (s : State) : (withoutMove ms s).key = s.key := rfl
@[simp] theorem withoutMove_keyMask (ms : List Move) (s : State) : (withoutMove ms s).keyMask = s.keyMask := rfl
@[simp] theorem withoutMove_nonce (ms : List Move) (s : State) : (withoutMove ms s).nonce = s.nonce := rfl
@[simp] theorem withoutMove_nonceMask (ms : List Move) (s : State) : (withoutMove ms s).nonceMask = s.nonceMask := rfl
@[simp] theorem withoutMove_dataLen (ms : List Move) (s : State) : (withoutMove ms s).dataLen = s.dataLen := rfl
@[simp] theorem withoutMove_outLen (ms : List Move) (s : State) : (withoutMove ms s).outLen = s.outLen := rfl
@[simp] theorem withoutMove_ie (ms : List Move) (s : State) : (withoutMove ms s).ie = s.ie := rfl
@[simp] theorem withoutMove_busy (ms : List Move) (s : State) : (withoutMove ms s).busy = s.busy := rfl
@[simp] theorem withoutMove_done (ms : List Move) (s : State) : (withoutMove ms s).done = s.done := rfl
@[simp] theorem withoutMove_collide (ms : List Move) (s : State) : (withoutMove ms s).collide = s.collide := rfl
@[simp] theorem withoutMove_seeded (ms : List Move) (s : State) : (withoutMove ms s).seeded = s.seeded := rfl
@[simp] theorem withoutMove_fatal (ms : List Move) (s : State) : (withoutMove ms s).fatal = s.fatal := rfl
@[simp] theorem withoutMove_result (ms : List Move) (s : State) : (withoutMove ms s).result = s.result := rfl
@[simp] theorem withoutMove_lastOp (ms : List Move) (s : State) : (withoutMove ms s).lastOp = s.lastOp := rfl
@[simp] theorem withoutMove_cmdRaw (ms : List Move) (s : State) : (withoutMove ms s).cmdRaw = s.cmdRaw := rfl
@[simp] theorem withoutMove_pend (ms : List Move) (s : State) : (withoutMove ms s).pend = s.pend := rfl
@[simp] theorem withoutMove_seq (ms : List Move) (s : State) : (withoutMove ms s).seq = s.seq := rfl
@[simp] theorem withoutMove_latLen (ms : List Move) (s : State) : (withoutMove ms s).latLen = s.latLen := rfl
@[simp] theorem withoutMove_kdfSel (ms : List Move) (s : State) : (withoutMove ms s).kdfSel = s.kdfSel := rfl
@[simp] theorem withoutMove_skEnc (ms : List Move) (s : State) : (withoutMove ms s).skEnc = s.skEnc := rfl
@[simp] theorem withoutMove_skMac (ms : List Move) (s : State) : (withoutMove ms s).skMac = s.skMac := rfl
@[simp] theorem withoutMove_tagCalc (ms : List Move) (s : State) : (withoutMove ms s).tagCalc = s.tagCalc := rfl
@[simp] theorem withoutMove_diff (ms : List Move) (s : State) : (withoutMove ms s).diff = s.diff := rfl
@[simp] theorem withoutMove_cmpI (ms : List Move) (s : State) : (withoutMove ms s).cmpI = s.cmpI := rfl
@[simp] theorem withoutMove_prngState (ms : List Move) (s : State) : (withoutMove ms s).prngState = s.prngState := rfl
@[simp] theorem withoutMove_inBuf (ms : List Move) (s : State) : (withoutMove ms s).inBuf = s.inBuf := rfl
@[simp] theorem withoutMove_outBuf (ms : List Move) (s : State) : (withoutMove ms s).outBuf = s.outBuf := rfl
@[simp] theorem withoutMove_hist (ms : List Move) (s : State) : (withoutMove ms s).hist = s.hist := rfl
@[simp] theorem withoutMove_env (ms : List Move) (s : State) : (withoutMove ms s).env = { s.env with moves := ms } := rfl

end Sys2Proof.Machine
end

