-- ==== Sys2Proof/Laws/Bus.lean ====
section
/-! SUPPORT. What the bus port does: which offsets decode to what, and everything one transaction can do. -/

namespace Sys2Proof.Machine

/-! ## Address decode -/

/-- The port decodes each register's offset to that register (R32, R74). -/
theorem decodeOffset_reg (cfg : Config) (r : Reg) : decodeOffset cfg (regOffset r).toNat = some (.reg r) := by
  cases r with
  | key i => fin_cases i <;> rfl
  | nonce i => fin_cases i <;> rfl
  | id | version | ctrl | cmd | status | loadMask | dataLenLo | dataLenHi | outLenLo | outLenHi => rfl

theorem regOffset_aligned (r : Reg) : (regOffset r).toNat % 4 = 0 := by
  cases r with
  | key i => fin_cases i <;> rfl
  | nonce i => fin_cases i <;> rfl
  | id | version | ctrl | cmd | status | loadMask | dataLenLo | dataLenHi | outLenLo | outLenHi => rfl

/-- An offset of the IN window decodes to its word (R75). -/
theorem decodeOffset_in (cfg : Config) (a : Nat) (h : a < cfg.bufBytes) :
    decodeOffset cfg (0x10000 + a) = some (.inWord a) := by
  rw [decodeOffset, if_neg (by omega), if_neg (by omega), if_neg (by omega), if_pos (by omega),
    Nat.add_sub_cancel_left]

/-- The IN window ends before the OUT window begins (R12). -/
theorem Config.bufBytes_le (cfg : Config) : cfg.bufBytes ≤ 0x10000 := by
  have := cfg.maxPtHigh
  unfold Config.bufBytes
  omega

/-- An offset of the OUT window decodes to its word (R76). -/
theorem decodeOffset_out (cfg : Config) (a : Nat) (h : a < cfg.bufBytes) :
    decodeOffset cfg (0x20000 + a) = some (.outWord a) := by
  have := Config.bufBytes_le cfg
  rw [decodeOffset, if_neg (by omega), if_neg (by omega), if_neg (by omega), if_neg (by omega), if_pos (by omega),
    Nat.add_sub_cancel_left]

/-- Exactly the reserved offsets decode to nothing (R78). -/
theorem decodeOffset_none (cfg : Config) (off : Nat) :
    decodeOffset cfg off = none ↔
      (0x28 ≤ off ∧ off < 0x40) ∨ (0x80 ≤ off ∧ off < 0x10000) ∨
      (0x10000 + cfg.bufBytes ≤ off ∧ off < 0x20000) ∨ 0x20000 + cfg.bufBytes ≤ off := by
  have hb := Config.bufBytes_le cfg
  unfold decodeOffset
  split
  · next h =>
    have : off / 4 < lowRegs.length := by simp [lowRegs]; omega
    rw [List.getElem?_eq_getElem this]
    simp
    omega
  · split
    · simp; omega
    · split
      · simp; omega
      · split
        · simp; omega
        · split
          · simp; omega
          · simp; omega

/-! ## One transaction -/

/-- A legal transaction is a read or a write of what its offset decodes to (R67, R69). -/
theorem transact_legal (cfg : Config) (h : Nat) (k : AccessKind) (off : Offset) (d : Word) (tgt : Target)
    (s : State) (ha : off.toNat % 4 = 0) (ht : decodeOffset cfg off.toNat = some tgt) :
    transact cfg { host := h, kind := k, off := off, size := .four, wdata := d } s =
      match k with
      | .read => busRead tgt s
      | .write => busWrite tgt d s := by
  cases k <;> simp [transact, legalTarget, ha, ht]

/-- A write at a register's offset (R33). -/
theorem transact_writeReg (cfg : Config) (h : Nat) (r : Reg) (d : Word) (s : State) :
    transact cfg { host := h, kind := .write, off := regOffset r, size := .four, wdata := d } s =
      busWrite (.reg r) d s :=
  transact_legal cfg h .write _ d _ s (regOffset_aligned r) (decodeOffset_reg cfg r)

/-- A read at a register's offset (R33). -/
theorem transact_readReg (cfg : Config) (h : Nat) (r : Reg) (d : Word) (s : State) :
    transact cfg { host := h, kind := .read, off := regOffset r, size := .four, wdata := d } s =
      busRead (.reg r) s :=
  transact_legal cfg h .read _ d _ s (regOffset_aligned r) (decodeOffset_reg cfg r)

/-- An illegal transaction (R68). -/
theorem transact_illegal (cfg : Config) (t : Transaction) (s : State) (h : legalTarget cfg t = none) :
    transact cfg t s = answer .busErr s := by
  simp [transact, h]

theorem busRead_idle (t : Target) (s : State) (h : s.busy = false) :
    busRead t s = answer (.data (readTarget t s)) s := by
  simp [busRead, h]

theorem busWrite_idle (t : Target) (d : Word) (s : State) (h : s.busy = false) :
    busWrite t d s = answer .okay (writeTarget t d s) := by
  simp [busWrite, h]

theorem busRead_rejected (t : Target) (s : State) (h : s.busy = true) (ha : admitsRead t = false) :
    busRead t s = answer (.data 0#32) (reject s) := by
  simp [busRead, h, ha]

theorem busWrite_rejected (t : Target) (d : Word) (s : State) (h : s.busy = true)
    (ha : admitsWrite t = false) : busWrite t d s = answer .okay (reject s) := by
  simp [busWrite, h, ha]

theorem busRead_admitted (t : Target) (s : State) (ha : admitsRead t = true) :
    busRead t s = answer (.data (readTarget t s)) s := by
  simp [busRead, ha]

theorem busWrite_admitted (t : Target) (d : Word) (s : State) (ha : admitsWrite t = true) :
    busWrite t d s = answer .okay (writeTarget t d s) := by
  simp [busWrite, ha]

/-- Everything one transaction can do: BUS_ERR, a rejected read or write, a read, or a write. -/
theorem transact_cases (cfg : Config) (t : Transaction) (s : State) :
    (legalTarget cfg t = none ∧ transact cfg t s = answer .busErr s) ∨
    ∃ tgt, legalTarget cfg t = some tgt ∧
      ((t.kind = .read ∧ s.busy = true ∧ admitsRead tgt = false ∧
          transact cfg t s = answer (.data 0#32) (reject s)) ∨
       (t.kind = .read ∧ (s.busy = true → admitsRead tgt = true) ∧
          transact cfg t s = answer (.data (readTarget tgt s)) s) ∨
       (t.kind = .write ∧ s.busy = true ∧ admitsWrite tgt = false ∧
          transact cfg t s = answer .okay (reject s)) ∨
       (t.kind = .write ∧ (s.busy = true → admitsWrite tgt = true) ∧
          transact cfg t s = answer .okay (writeTarget tgt t.wdata s))) := by
  cases hl : legalTarget cfg t with
  | none => exact .inl ⟨rfl, transact_illegal _ _ _ hl⟩
  | some tgt =>
    refine .inr ⟨tgt, rfl, ?_⟩
    cases hk : t.kind <;> simp only [transact, hl, hk, reduceCtorEq, false_and, true_and, or_false, false_or]
    · cases hb : s.busy <;> cases ha : admitsRead tgt <;> simp [busRead, hb, ha]
    · cases hb : s.busy <;> cases ha : admitsWrite tgt <;> simp [busWrite, hb, ha]

/-! ## Words and blocks -/

/-- Byte `j` of the word of four bytes (R19, R35). -/
theorem byteOfWord_u32leInv (b0 b1 b2 b3 : Byte) (j : Fin 4) :
    byteOfWord (u32leInv [b0, b1, b2, b3]) j.val = [b0, b1, b2, b3][j.val] := by
  apply BitVec.eq_of_toNat_eq
  have h0 := b0.isLt
  have h1 := b1.isLt
  have h2 := b2.isLt
  have h3 := b3.isLt
  fin_cases j <;>
    simp [byteOfWord, u32leInv, leNat, BitVec.extractLsb'_toNat, Nat.shiftRight_eq_div_pow] <;> omega

/-- The four bytes of a word, least significant first (R19, R35). -/
theorem u32le_eq (d : Word) :
    u32le d = [byteOfWord d 0, byteOfWord d 1, byteOfWord d 2, byteOfWord d 3] := by
  simp only [u32le, leBytes, List.cons.injEq, and_true]
  refine ⟨?_, ?_, ?_, ?_⟩ <;> apply BitVec.eq_of_toNat_eq <;>
    simp [byteOfWord, BitVec.extractLsb'_toNat, Nat.shiftRight_eq_div_pow, Nat.div_div_eq_div_mul]

/-- The word read back from the four bytes of a word (R19). -/
theorem u32leInv_bytes (d : Word) :
    u32leInv [byteOfWord d 0, byteOfWord d 1, byteOfWord d 2, byteOfWord d 3] = d := by
  rw [← u32le_eq, u32leInv_u32le]

/-- Bytes of a block after a word is set: those of the word, and the others as they were (R55, R56). -/
theorem setBlockWord_getElem (v : Bytes32) (i : Fin 8) (d : Word) (k : Nat) (hk : k < 32) :
    (setBlockWord v i d)[k] = if k / 4 = i.val then byteOfWord d (k % 4) else v[k] := by
  have hi := i.isLt
  simp only [setBlockWord, Vector.getElem_set]
  by_cases h : k / 4 = i.val
  · rw [if_pos h]
    have : k % 4 < 4 := Nat.mod_lt _ (by omega)
    interval_cases hm : k % 4 <;>
      (repeat' split) <;> first | rfl | omega
  · rw [if_neg h]
    (repeat' split) <;> first | rfl | omega

/-- Bit `k` of a load mask after word `i` is marked. -/
theorem markWord_getLsbD (m : BitVec 8) (i k : Fin 8) :
    (markWord m i).getLsbD k.val = (decide (k = i) || m.getLsbD k.val) := by
  fin_cases i <;> fin_cases k <;> simp [markWord]

end Sys2Proof.Machine
end

