-- ==== Sys2Proof/Laws/Steps.lean ====
section
/-! SUPPORT. What each step of the sequencer does, once: its next state inside the bounds, and its inversion. -/

namespace Sys2Proof.Machine

/-! ## Outcomes -/

@[simp] theorem andThen_next (s : State) (f : State → Result) : andThen (.next s) f = f s := rfl

/-- A sequence answers a next state exactly when its first part does and its second does from there. -/
theorem andThen_eq_next {r : Result} {f : State → Result} {t : State} (h : andThen r f = .next t) :
    ∃ s, r = .next s ∧ f s = .next t := by
  cases r with
  | next s => exact ⟨s, rfl, h⟩
  | fault e => cases h
  | refused e => cases h

theorem andThen_assoc (r : Result) (f g : State → Result) :
    andThen (andThen r f) g = andThen r fun s => andThen (f s) g := by
  cases r <;> rfl

/-! ## CHECK -/

/-- `framed` as two numbers (R171). -/
theorem framed_iff (m : Memory) (d : Length) :
    framed m d = true ↔ 72 ≤ d.toNat ∧ leNat (m.readBytes 64 8) = d.toNat - 72 := by
  show (decide (72 ≤ d.toNat) && decide (leNat (m.readBytes 64 8) = d.toNat - 72)) = true ↔ _
  simp

/-- The first test of CHECK that holds is the first failure of R195. -/
theorem firstFailure_checkTests (cfg : Config) (i : Instr) (s : State) :
    firstFailure (checkTests cfg i s) = firstCheckFailure cfg i s := by
  by_cases h1 : cfg.maxPt + 72 < s.dataLen.toNat <;> by_cases h2 : 72 ≤ s.dataLen.toNat <;>
    by_cases h3 : leNat (s.inBuf.readBytes 64 8) = s.dataLen.toNat - 72 <;> cases i <;>
    simp [checkTests, firstFailure, firstCheckFailure, runsWhenFatal, needsKey, lengthTooLong, allWritten,
      framed, lengthField, headerBytes, h1, h2, h3]

/-- The failures of CHECK do not depend on `out_len` or on what acceptance writes. -/
theorem firstCheckFailure_congr (cfg : Config) (i : Instr) (s t : State) (hf : t.fatal = s.fatal)
    (hk : t.keyMask = s.keyMask) (hn : t.nonceMask = s.nonceMask) (hd : t.dataLen = s.dataLen)
    (hm : t.inBuf = s.inBuf) : firstCheckFailure cfg i t = firstCheckFailure cfg i s := by
  simp only [firstCheckFailure, hf, hk, hn, hd, hm]

/-- What a command that passes CHECK has: FATAL clear unless it runs anyway, the key and nonce it
needs, a length within its bound, and for DEC_RAW a framed envelope (R145, R195). -/
structure Passes (cfg : Config) (i : Instr) (s : State) : Prop where
  notFatal : i ≠ .nop → i ≠ .zeroize → s.fatal = false
  hasKey : i = .encRaw ∨ i = .enc ∨ i = .decRaw → s.keyMask = 0xFF#8
  hasNonce : i = .encRaw → s.nonceMask = 0xFF#8
  shortEnough : i = .encRaw ∨ i = .enc → s.dataLen.toNat ≤ cfg.maxPt
  framedLength : i = .decRaw → 72 ≤ s.dataLen.toNat ∧ s.dataLen.toNat ≤ cfg.maxPt + 72 ∧
    leNat (s.inBuf.readBytes 64 8) = s.dataLen.toNat - 72

/-- CHECK finds no failure exactly when the command passes. -/
theorem firstCheckFailure_none_iff (cfg : Config) (i : Instr) (s : State) :
    firstCheckFailure cfg i s = none ↔ Passes cfg i s := by
  constructor
  · intro h
    unfold firstCheckFailure at h
    repeat' split at h
    all_goals try contradiction
    next h1 h2 h3 h4 h5 h6 =>
    refine ⟨fun a b => ?_, fun a => ?_, fun a => ?_, fun a => ?_, fun a => ?_⟩
    · cases hf : s.fatal
      · rfl
      · exact absurd ⟨hf, a, b⟩ h1
    · exact by_contra fun hk => h2 ⟨a, hk⟩
    · exact by_contra fun hk => h3 ⟨a, hk⟩
    · exact Nat.le_of_not_lt fun hk => h4 ⟨a, hk⟩
    · have hd := by_contra fun hk => h6 ⟨a, hk⟩
      exact ⟨hd.1, Nat.le_of_not_lt fun hk => h5 ⟨a, hk⟩, hd.2⟩
  · rintro ⟨h1, h2, h3, h4, h5⟩
    unfold firstCheckFailure
    rw [if_neg fun h => by simp [h1 h.2.1 h.2.2] at h, if_neg fun h => h.2 (h2 h.1),
      if_neg fun h => h.2 (h3 h.1), if_neg fun h => absurd (h4 h.1) (Nat.not_le.mpr h.2),
      if_neg fun h => absurd (h5 h.1).2.1 (Nat.not_le.mpr h.2),
      if_neg fun h => h.2 ⟨(h5 h.1).1, (h5 h.1).2.2⟩]

/-- The latched length of a command that passes CHECK and uses it is within MAX_PT (R77, R145). -/
theorem Passes.latched_le {cfg : Config} {i : Instr} {s : State} (h : Passes cfg i s)
    (hi : i = .encRaw ∨ i = .enc ∨ i = .decRaw) : (latchedLength i s.dataLen).toNat ≤ cfg.maxPt := by
  rcases hi with rfl | rfl | rfl
  · exact h.shortEnough (.inl rfl)
  · exact h.shortEnough (.inr rfl)
  · have hd := h.framedLength rfl
    have := cfg.maxPtHigh
    show (s.dataLen - 72#64).toNat ≤ cfg.maxPt
    rw [BitVec.toNat_sub_of_le (by simp [BitVec.le_def]; omega)]
    simp
    omega

/-- The length a DEC_RAW that passes CHECK latches is `data_len - 72` (R145). -/
theorem Passes.latched_decRaw {cfg : Config} {s : State} (h : Passes cfg .decRaw s) :
    (latchedLength .decRaw s.dataLen).toNat = s.dataLen.toNat - 72 := by
  have hd := h.framedLength rfl
  show (s.dataLen - 72#64).toNat = _
  rw [BitVec.toNat_sub_of_le (by simp [BitVec.le_def]; omega)]
  simp

/-- CHECK of a command: `out_len` cleared where R145 says so, then the first failure, or the path. -/
theorem checkCommand_eq (cfg : Config) (i : Instr) (s : State) :
    checkCommand cfg i s =
      match firstCheckFailure cfg i s with
      | some c => raise c { s with outLen := if clearsOutLen i then 0#64 else s.outLen }
      | none => { s with
          outLen := if clearsOutLen i then 0#64 else s.outLen
          latLen := latchedLength i s.dataLen
          seq := afterCheck i s.seeded } := by
  unfold checkCommand
  have h : ∀ o, firstCheckFailure cfg i { s with outLen := o } = firstCheckFailure cfg i s :=
    fun o => firstCheckFailure_congr cfg i s _ rfl rfl rfl rfl rfl
  cases hc : clearsOutLen i <;> simp only [if_true, Bool.false_eq_true, if_false] <;>
    rw [firstFailure_checkTests] <;> try rw [h]
  all_goals cases firstCheckFailure cfg i s <;> rfl

/-- CHECK of the word of command `i`. -/
theorem checkStep_encode (cfg : Config) (i : Instr) (s : State) (h : s.cmdRaw = encode i) :
    checkStep cfg s = checkCommand cfg i s := by
  simp [checkStep, h]

/-- CHECK of a word that is no command (R160). -/
theorem checkStep_illegal (cfg : Config) (s : State) (why : IllegalWord)
    (h : decode s.cmdRaw = .illegal why) : checkStep cfg s = raise .illegal s := by
  simp [checkStep, h]

/-! ## The lines of a host agent -/

/-- Everything a host agent's line can do (R98): nothing, or move the agent on after at most one transaction. -/
theorem hostStep_cases (cfg : Config) (h : Nat) (s : State) :
    hostStep cfg h s = s ∨ ∃ a l, s.env.hosts[h]? = some a ∧ a.prog[a.line]? = some l ∧
      ((∃ t, encodeLine h a l = some t ∧
          hostStep cfg h s = setHost h (afterLine h a l (transact cfg t s)) (transact cfg t s)) ∨
        (encodeLine h a l = none ∧ hostStep cfg h s = setHost h (afterLine h a l s) s)) := by
  unfold hostStep
  split
  · exact .inl rfl
  · next a ha =>
    split
    · exact .inl rfl
    · next l hl =>
      refine .inr ⟨a, l, ha, hl, ?_⟩
      unfold runLine lineTransaction
      cases he : encodeLine h a l with
      | none => exact .inr ⟨rfl, rfl⟩
      | some t => exact .inl ⟨t, rfl, rfl⟩

/-! ## The PRNG state and the SEED step -/

/-- `PRNG_INIT(seed)` is the PRNG state right after seeding (R131). -/
@[simp] theorem pstateOf_seeded (cfg : Config) (seed : Bytes) : pstateOf cfg (seededOrigin seed) = cfg.prngInit seed :=
  rfl

/-- One more draw is `PRNG_NEXT`'s next state (R134). -/
@[simp] theorem pstateOf_advance (cfg : Config) (o : PrngOrigin) :
    pstateOf cfg (advanceOrigin o) = (cfg.prngNext (pstateOf cfg o) 32).2 := rfl

/-- The bytes of a drawn nonce are PRNG_NEXT's output (R134). -/
@[simp] theorem drawNonce_toList (cfg : Config) (st : cfg.PState) :
    (drawNonce cfg st).toList = (cfg.prngNext st 32).1 := by
  simp [drawNonce, blockOfBytes]

/-- A PRNG state comes from an origin. -/
theorem prngStateOf_some {cfg : Config} {s : State} {st : cfg.PState} (h : prngStateOf cfg s = some st) :
    ∃ o, s.prngState = some o ∧ pstateOf cfg o = st := by
  cases ho : s.prngState with
  | none => simp [prngStateOf, ho] at h
  | some o => exact ⟨o, rfl, by simpa [prngStateOf, ho] using h⟩

/-- Everything the SEED step can do (R131): wait, fail, or seed with a Seed. -/
theorem seedStep_cases (cfg : Config) (s : State) :
    (seedStep cfg s = s ∧ ∀ a rest, s.env.entropy = a :: rest → answerLegal cfg a = false) ∨
    (∃ rest, s.env.entropy = .fail :: rest ∧
      seedStep cfg s = seedFailed { s with env := { s.env with entropy := rest } }) ∨
    (∃ seed rest, s.env.entropy = .ok seed :: rest ∧ seed.length = cfg.seedBytes ∧
      seedStep cfg s = seedDone seed { s with env := { s.env with entropy := rest } }) := by
  unfold seedStep
  split
  · next he => exact .inl ⟨rfl, fun a rest h => by simp [he] at h⟩
  · next a rest he =>
    cases a with
    | fail => exact .inr (.inl ⟨rest, he, rfl⟩)
    | ok seed =>
      by_cases hl : seed.length = cfg.seedBytes
      · exact .inr (.inr ⟨seed, rest, he, hl, by simp [answerLegal, hl]⟩)
      · refine .inl ⟨by simp [answerLegal, hl], fun b r h => ?_⟩
        cases he.symm.trans h
        simp [answerLegal, hl]

/-! ## Steps that use the buffers: their next state inside the bounds -/

theorem drawStep_some (cfg : Config) (s : State) (o : PrngOrigin) (h : s.prngState = some o) :
    drawStep cfg s = .next (emit (.draw 32)
      { s with
        nonce := drawNonce cfg (pstateOf cfg o)
        prngState := some (advanceOrigin o)
        nonceMask := 0xFF#8
        seq := if opcodeField s.cmdRaw = 0x1#4 then .finish else .kdfEnc }) := by
  simp [drawStep, h]

/-- The ciphertext the SENC step of `s` computes. -/
def sencOutput (cfg : Config) (s : State) : Bytes :=
  cfg.senc s.skEnc s.nonce (s.inBuf.readBytes 0 s.latLen.toNat)

theorem sencOutput_length (cfg : Config) (s : State) : (sencOutput cfg s).length = s.latLen.toNat := by
  simp [sencOutput, cfg.sencLen, Memory.readBytes_length]

theorem sencStep_inside (cfg : Config) (s : State) (h : s.latLen.toNat ≤ cfg.maxPt) :
    sencStep cfg s = .next { emit (.senc s.latLen.toNat) s with
      outBuf := s.outBuf.writeBytes 72 (sencOutput cfg s), seq := .macGen } := by
  have hb : cfg.bufBytes = cfg.maxPt + 72 := rfl
  rw [sencStep, memRead_inside _ _ _ _ _ (by omega), memWrite_inside _ _ _ _ _ (by
    have := sencOutput_length cfg s
    unfold sencOutput at this
    rw [this, headerBytes]
    omega)]
  rfl

theorem macGenStep_inside (cfg : Config) (s : State) (h : s.latLen.toNat ≤ cfg.maxPt) :
    macGenStep cfg s = .next { emit (.mac s.latLen.toNat) s with
      tagCalc := cfg.macf s.skMac (s.outBuf.readBytes 72 s.latLen.toNat), seq := .frame } := by
  have hb : cfg.bufBytes = cfg.maxPt + 72 := rfl
  rw [macGenStep, memRead_inside _ _ _ _ _ (by rw [headerBytes]; omega)]

theorem frameStep_inside (cfg : Config) (s : State) :
    frameStep cfg s = .next { s with
      outBuf := ((s.outBuf.writeBytes 0 s.nonce.toList).writeBytes 32 s.tagCalc.toList).writeBytes 64
        (u64le s.latLen)
      outLen := 72#64 + s.latLen, seq := .wipe } := by
  have hb : cfg.bufBytes = cfg.maxPt + 72 := rfl
  rw [frameStep, memWrite_inside _ _ _ _ _ (by simp; omega),
    memWrite_inside _ _ _ _ _ (by simp; omega), memWrite_inside _ _ _ _ _ (by simp; omega)]

theorem macChkStep_inside (cfg : Config) (s : State) (h : s.latLen.toNat ≤ cfg.maxPt) :
    macChkStep cfg s = .next { emit (.mac s.latLen.toNat) s with
      tagCalc := cfg.macf s.skMac (s.inBuf.readBytes 72 s.latLen.toNat)
      diff := 0#8, cmpI := 0, seq := .cmp } := by
  have hb : cfg.bufBytes = cfg.maxPt + 72 := rfl
  rw [macChkStep, memRead_inside _ _ _ _ _ (by rw [headerBytes]; omega)]

theorem sdecStep_inside (cfg : Config) (s : State) (h : s.latLen.toNat ≤ cfg.maxPt) :
    sdecStep cfg s = .next { emit (.sdec s.latLen.toNat) s with
      outBuf := s.outBuf.writeBytes 0
        (cfg.sdec s.skEnc (nonceField s.inBuf) (s.inBuf.readBytes 72 s.latLen.toNat))
      outLen := s.latLen, seq := .wipe } := by
  have hb : cfg.bufBytes = cfg.maxPt + 72 := rfl
  rw [sdecStep, memRead_inside _ _ _ _ _ (by rw [headerBytes]; omega),
    memWrite_inside _ _ _ _ _ (by simp [cfg.sdecLen, Memory.readBytes_length]; omega)]

/-- The CMP step with a byte left to compare. -/
theorem cmpStep_lt (s : State) (h : s.cmpI.val < 32) :
    cmpStep s =
      let s' := { emit (.cmp s.cmpI.val) s with
        diff := compareByte s ⟨s.cmpI.val, h⟩, cmpI := ⟨s.cmpI.val + 1, by omega⟩ }
      if s.cmpI.val + 1 < 32 then .next { s' with seq := .cmp } else .next (verdict s') := by
  simp [cmpStep, h]

/-! ## One step of the sequencer, by the state it is in -/

theorem seqStep_idle (cfg : Config) (s : State) (h : s.seq = .idle) : seqStep cfg s = .next s := by
  simp [seqStep, h]
theorem seqStep_check (cfg : Config) (s : State) (h : s.seq = .check) :
    seqStep cfg s = .next (checkStep cfg s) := by simp [seqStep, h]
theorem seqStep_seed (cfg : Config) (s : State) (h : s.seq = .seed) :
    seqStep cfg s = .next (seedStep cfg s) := by simp [seqStep, h]
theorem seqStep_draw (cfg : Config) (s : State) (h : s.seq = .draw) :
    seqStep cfg s = drawStep cfg s := by simp [seqStep, h]
theorem seqStep_kdfEnc (cfg : Config) (s : State) (h : s.seq = .kdfEnc) :
    seqStep cfg s = .next (kdfEncStep cfg s) := by simp [seqStep, h]
theorem seqStep_kdfMac (cfg : Config) (s : State) (h : s.seq = .kdfMac) :
    seqStep cfg s = .next (kdfMacStep cfg s) := by simp [seqStep, h]
theorem seqStep_senc (cfg : Config) (s : State) (h : s.seq = .senc) :
    seqStep cfg s = sencStep cfg s := by simp [seqStep, h]
theorem seqStep_macGen (cfg : Config) (s : State) (h : s.seq = .macGen) :
    seqStep cfg s = macGenStep cfg s := by simp [seqStep, h]
theorem seqStep_frame (cfg : Config) (s : State) (h : s.seq = .frame) :
    seqStep cfg s = frameStep cfg s := by simp [seqStep, h]
theorem seqStep_macChk (cfg : Config) (s : State) (h : s.seq = .macChk) :
    seqStep cfg s = macChkStep cfg s := by simp [seqStep, h]
theorem seqStep_cmp (cfg : Config) (s : State) (h : s.seq = .cmp) :
    seqStep cfg s = cmpStep s := by simp [seqStep, h]
theorem seqStep_sdec (cfg : Config) (s : State) (h : s.seq = .sdec) :
    seqStep cfg s = sdecStep cfg s := by simp [seqStep, h]
theorem seqStep_wipe (cfg : Config) (s : State) (h : s.seq = .wipe) :
    seqStep cfg s = .next (wipeStep s) := by simp [seqStep, h]
theorem seqStep_clear (cfg : Config) (s : State) (h : s.seq = .clear) :
    seqStep cfg s = .next (clearStep s) := by simp [seqStep, h]
theorem seqStep_finish (cfg : Config) (s : State) (h : s.seq = .finish) :
    seqStep cfg s = .next (finishStep s) := by simp [seqStep, h]

/-! ## Paths -/

theorem runPath_nil (cfg : Config) (s : State) : runPath cfg [] s = .next s := rfl

/-- The path takes the step of the state the sequencer is in. -/
theorem runPath_at (cfg : Config) (p : SeqState) (ps : List SeqState) (s : State) (h : s.seq = p) :
    runPath cfg (p :: ps) s = andThen (seqStep cfg s) (runPath cfg ps) := if_pos h

/-- The path passes over a state the sequencer is not in. -/
theorem runPath_skip (cfg : Config) (p : SeqState) (ps : List SeqState) (s : State) (h : s.seq ≠ p) :
    runPath cfg (p :: ps) s = runPath cfg ps s := if_neg h

/-- A path in two parts. -/
theorem runPath_append (cfg : Config) (ps qs : List SeqState) (s : State) :
    runPath cfg (ps ++ qs) s = andThen (runPath cfg ps s) (runPath cfg qs) := by
  induction ps generalizing s with
  | nil => rfl
  | cons p ps ih =>
    rw [List.cons_append, runPath, runPath]
    split
    · rw [andThen_assoc]
      congr 1
      funext t
      exact ih t
    · exact ih s

/-- A path none of whose states the sequencer is in does nothing. -/
theorem runPath_none (cfg : Config) (ps : List SeqState) (s : State) (h : s.seq ∉ ps) :
    runPath cfg ps s = .next s := by
  induction ps with
  | nil => rfl
  | cons p ps ih =>
    simp only [List.mem_cons, not_or] at h
    rw [runPath_skip _ _ _ _ h.1, ih h.2]

/-- A command is `seqRun` for as many steps as states of its path it was in. -/
theorem runPath_eq_seqRun (cfg : Config) (ps : List SeqState) (s : State) :
    ∃ n, n ≤ ps.length ∧ runPath cfg ps s = seqRun cfg n s := by
  induction ps generalizing s with
  | nil => exact ⟨0, Nat.le_refl _, rfl⟩
  | cons p ps ih =>
    by_cases h : s.seq = p
    · rw [runPath_at _ _ _ _ h]
      cases hr : seqStep cfg s with
      | next t =>
        obtain ⟨n, hn, he⟩ := ih t
        exact ⟨n + 1, by simpa using hn, by rw [seqRun, hr, andThen_next, andThen_next, he]⟩
      | fault e => exact ⟨1, by simp, by rw [seqRun, hr]; rfl⟩
      | refused e => exact ⟨1, by simp, by rw [seqRun, hr]; rfl⟩
    · obtain ⟨n, hn, he⟩ := ih s
      exact ⟨n, Nat.le_succ_of_le hn, by rw [runPath_skip _ _ _ _ h, he]⟩

theorem seqRun_zero (cfg : Config) (s : State) : seqRun cfg 0 s = .next s := rfl

theorem seqRun_succ (cfg : Config) (n : Nat) (s : State) :
    seqRun cfg (n + 1) s = andThen (seqStep cfg s) (seqRun cfg n) := rfl

theorem seqRun_add (cfg : Config) (n k : Nat) (s : State) :
    seqRun cfg (n + k) s = andThen (seqRun cfg n s) (seqRun cfg k) := by
  induction n generalizing s with
  | zero => simp [seqRun_zero]
  | succ n ih =>
    rw [show n + 1 + k = n + k + 1 by omega, seqRun_succ, seqRun_succ, andThen_assoc]
    congr 1
    funext t
    exact ih t

theorem issue_busy (cfg : Config) (w : Word) (ps : List SeqState) (s : State) (h : s.busy = true) :
    issue cfg w ps s = .next (reject s) := by simp [issue, h]

theorem issue_idle (cfg : Config) (w : Word) (ps : List SeqState) (s : State) (h : s.busy = false) :
    issue cfg w ps s = runPath cfg ps (accept w s) := by simp [issue, h]

end Sys2Proof.Machine
end

