-- ==== Sys2Proof/Laws/Commands.lean ====
section
/-! SUPPORT. The parts of a command's state path: acceptance and CHECK, the encrypting tail, the 32 compares, and the
decrypting tail, each as one equation. -/

namespace Sys2Proof.Machine

/-! ## Acceptance and CHECK -/

/-- The state after command `i` is accepted in `s` and passes CHECK (R144, R145). -/
def checked (i : Instr) (s : State) : State :=
  { s with
    cmdRaw := encode i
    lastOp := opcodeOf i
    pend := 0#4
    busy := true
    done := false
    outLen := if clearsOutLen i then 0#64 else s.outLen
    latLen := latchedLength i s.dataLen
    seq := afterCheck i s.seeded }

/-- A command that passes CHECK goes on along the rest of its path. -/
theorem issue_check_pass (cfg : Config) (i : Instr) (ps : List SeqState) (s : State)
    (hb : s.busy = false) (hc : firstCheckFailure cfg i s = none) :
    issue cfg (encode i) (.check :: ps) s = runPath cfg ps (checked i s) := by
  have h : firstCheckFailure cfg i (accept (encode i) s) = none := by
    exact (firstCheckFailure_congr cfg i s (accept (encode i) s) rfl rfl rfl rfl rfl).trans hc
  rw [issue_idle _ _ _ _ hb, runPath_at _ _ _ _ (accept_seq _ _), seqStep_check _ _ (accept_seq _ _),
    andThen_next, checkStep_encode _ i _ (accept_cmdRaw _ _), checkCommand_eq, h]
  simp only [checked, accept, opcodeField_encode, codeOf]

/-- FINISH as the last state of a path. -/
theorem runPath_finish (cfg : Config) (ps : List SeqState) (s : State) (hs : s.seq = .finish)
    (hps : SeqState.finish ∉ ps) : runPath cfg (ps ++ [.finish]) s = .next (finishStep s) := by
  rw [runPath_append, runPath_none cfg ps s (by rw [hs]; exact hps), andThen_next,
    runPath_at _ _ _ _ hs, seqStep_finish _ _ hs]
  rfl

/-- A path that has only FINISH left. -/
theorem runPath_finishOnly (cfg : Config) (s : State) (hs : s.seq = .finish) :
    runPath cfg [.finish] s = .next (finishStep s) := runPath_finish cfg [] s hs (by simp)

/-- A command that fails CHECK completes with the first failure, whatever its path is (R198). -/
theorem issue_check_fail (cfg : Config) (i : Instr) (ps : List SeqState) (s : State) (c : ResultCode)
    (hb : s.busy = false) (hc : firstCheckFailure cfg i s = some c) (hps : SeqState.finish ∉ ps) :
    issue cfg (encode i) (.check :: (ps ++ [.finish])) s =
      .next (completed (encode i) c []
        { s with outLen := if clearsOutLen i then 0#64 else s.outLen }) := by
  have h : firstCheckFailure cfg i (accept (encode i) s) = some c := by
    exact (firstCheckFailure_congr cfg i s (accept (encode i) s) rfl rfl rfl rfl rfl).trans hc
  rw [issue_idle _ _ _ _ hb, runPath_at _ _ _ _ (accept_seq _ _), seqStep_check _ _ (accept_seq _ _),
    andThen_next, checkStep_encode _ i _ (accept_cmdRaw _ _), checkCommand_eq, h,
    runPath_finish _ _ _ (raise_seq _ _) hps]
  simp only [completed, finishStep, emit, raise, accept, List.append_nil]

/-! ## Getting a PRNG state and drawing -/

/-- A command that needs seeding and passes CHECK unseeded is at SEED; with a Seed waiting it seeds. -/
theorem seqStep_seeds (cfg : Config) (s : State) (seed : Bytes) (rest : List EntropyAnswer) (hs : s.seq = .seed)
    (he : s.env.entropy = .ok seed :: rest) (hl : seed.length = cfg.seedBytes) :
    seqStep cfg s = .next (seedDone seed { s with env := { s.env with entropy := rest } }) := by
  simp [seqStep_seed _ _ hs, seedStep, he, answerLegal, hl]

/-- From CHECK, GEN_NONCE and ENC reach the state after the draw, seeding first if needed (R130, R131, R134). -/
theorem runPath_toDraw (cfg : Config) (i : Instr) (ps : List SeqState) (s : State) (st : cfg.PState)
    (es : List Event) (rest : List EntropyAnswer) (hi : i = .genNonce ∨ i = .enc)
    (h : PrngReady cfg s st es rest) :
    ∃ o, pstateOf cfg o = st ∧ runPath cfg (.seed :: .draw :: ps) (checked i s) = runPath cfg ps
      { checked i s with
        nonce := drawNonce cfg st
        prngState := some (advanceOrigin o)
        nonceMask := 0xFF#8
        seeded := true
        hist := s.hist ++ es ++ [.draw 32]
        env := { s.env with entropy := rest }
        seq := if i = .genNonce then .finish else .kdfEnc } := by
  have hop : opcodeField (encode i) = opcodeOf i := opcodeField_encode i
  have hx : (if opcodeOf i = 0x1#4 then SeqState.finish else .kdfEnc) =
      if i = .genNonce then .finish else .kdfEnc := by rcases hi with rfl | rfl <;> rfl
  rcases h with ⟨h1, h2, rfl, rfl⟩ | ⟨h1, rfl, seed, hl, h2, rfl⟩
  · obtain ⟨o, ho, rfl⟩ := prngStateOf_some h2
    have hq : (checked i s).seq = .draw := by rcases hi with rfl | rfl <;> simp [checked, afterCheck, h1]
    refine ⟨o, rfl, ?_⟩
    rw [runPath_skip _ _ _ _ (by rw [hq]; simp), runPath_at _ _ _ _ hq, seqStep_draw _ _ hq,
      drawStep_some cfg (checked i s) o ho, andThen_next]
    simp only [checked, hop, hx, emit, h1, List.append_nil]
  · have hq : (checked i s).seq = .seed := by rcases hi with rfl | rfl <;> simp [checked, afterCheck, h1]
    have hq2 : (seedDone seed { checked i s with env := { s.env with entropy := rest } }).seq = .draw := by
      show (if opcodeField (encode i) = 0x6#4 then SeqState.finish else .draw) = _
      rw [hop]
      rcases hi with rfl | rfl <;> rfl
    refine ⟨seededOrigin seed, rfl, ?_⟩
    rw [runPath_at _ _ _ _ hq, seqStep_seeds cfg (checked i s) seed rest hq h2 hl, andThen_next,
      show (checked i s).env = s.env from rfl, runPath_at _ _ _ _ hq2, seqStep_draw _ _ hq2,
      drawStep_some cfg _ (seededOrigin seed) rfl, andThen_next, pstateOf_seeded]
    simp only [seedDone, checked, hop, hx, emit, List.append_assoc, List.cons_append, List.nil_append]

/-! ## The encrypting tail: KDF_ENC to FINISH -/

/-- OUT after SENC and FRAME have written the envelope (R146, R170). -/
def outAfterFrame (cfg : Config) (s : State) : Memory :=
  let c := cipherOf cfg s.key s.nonce (s.inBuf.readBytes 0 s.latLen.toNat)
  (((s.outBuf.writeBytes 72 c).writeBytes 0 s.nonce.toList).writeBytes 32
    (tagOf cfg s.key c).toList).writeBytes 64 (u64le s.latLen)

theorem cipherOf_length (cfg : Config) (key nonce : Bytes32) (p : Bytes) :
    (cipherOf cfg key nonce p).length = p.length := cfg.sencLen _ _ _

/-- From KDF_ENC an encrypting command completes with its envelope in OUT (R155). -/
theorem runPath_encryptTail (cfg : Config) (s : State) (hs : s.seq = .kdfEnc)
    (hop : opcodeField s.cmdRaw ≠ 0x4#4) (hl : s.latLen.toNat ≤ cfg.maxPt) :
    runPath cfg [.kdfEnc, .kdfMac, .senc, .macGen, .frame, .wipe, .finish] s =
      .next { s with
        kdfSel := .enc, skEnc := zero32, skMac := zero32, tagCalc := zero32, diff := 0#8, cmpI := 0
        outBuf := outAfterFrame cfg s, outLen := 72#64 + s.latLen
        hist := s.hist ++ [.kdf .enc, .kdf .mac, .senc s.latLen.toNat, .mac s.latLen.toNat, .finish s.pend]
        result := s.pend, busy := false, done := true, seq := .idle } := by
  rw [runPath_at _ _ _ _ hs, seqStep_kdfEnc _ _ hs, andThen_next,
    runPath_at _ _ _ _ (kdfEncStep_seq _ _), seqStep_kdfMac _ _ (kdfEncStep_seq _ _), andThen_next]
  have h3 : (kdfMacStep cfg (kdfEncStep cfg s)).seq = .senc := by
    rw [kdfMacStep_seq, kdfEncStep_cmdRaw, if_neg hop]
  rw [runPath_at _ _ _ _ h3, seqStep_senc _ _ h3, sencStep_inside _ _ (by simpa using hl), andThen_next,
    runPath_at _ .macGen _ _ (h := ?_), seqStep_macGen _ _ ?_, macGenStep_inside _ _ (by simpa using hl),
    andThen_next, runPath_at _ .frame _ _ (h := ?_), seqStep_frame _ _ ?_, frameStep_inside, andThen_next,
    runPath_at _ .wipe _ _ (h := ?_), seqStep_wipe _ _ ?_, andThen_next,
    runPath_at _ _ _ _ (wipeStep_seq _), seqStep_finish _ _ (wipeStep_seq _), andThen_next, runPath_nil]
  rotate_left
  · rfl
  · rfl
  · rfl
  · rfl
  · rfl
  · rfl
  have hlen : (cipherOf cfg s.key s.nonce (s.inBuf.readBytes 0 s.latLen.toNat)).length = s.latLen.toNat := by
    rw [cipherOf_length, Memory.readBytes_length]
  have hr := Memory.readBytes_writeBytes_same s.outBuf 72
    (cipherOf cfg s.key s.nonce (s.inBuf.readBytes 0 s.latLen.toNat))
  rw [hlen] at hr
  simp only [cipherOf] at hr
  simp only [sencOutput, cipherOf, finishStep, wipeStep, wipeSecrets, emit, kdfMacStep, kdfEncStep, derive, storeSubkey,
    pathLabel, hr, outAfterFrame, tagOf, List.append_assoc, List.cons_append, List.nil_append]

/-- OUT after FRAME holds the envelope, and is as before beyond it (R168, R170). -/
theorem outAfterFrame_envelope (cfg : Config) (s : State) :
    (outAfterFrame cfg s).readBytes 0 (72 + s.latLen.toNat) =
      envelope s.nonce (tagOf cfg s.key (cipherOf cfg s.key s.nonce (s.inBuf.readBytes 0 s.latLen.toNat)))
        (cipherOf cfg s.key s.nonce (s.inBuf.readBytes 0 s.latLen.toNat)) ∧
    ∀ a, 72 + s.latLen.toNat ≤ a → (outAfterFrame cfg s).read a = s.outBuf.read a := by
  have hlen : (cipherOf cfg s.key s.nonce (s.inBuf.readBytes 0 s.latLen.toNat)).length = s.latLen.toNat := by
    rw [cipherOf_length, Memory.readBytes_length]
  simp only [outAfterFrame]
  generalize cipherOf cfg s.key s.nonce (s.inBuf.readBytes 0 s.latLen.toNat) = c at *
  have h1 : BitVec.ofNat 64 c.length = s.latLen := by
    rw [hlen]
    simp
  constructor
  · have a1 := Memory.readBytes_writeBytes_same (s.outBuf.writeBytes 72 c) 0 s.nonce.toList
    have a2 := fun m => Memory.readBytes_writeBytes_same m 32 (tagOf cfg s.key c).toList
    have a3 := fun m => Memory.readBytes_writeBytes_same m 64 (u64le s.latLen)
    have a4 := Memory.readBytes_writeBytes_same s.outBuf 72 c
    rw [hlen] at a4
    simp only [Vector.length_toList, u64le_length] at a1 a2 a3
    rw [show 72 + s.latLen.toNat = 32 + (32 + (8 + s.latLen.toNat)) by omega, Memory.readBytes_add,
      Memory.readBytes_add, Memory.readBytes_add, envelope, h1]
    simp only [Nat.zero_add, Nat.reduceAdd]
    rw [Memory.readBytes_writeBytes_other _ _ _ _ _ (by simp),
      Memory.readBytes_writeBytes_other _ _ _ _ _ (by simp), a1,
      Memory.readBytes_writeBytes_other _ _ _ _ _ (by simp), a2, a3,
      Memory.readBytes_writeBytes_other _ _ _ _ _ (by simp),
      Memory.readBytes_writeBytes_other _ _ _ _ _ (by simp),
      Memory.readBytes_writeBytes_other _ _ _ _ _ (by simp), a4]
    simp only [List.append_assoc]
  · intro a ha
    rw [Memory.read_writeBytes_other _ _ _ _ (by simp; omega), Memory.read_writeBytes_other _ _ _ _ (by simp; omega),
      Memory.read_writeBytes_other _ _ _ _ (by simp; omega), Memory.read_writeBytes_other _ _ _ _ (by omega)]

/-! ## The 32 compares -/

/-- `diff` after the first `n` compares from `d` (R176). -/
def diffAfter (s : State) (d : BitVec 8) : Nat → BitVec 8
  | 0 => d
  | n + 1 => diffAfter s d n ||| (s.tagCalc.toList.getD n 0#8 ^^^ s.inBuf.read (32 + n))

/-- An OR of byte XORs is zero exactly when every XOR is (R177). -/
theorem diffAfter_eq_zero (s : State) (n : Nat) :
    diffAfter s 0#8 n = 0#8 ↔ ∀ i, i < n → s.tagCalc.toList.getD i 0#8 = s.inBuf.read (32 + i) := by
  induction n with
  | zero => simp [diffAfter]
  | succ n ih =>
    rw [diffAfter, BitVec.or_eq_zero_iff, ih, BitVec.xor_eq_zero_iff]
    constructor
    · rintro ⟨h1, h2⟩ i hi
      rcases Nat.lt_succ_iff_lt_or_eq.mp hi with h | rfl
      · exact h1 i h
      · exact h2
    · exact fun h => ⟨fun i hi => h i (by omega), h n (by omega)⟩

/-- The state `k` compares on: `diff`, `cmp_i` and the history have moved, nothing else. -/
def comparing (s : State) (k : Nat) (hk : k < 33) : State :=
  { s with diff := diffAfter s 0#8 k, cmpI := ⟨k, hk⟩, hist := s.hist ++ (List.range k).map .cmp }

theorem cmpStep_comparing (s : State) (k : Nat) (hk : k < 32) (hs : s.seq = .cmp) :
    cmpStep (comparing s k (by omega)) =
      if k + 1 < 32 then .next (comparing s (k + 1) (by omega))
      else .next (verdict (comparing s (k + 1) (by omega))) := by
  have hget : s.tagCalc.toList.getD k 0#8 = s.tagCalc[k] := by
    rw [List.getD_eq_getElem _ _ (by simpa using hk)]
    simp
  have he : ({ emit (.cmp k) (comparing s k (by omega)) with
        diff := compareByte (comparing s k (by omega)) ⟨k, hk⟩, cmpI := ⟨k + 1, by omega⟩ } : State) =
      comparing s (k + 1) (by omega) := by
    simp only [comparing, emit, compareByte, diffAfter, hget, List.range_succ, List.map_append,
      List.map_cons, List.map_nil, List.append_assoc]
  have hq : ∀ h, ({ comparing s (k + 1) h with seq := .cmp } : State) = comparing s (k + 1) h := by
    intro h
    rw [← hs]
    rfl
  rw [cmpStep_lt _ hk]
  show (if k + 1 < 32 then Host.Outcome.next _ else Host.Outcome.next _) = _
  split
  · exact congrArg _ ((congrArg (fun x : State => { x with seq := .cmp }) he).trans (hq _))
  · exact congrArg (fun x : State => (Host.Outcome.next (verdict x) : Result)) he

/-- `n` steps of the sequencer from the compare of byte `k`, all before the last. -/
theorem seqRun_comparing (cfg : Config) (s : State) (hs : s.seq = .cmp) (n k : Nat) (h : k + n < 32) :
    seqRun cfg n (comparing s k (by omega)) = .next (comparing s (k + n) (by omega)) := by
  induction n generalizing k with
  | zero => rfl
  | succ n ih =>
    rw [seqRun_succ, seqStep_cmp _ _ (by simpa [comparing] using hs), cmpStep_comparing s k (by omega) hs,
      if_pos (by omega), andThen_next, ih (k + 1) (by omega)]
    congr 2
    omega

theorem comparing_zero (s : State) (hd : s.diff = 0#8) (hi : s.cmpI = 0) : comparing s 0 (by omega) = s := by
  cases s
  simp only at hd hi
  subst hd hi
  simp [comparing, diffAfter]

/-- All 32 compares, from a fresh accumulator to the verdict. -/
theorem seqRun_compare (cfg : Config) (s : State) (hs : s.seq = .cmp) (hd : s.diff = 0#8) (hi : s.cmpI = 0) :
    seqRun cfg 32 s = .next (verdict (comparing s 32 (by omega))) := by
  have h := seqRun_comparing cfg s hs 31 0 (by omega)
  rw [comparing_zero s hd hi] at h
  refine (seqRun_add cfg 31 1 s).trans ?_
  rw [h, andThen_next, seqRun_succ,
    seqStep_cmp _ _ (by simpa [comparing] using hs), cmpStep_comparing s 31 (by omega) hs,
    if_neg (by omega), andThen_next]
  rfl

/-- A path of CMP states is so many steps while the sequencer stays in CMP. -/
theorem runPath_comparing (cfg : Config) (s : State) (hs : s.seq = .cmp) (n k : Nat) (h : k + n = 32) (hn : 0 < n) :
    runPath cfg (List.replicate n .cmp) (comparing s k (by omega)) =
      .next (verdict (comparing s 32 (by omega))) := by
  induction n generalizing k with
  | zero => omega
  | succ n ih =>
    have hc : (comparing s k (by omega)).seq = .cmp := by simpa [comparing] using hs
    rw [List.replicate_succ, runPath_at _ _ _ _ hc, seqStep_cmp _ _ hc, cmpStep_comparing s k (by omega) hs]
    by_cases hk : k + 1 < 32
    · rw [if_pos hk, andThen_next, ih (k + 1) (by omega) (by omega)]
    · have hn0 : n = 0 := by omega
      subst hn0
      rw [if_neg hk, andThen_next]
      have : k + 1 = 32 := by omega
      simp only [List.replicate_zero, runPath_nil, this]

/-- The verdict is byte equality of the computed MAC and the MAC field (R177). -/
theorem diffAfter_mac (s : State) : diffAfter s 0#8 32 = 0#8 ↔ macField s.inBuf = s.tagCalc := by
  rw [diffAfter_eq_zero]
  constructor
  · intro h
    ext i hi
    rw [macField, Memory.readBlock_getElem _ _ _ hi, ← h i hi,
      List.getD_eq_getElem _ _ (by simpa using hi)]
    simp
  · intro h i hi
    rw [← h, List.getD_eq_getElem _ _ (by simpa using hi)]
    simp only [macField, Memory.readBlock_toList]
    exact Memory.readBytes_getElem _ _ _ _ (by simpa [Memory.readBytes_length] using hi)

/-! ## The decrypting tail: KDF_ENC to FINISH -/

/-- The state at the first compare of a DEC_RAW that is at KDF_ENC in `s`. -/
def atCompare (cfg : Config) (s : State) : State :=
  { s with
    kdfSel := .mac
    skEnc := cfg.kdf s.key cfg.labelEnc
    skMac := cfg.kdf s.key cfg.labelMac
    tagCalc := tagOf cfg s.key (s.inBuf.readBytes 72 s.latLen.toNat)
    diff := 0#8
    cmpI := 0
    hist := s.hist ++ [.kdf .enc, .kdf .mac, .mac s.latLen.toNat]
    seq := .cmp }

/-- KDF_ENC, KDF_MAC and MAC_CHK of a DEC_RAW (R157). -/
theorem seqRun_toCompare (cfg : Config) (s : State) (hs : s.seq = .kdfEnc)
    (hop : opcodeField s.cmdRaw = 0x4#4) (hl : s.latLen.toNat ≤ cfg.maxPt) :
    seqRun cfg 3 s = .next (atCompare cfg s) := by
  have h3 : (kdfMacStep cfg (kdfEncStep cfg s)).seq = .macChk := by
    rw [kdfMacStep_seq, kdfEncStep_cmdRaw, if_pos hop]
  rw [seqRun_succ, seqStep_kdfEnc _ _ hs, andThen_next, seqRun_succ,
    seqStep_kdfMac _ _ (kdfEncStep_seq _ _), andThen_next, seqRun_succ, seqStep_macChk _ _ h3,
    macChkStep_inside _ _ (by simpa using hl), andThen_next, seqRun_zero]
  simp only [atCompare, emit, kdfMacStep, kdfEncStep, derive, storeSubkey, pathLabel, tagOf,
    List.append_assoc, List.cons_append, List.nil_append]

theorem runPath_toCompare (cfg : Config) (s : State) (ps : List SeqState) (hs : s.seq = .kdfEnc)
    (hop : opcodeField s.cmdRaw = 0x4#4) (hl : s.latLen.toNat ≤ cfg.maxPt) :
    runPath cfg (.kdfEnc :: .kdfMac :: .macChk :: ps) s = runPath cfg ps (atCompare cfg s) := by
  have h3 : (kdfMacStep cfg (kdfEncStep cfg s)).seq = .macChk := by
    rw [kdfMacStep_seq, kdfEncStep_cmdRaw, if_pos hop]
  have h := seqRun_toCompare cfg s hs hop hl
  rw [seqRun_succ, seqStep_kdfEnc _ _ hs, andThen_next, seqRun_succ,
    seqStep_kdfMac _ _ (kdfEncStep_seq _ _), andThen_next, seqRun_succ, seqStep_macChk _ _ h3] at h
  rw [runPath_at _ _ _ _ hs, seqStep_kdfEnc _ _ hs, andThen_next,
    runPath_at _ _ _ _ (kdfEncStep_seq _ _), seqStep_kdfMac _ _ (kdfEncStep_seq _ _), andThen_next,
    runPath_at _ _ _ _ h3, seqStep_macChk _ _ h3]
  obtain ⟨t, h1, h2⟩ := andThen_eq_next h
  rw [h1, andThen_next]
  simp only [seqRun_zero, Host.Outcome.next.injEq] at h2
  rw [h2]

/-- The path of DEC_RAW after CHECK. -/
def decryptTail : List SeqState :=
  .kdfEnc :: .kdfMac :: .macChk :: (List.replicate 32 .cmp ++ [.sdec, .wipe, .finish])

/-- The path of DEC_RAW after CHECK, up to the verdict. -/
theorem runPath_toVerdict (cfg : Config) (s : State) (hs : s.seq = .kdfEnc)
    (hop : opcodeField s.cmdRaw = 0x4#4) (hl : s.latLen.toNat ≤ cfg.maxPt) :
    runPath cfg decryptTail s =
      runPath cfg [.sdec, .wipe, .finish] (verdict (comparing (atCompare cfg s) 32 (by omega))) := by
  have h := runPath_comparing cfg (atCompare cfg s) rfl 32 0 rfl (by omega)
  rw [comparing_zero _ rfl rfl] at h
  rw [decryptTail, runPath_toCompare cfg s _ hs hop hl, runPath_append, h, andThen_next]

/-- From KDF_ENC a DEC_RAW whose MAC matches completes with the plaintext in OUT (R157). -/
theorem runPath_decryptTail_match (cfg : Config) (s : State) (hs : s.seq = .kdfEnc)
    (hop : opcodeField s.cmdRaw = 0x4#4) (hl : s.latLen.toNat ≤ cfg.maxPt)
    (hm : macField s.inBuf = tagOf cfg s.key (s.inBuf.readBytes 72 s.latLen.toNat)) :
    runPath cfg decryptTail s =
      .next { s with
        kdfSel := .enc, skEnc := zero32, skMac := zero32, tagCalc := zero32, diff := 0#8, cmpI := 0
        outBuf := s.outBuf.writeBytes 0 (cfg.sdec (cfg.kdf s.key cfg.labelEnc) (nonceField s.inBuf)
          (s.inBuf.readBytes 72 s.latLen.toNat))
        outLen := s.latLen
        hist := s.hist ++ [.kdf .enc, .kdf .mac, .mac s.latLen.toNat] ++ compareEvents ++
          [.sdec s.latLen.toNat, .finish s.pend]
        result := s.pend, busy := false, done := true, seq := .idle } := by
  have hz : diffAfter (atCompare cfg s) 0#8 32 = 0#8 := (diffAfter_mac _).mpr hm
  have hv : verdict (comparing (atCompare cfg s) 32 (by omega)) =
      { comparing (atCompare cfg s) 32 (by omega) with seq := .sdec } := by
    rw [verdict, if_pos (by simpa [comparing] using hz)]
  rw [runPath_toVerdict cfg s hs hop hl, hv, runPath_at _ .sdec _ _ (h := ?_), seqStep_sdec _ _ ?_,
    sdecStep_inside _ _ (by simpa [comparing, atCompare] using hl), andThen_next,
    runPath_at _ .wipe _ _ (h := ?_), seqStep_wipe _ _ ?_, andThen_next,
    runPath_at _ _ _ _ (wipeStep_seq _), seqStep_finish _ _ (wipeStep_seq _), andThen_next, runPath_nil]
  rotate_left
  · rfl
  · rfl
  · rfl
  · rfl
  simp only [finishStep, wipeStep, wipeSecrets, emit, comparing, atCompare, compareEvents,
    List.append_assoc, List.cons_append, List.nil_append]

/-- From KDF_ENC a DEC_RAW whose MAC differs completes with BAD_MAC and OUT as it was (R157). -/
theorem runPath_decryptTail_differ (cfg : Config) (s : State) (hs : s.seq = .kdfEnc)
    (hop : opcodeField s.cmdRaw = 0x4#4) (hl : s.latLen.toNat ≤ cfg.maxPt)
    (hm : macField s.inBuf ≠ tagOf cfg s.key (s.inBuf.readBytes 72 s.latLen.toNat)) :
    runPath cfg decryptTail s =
      .next { s with
        kdfSel := .enc, skEnc := zero32, skMac := zero32, tagCalc := zero32, diff := 0#8, cmpI := 0
        hist := s.hist ++ [.kdf .enc, .kdf .mac, .mac s.latLen.toNat] ++ compareEvents ++
          [.finish (codeOf .badMac)]
        pend := codeOf .badMac, result := codeOf .badMac, busy := false, done := true, seq := .idle } := by
  have hz : diffAfter (atCompare cfg s) 0#8 32 ≠ 0#8 := fun h => hm ((diffAfter_mac _).mp h)
  have hv : verdict (comparing (atCompare cfg s) 32 (by omega)) =
      { comparing (atCompare cfg s) 32 (by omega) with pend := codeOf .badMac, seq := .wipe } := by
    rw [verdict, if_neg (by simpa [comparing] using hz)]
  rw [runPath_toVerdict cfg s hs hop hl, hv, runPath_skip _ .sdec _ _ (h := ?_),
    runPath_at _ .wipe _ _ (h := ?_), seqStep_wipe _ _ ?_, andThen_next,
    runPath_at _ _ _ _ (wipeStep_seq _), seqStep_finish _ _ (wipeStep_seq _), andThen_next, runPath_nil]
  rotate_left
  · rfl
  · rfl
  · exact SeqState.noConfusion
  simp only [finishStep, wipeStep, wipeSecrets, emit, comparing, atCompare, compareEvents,
    List.append_assoc, List.cons_append, List.nil_append]

end Sys2Proof.Machine
end

