-- ==== Sys2Proof/Laws/PerInstr.lean ====
section
/-! SUPPORT. The statements made per command: each command's word is well formed, its RSVD is 0, its OPCODE is
assigned, and no other command has it. -/

namespace Sys2Proof.Laws.EncodedWord

/-- The word of a command: it is well formed, its field RSVD is 0, its OPCODE is below 7, and a command
with the same word is the same command (R92, R94). -/
def Statement (i : Instr) : Prop :=
  i.wellFormed = true ∧ CmdWord.wellFormed (encode i) = true ∧ reservedField (encode i) = 0#28 ∧
    (opcodeField (encode i)).toNat < 7 ∧ ∀ j, encode j = encode i → j = i

theorem nop : Statement .nop := ⟨rfl, rfl, rfl, by decide, fun j => by cases j <;> decide⟩
theorem genNonce : Statement .genNonce := ⟨rfl, rfl, rfl, by decide, fun j => by cases j <;> decide⟩
theorem encRaw : Statement .encRaw := ⟨rfl, rfl, rfl, by decide, fun j => by cases j <;> decide⟩
theorem enc : Statement .enc := ⟨rfl, rfl, rfl, by decide, fun j => by cases j <;> decide⟩
theorem decRaw : Statement .decRaw := ⟨rfl, rfl, rfl, by decide, fun j => by cases j <;> decide⟩
theorem zeroize : Statement .zeroize := ⟨rfl, rfl, rfl, by decide, fun j => by cases j <;> decide⟩
theorem seed : Statement .seed := ⟨rfl, rfl, rfl, by decide, fun j => by cases j <;> decide⟩

end Sys2Proof.Laws.EncodedWord
end

