-- ==== Sys2Proof/Laws/Sequencer.lean ====
section
/-! SUPPORT. Everything one step of the sequencer can do, once, and the rules that follow for every step. -/

namespace Sys2Proof.Machine

/-- Every next state a step of the sequencer can answer, with the state it was in. -/
inductive SeqNext (cfg : Config) (s : State) : State → Prop where
  | idle (h : s.seq = .idle) : SeqNext cfg s s
  | illegal (h : s.seq = .check) (why : IllegalWord) (hd : decode s.cmdRaw = .illegal why) :
      SeqNext cfg s (raise .illegal s)
  | fails (h : s.seq = .check) (i : Instr) (hd : decode s.cmdRaw = .command i) (c : ResultCode)
      (hc : firstCheckFailure cfg i s = some c) :
      SeqNext cfg s (raise c { s with outLen := if clearsOutLen i then 0#64 else s.outLen })
  | passes (h : s.seq = .check) (i : Instr) (hd : decode s.cmdRaw = .command i)
      (hc : firstCheckFailure cfg i s = none) :
      SeqNext cfg s { s with
        outLen := if clearsOutLen i then 0#64 else s.outLen
        latLen := latchedLength i s.dataLen
        seq := afterCheck i s.seeded }
  | waits (h : s.seq = .seed) (he : ∀ a rest, s.env.entropy = a :: rest → answerLegal cfg a = false) :
      SeqNext cfg s s
  | seedFails (h : s.seq = .seed) (rest : List EntropyAnswer) (he : s.env.entropy = .fail :: rest) :
      SeqNext cfg s (seedFailed { s with env := { s.env with entropy := rest } })
  | seeds (h : s.seq = .seed) (seed : Bytes) (rest : List EntropyAnswer)
      (he : s.env.entropy = .ok seed :: rest) (hl : seed.length = cfg.seedBytes) :
      SeqNext cfg s (seedDone seed { s with env := { s.env with entropy := rest } })
  | draws (h : s.seq = .draw) (o : PrngOrigin) (hp : s.prngState = some o) :
      SeqNext cfg s (emit (.draw 32)
        { s with
          nonce := drawNonce cfg (pstateOf cfg o)
          prngState := some (advanceOrigin o)
          nonceMask := 0xFF#8
          seq := if opcodeField s.cmdRaw = 0x1#4 then .finish else .kdfEnc })
  | kdfEnc (h : s.seq = .kdfEnc) : SeqNext cfg s (kdfEncStep cfg s)
  | kdfMac (h : s.seq = .kdfMac) : SeqNext cfg s (kdfMacStep cfg s)
  | senc (h : s.seq = .senc) (hl : 72 + s.latLen.toNat ≤ cfg.bufBytes) :
      SeqNext cfg s { emit (.senc s.latLen.toNat) s with
        outBuf := s.outBuf.writeBytes 72 (sencOutput cfg s), seq := .macGen }
  | macGen (h : s.seq = .macGen) (hl : 72 + s.latLen.toNat ≤ cfg.bufBytes) :
      SeqNext cfg s { emit (.mac s.latLen.toNat) s with
        tagCalc := cfg.macf s.skMac (s.outBuf.readBytes 72 s.latLen.toNat), seq := .frame }
  | frame (h : s.seq = .frame) :
      SeqNext cfg s { s with
        outBuf := ((s.outBuf.writeBytes 0 s.nonce.toList).writeBytes 32 s.tagCalc.toList).writeBytes 64
          (u64le s.latLen)
        outLen := 72#64 + s.latLen, seq := .wipe }
  | macChk (h : s.seq = .macChk) (hl : 72 + s.latLen.toNat ≤ cfg.bufBytes) :
      SeqNext cfg s { emit (.mac s.latLen.toNat) s with
        tagCalc := cfg.macf s.skMac (s.inBuf.readBytes 72 s.latLen.toNat)
        diff := 0#8, cmpI := 0, seq := .cmp }
  | compares (h : s.seq = .cmp) (k : Fin 32) (hk : k.val + 1 < 32) (hi : s.cmpI.val = k.val) :
      SeqNext cfg s { emit (.cmp k.val) s with
        diff := compareByte s k, cmpI := ⟨k.val + 1, by omega⟩, seq := .cmp }
  | decides (h : s.seq = .cmp) (hi : s.cmpI.val = 31) :
      SeqNext cfg s (verdict { emit (.cmp 31) s with diff := compareByte s 31, cmpI := 32 })
  | sdec (h : s.seq = .sdec) (hl : 72 + s.latLen.toNat ≤ cfg.bufBytes) :
      SeqNext cfg s { emit (.sdec s.latLen.toNat) s with
        outBuf := s.outBuf.writeBytes 0
          (cfg.sdec s.skEnc (nonceField s.inBuf) (s.inBuf.readBytes 72 s.latLen.toNat))
        outLen := s.latLen, seq := .wipe }
  | wipe (h : s.seq = .wipe) : SeqNext cfg s (wipeStep s)
  | clear (h : s.seq = .clear) : SeqNext cfg s (clearStep s)
  | finish (h : s.seq = .finish) : SeqNext cfg s (finishStep s)

/-- A step of the sequencer that answers a next state is one of these. -/
theorem seqStep_next {cfg : Config} {s t : State} (h : seqStep cfg s = .next t) : SeqNext cfg s t := by
  cases hs : s.seq with
  | idle => rw [seqStep_idle _ _ hs] at h; cases h; exact .idle hs
  | check =>
    rw [seqStep_check _ _ hs] at h
    cases h
    unfold checkStep
    split
    · next why hd => exact .illegal hs why hd
    · next i hd =>
      rw [checkCommand_eq]
      split
      · next c hc => exact .fails hs i hd c hc
      · next hc => exact .passes hs i hd hc
  | seed =>
    rw [seqStep_seed _ _ hs] at h
    cases h
    rcases seedStep_cases cfg s with ⟨e, he⟩ | ⟨rest, he, e⟩ | ⟨seed, rest, he, hl, e⟩
    · rw [e]; exact .waits hs he
    · rw [e]; exact .seedFails hs rest he
    · rw [e]; exact .seeds hs seed rest he hl
  | draw =>
    rw [seqStep_draw _ _ hs] at h
    cases hp : s.prngState with
    | none => simp [drawStep, hp] at h
    | some st => rw [drawStep_some _ _ st hp] at h; cases h; exact .draws hs st hp
  | kdfEnc => rw [seqStep_kdfEnc _ _ hs] at h; cases h; exact .kdfEnc hs
  | kdfMac => rw [seqStep_kdfMac _ _ hs] at h; cases h; exact .kdfMac hs
  | senc =>
    rw [seqStep_senc _ _ hs, sencStep] at h
    obtain ⟨_, h⟩ := memRead_next h
    obtain ⟨hl, h⟩ := memWrite_next h
    cases h
    rw [show (cfg.senc s.skEnc s.nonce (s.inBuf.readBytes 0 s.latLen.toNat)).length = s.latLen.toNat from
      sencOutput_length cfg s] at hl
    exact .senc hs hl
  | macGen =>
    rw [seqStep_macGen _ _ hs, macGenStep] at h
    obtain ⟨hl, h⟩ := memRead_next h
    cases h
    exact .macGen hs hl
  | frame => rw [seqStep_frame _ _ hs, frameStep_inside] at h; cases h; exact .frame hs
  | macChk =>
    rw [seqStep_macChk _ _ hs, macChkStep] at h
    obtain ⟨hl, h⟩ := memRead_next h
    cases h
    exact .macChk hs hl
  | cmp =>
    rw [seqStep_cmp _ _ hs] at h
    by_cases hk : s.cmpI.val < 32
    · rw [cmpStep_lt _ hk] at h
      simp only at h
      split at h
      · next hlt => cases h; exact .compares hs ⟨s.cmpI.val, hk⟩ hlt rfl
      · next hge =>
        cases h
        have hi : s.cmpI.val = 31 := by omega
        have hf : s.cmpI = ⟨31, by omega⟩ := Fin.ext hi
        have := SeqNext.decides (cfg := cfg) hs hi
        simp only [hf] at this ⊢
        exact this
    · simp [cmpStep, hk] at h
  | sdec =>
    rw [seqStep_sdec _ _ hs, sdecStep] at h
    obtain ⟨hl, h⟩ := memRead_next h
    obtain ⟨_, h⟩ := memWrite_next h
    cases h
    exact .sdec hs hl
  | wipe => rw [seqStep_wipe _ _ hs] at h; cases h; exact .wipe hs
  | clear => rw [seqStep_clear _ _ hs] at h; cases h; exact .clear hs
  | finish => rw [seqStep_finish _ _ hs] at h; cases h; exact .finish hs

/-- In a consistent state a step of the sequencer answers a next state. -/
theorem seqStep_answers (cfg : Config) (s : State) (h : SeqConsistent cfg s) :
    ∃ t, seqStep cfg s = .next t := by
  have hl : usesLength s.seq = true → s.latLen.toNat ≤ cfg.maxPt := h.atData
  cases hs : s.seq with
  | idle => exact ⟨_, seqStep_idle _ _ hs⟩
  | check => exact ⟨_, seqStep_check _ _ hs⟩
  | seed => exact ⟨_, seqStep_seed _ _ hs⟩
  | draw =>
    obtain ⟨st, hp⟩ := Option.isSome_iff_exists.mp (h.atDraw hs).1
    exact ⟨_, (seqStep_draw _ _ hs).trans (drawStep_some _ _ st hp)⟩
  | kdfEnc => exact ⟨_, seqStep_kdfEnc _ _ hs⟩
  | kdfMac => exact ⟨_, seqStep_kdfMac _ _ hs⟩
  | senc => exact ⟨_, (seqStep_senc _ _ hs).trans (sencStep_inside _ _ (hl (by rw [hs]; rfl)))⟩
  | macGen => exact ⟨_, (seqStep_macGen _ _ hs).trans (macGenStep_inside _ _ (hl (by rw [hs]; rfl)))⟩
  | frame => exact ⟨_, (seqStep_frame _ _ hs).trans (frameStep_inside _ _)⟩
  | macChk => exact ⟨_, (seqStep_macChk _ _ hs).trans (macChkStep_inside _ _ (hl (by rw [hs]; rfl)))⟩
  | cmp =>
    rw [seqStep_cmp _ _ hs, cmpStep_lt _ (h.atCmp hs)]
    dsimp only
    split <;> exact ⟨_, rfl⟩
  | sdec => exact ⟨_, (seqStep_sdec _ _ hs).trans (sdecStep_inside _ _ (hl (by rw [hs]; rfl)))⟩
  | wipe => exact ⟨_, seqStep_wipe _ _ hs⟩
  | clear => exact ⟨_, seqStep_clear _ _ hs⟩
  | finish => exact ⟨_, seqStep_finish _ _ hs⟩

/-- The 32nd compare goes to SDEC on equality and to WIPE with BAD_MAC otherwise; nothing else moves. -/
theorem verdict_cases (s : State) :
    (s.diff = 0#8 ∧ verdict s = { s with seq := .sdec }) ∨
    (s.diff ≠ 0#8 ∧ verdict s = { s with pend := codeOf .badMac, seq := .wipe }) := by
  by_cases h : s.diff = 0#8
  · exact .inl ⟨h, if_pos h⟩
  · exact .inr ⟨h, if_neg h⟩

/-! ## The PRNG state and the waiting answers -/

/-- An event more in the history counts as a draw exactly when it is one. -/
theorem drawCount_append (es : List Event) (e : Event) :
    drawCount (es ++ [e]) = drawCount es + drawCount [e] := by
  simp [drawCount, List.countP_append]

/-- A step of the sequencer keeps the PRNG state at the draws of the epoch's history (R131, R134, R136). -/
theorem SeqNext.prngMatches {cfg : Config} {s t : State} (h : SeqNext cfg s t) (hp : PrngMatches cfg s)
    (hs : SeedingMatches s) (hq : s.seq = .seed → s.seeded = false) : PrngMatches cfg t := by
  have same : ∀ u : State, u.prngState = s.prngState → drawCount u.hist = drawCount s.hist →
      PrngMatches cfg u := by
    intro u h1 h2
    unfold PrngMatches at *
    rw [h1, h2]
    exact hp
  cases h with
  | draws h o ho =>
    unfold PrngMatches at *
    rw [ho] at hp
    refine ⟨hp.1, ?_⟩
    show o.draws + 1 = drawCount (s.hist ++ _)
    rw [drawCount_append, hp.2]
    rfl
  | seeds h seed rest he hl =>
    have hn : s.prngState = none := by
      cases ho : s.prngState with
      | none => rfl
      | some o =>
        have := hs.1.mpr (by simp [ho])
        simp [hq h] at this
    unfold PrngMatches at *
    rw [hn] at hp
    refine ⟨hl, ?_⟩
    show 0 = drawCount (s.hist ++ _)
    rw [drawCount_append, hp]
    rfl
  | decides h hi =>
    rcases verdict_cases { emit (.cmp 31) s with diff := compareByte s 31, cmpI := 32 } with ⟨_, e⟩ | ⟨_, e⟩ <;>
      rw [e] <;> exact same _ rfl (drawCount_append _ _)
  | _ => first | exact same _ rfl rfl | exact same _ rfl (drawCount_append _ _)

/-- A step of the sequencer takes at most the first of the waiting answers and adds none (R111). -/
theorem SeqNext.answersLegal {cfg : Config} {s t : State} (h : SeqNext cfg s t) (ha : AnswersLegal cfg s) :
    AnswersLegal cfg t := by
  have same : ∀ u : State, u.env = s.env → AnswersLegal cfg u := by
    intro u h1
    unfold AnswersLegal at *
    rw [h1]
    exact ha
  cases h with
  | seeds h seed rest he hl => exact fun a hm => ha a (by rw [he]; exact List.mem_cons_of_mem _ hm)
  | seedFails h rest he => exact fun a hm => ha a (by rw [he]; exact List.mem_cons_of_mem _ hm)
  | decides h hi =>
    rcases verdict_cases { emit (.cmp 31) s with diff := compareByte s 31, cmpI := 32 } with ⟨_, e⟩ | ⟨_, e⟩ <;>
      rw [e] <;> exact same _ rfl
  | _ => exact same _ rfl

theorem verdict_withoutMove (ms : List Move) (s : State) :
    verdict (withoutMove ms s) = withoutMove ms (verdict s) := by
  rcases verdict_cases s with ⟨h, e⟩ | ⟨h, e⟩
  · rw [e]
    exact if_pos h
  · rw [e]
    exact if_neg h

/-- A step of the sequencer neither reads nor writes the moves to come. -/
theorem seqStep_withoutMove (cfg : Config) (ms : List Move) (s : State) :
    seqStep cfg (withoutMove ms s) = andThen (seqStep cfg s) fun t => .next (withoutMove ms t) := by
  cases hs : s.seq with
  | idle => rw [seqStep_idle _ s hs, seqStep_idle _ (withoutMove ms s) hs]; rfl
  | check =>
    rw [seqStep_check _ s hs, seqStep_check _ (withoutMove ms s) hs]
    unfold checkStep
    rw [show (withoutMove ms s).cmdRaw = s.cmdRaw from rfl]
    split
    · rfl
    · rw [checkCommand_eq, checkCommand_eq, firstCheckFailure_congr cfg _ s
        (withoutMove ms s) rfl rfl rfl rfl rfl]
      split <;> rfl
  | seed =>
    rw [seqStep_seed _ s hs, seqStep_seed _ (withoutMove ms s) hs]
    unfold seedStep
    rw [show (withoutMove ms s).env.entropy = s.env.entropy from rfl]
    split
    · rfl
    · split
      · split <;> rfl
      · rfl
  | draw =>
    rw [seqStep_draw _ s hs, seqStep_draw _ (withoutMove ms s) hs]
    unfold drawStep
    rw [show (withoutMove ms s).prngState = s.prngState from rfl]
    split <;> rfl
  | kdfEnc => rw [seqStep_kdfEnc _ s hs, seqStep_kdfEnc _ (withoutMove ms s) hs]; rfl
  | kdfMac => rw [seqStep_kdfMac _ s hs, seqStep_kdfMac _ (withoutMove ms s) hs]; rfl
  | senc =>
    rw [seqStep_senc _ s hs, seqStep_senc _ (withoutMove ms s) hs]
    by_cases h1 : 0 + s.latLen.toNat ≤ cfg.bufBytes
    · rw [sencStep, sencStep, memRead_inside _ _ _ _ _ h1,
        memRead_inside cfg (withoutMove ms s).inBuf 0 (withoutMove ms s).latLen.toNat _ h1]
      by_cases h2 : headerBytes + (cfg.senc s.skEnc s.nonce (s.inBuf.readBytes 0 s.latLen.toNat)).length ≤ cfg.bufBytes
      · rw [memWrite_inside _ _ _ _ _ h2, memWrite_inside cfg (withoutMove ms s).outBuf headerBytes
          (cfg.senc (withoutMove ms s).skEnc (withoutMove ms s).nonce ((withoutMove ms s).inBuf.readBytes 0 (withoutMove ms s).latLen.toNat)) _ h2]
        rfl
      · rw [memWrite_outside _ _ _ _ _ h2, memWrite_outside cfg (withoutMove ms s).outBuf headerBytes
          (cfg.senc (withoutMove ms s).skEnc (withoutMove ms s).nonce ((withoutMove ms s).inBuf.readBytes 0 (withoutMove ms s).latLen.toNat)) _ h2]
        rfl
    · rw [sencStep, sencStep, memRead_outside _ _ _ _ _ h1,
        memRead_outside cfg (withoutMove ms s).inBuf 0 (withoutMove ms s).latLen.toNat _ h1]
      rfl
  | macGen =>
    rw [seqStep_macGen _ s hs, seqStep_macGen _ (withoutMove ms s) hs]
    by_cases h1 : headerBytes + s.latLen.toNat ≤ cfg.bufBytes
    · rw [macGenStep, macGenStep, memRead_inside _ _ _ _ _ h1,
        memRead_inside cfg (withoutMove ms s).outBuf _ (withoutMove ms s).latLen.toNat _ h1]
      rfl
    · rw [macGenStep, macGenStep, memRead_outside _ _ _ _ _ h1,
        memRead_outside cfg (withoutMove ms s).outBuf _ (withoutMove ms s).latLen.toNat _ h1]
      rfl
  | frame => rw [seqStep_frame _ s hs, seqStep_frame _ (withoutMove ms s) hs, frameStep_inside, frameStep_inside]; rfl
  | macChk =>
    rw [seqStep_macChk _ s hs, seqStep_macChk _ (withoutMove ms s) hs]
    by_cases h1 : headerBytes + s.latLen.toNat ≤ cfg.bufBytes
    · rw [macChkStep, macChkStep, memRead_inside _ _ _ _ _ h1,
        memRead_inside cfg (withoutMove ms s).inBuf _ (withoutMove ms s).latLen.toNat _ h1]
      rfl
    · rw [macChkStep, macChkStep, memRead_outside _ _ _ _ _ h1,
        memRead_outside cfg (withoutMove ms s).inBuf _ (withoutMove ms s).latLen.toNat _ h1]
      rfl
  | cmp =>
    rw [seqStep_cmp _ s hs, seqStep_cmp _ (withoutMove ms s) hs]
    by_cases hk : s.cmpI.val < 32
    · rw [cmpStep_lt s hk, cmpStep_lt (withoutMove ms s) hk]
      dsimp only
      by_cases hlt : s.cmpI.val + 1 < 32
      · rw [if_pos hlt, if_pos (show (withoutMove ms s).cmpI.val + 1 < 32 from hlt)]
        rfl
      · rw [if_neg hlt, if_neg (show ¬(withoutMove ms s).cmpI.val + 1 < 32 from hlt), andThen_next]
        exact congrArg Host.Outcome.next (verdict_withoutMove ms { emit (.cmp s.cmpI.val) s with
          diff := compareByte s ⟨s.cmpI.val, hk⟩, cmpI := ⟨s.cmpI.val + 1, by omega⟩ })
    · unfold cmpStep
      rw [dif_neg hk, dif_neg (by exact hk)]; rfl
  | sdec =>
    rw [seqStep_sdec _ s hs, seqStep_sdec _ (withoutMove ms s) hs]
    by_cases h1 : headerBytes + s.latLen.toNat ≤ cfg.bufBytes
    · rw [sdecStep, sdecStep, memRead_inside _ _ _ _ _ h1,
        memRead_inside cfg (withoutMove ms s).inBuf _ (withoutMove ms s).latLen.toNat _ h1]
      by_cases h2 : 0 + (cfg.sdec s.skEnc (nonceField s.inBuf) (s.inBuf.readBytes headerBytes s.latLen.toNat)).length ≤ cfg.bufBytes
      · rw [memWrite_inside _ _ _ _ _ h2, memWrite_inside cfg (withoutMove ms s).outBuf 0
          (cfg.sdec (withoutMove ms s).skEnc (nonceField (withoutMove ms s).inBuf) ((withoutMove ms s).inBuf.readBytes headerBytes (withoutMove ms s).latLen.toNat)) _ h2]
        rfl
      · rw [memWrite_outside _ _ _ _ _ h2, memWrite_outside cfg (withoutMove ms s).outBuf 0
          (cfg.sdec (withoutMove ms s).skEnc (nonceField (withoutMove ms s).inBuf) ((withoutMove ms s).inBuf.readBytes headerBytes (withoutMove ms s).latLen.toNat)) _ h2]
        rfl
    · rw [sdecStep, sdecStep, memRead_outside _ _ _ _ _ h1,
        memRead_outside cfg (withoutMove ms s).inBuf _ (withoutMove ms s).latLen.toNat _ h1]
      rfl
  | wipe => rw [seqStep_wipe _ s hs, seqStep_wipe _ (withoutMove ms s) hs]; rfl
  | clear => rw [seqStep_clear _ s hs, seqStep_clear _ (withoutMove ms s) hs]; rfl
  | finish => rw [seqStep_finish _ s hs, seqStep_finish _ (withoutMove ms s) hs]; rfl

end Sys2Proof.Machine
end

