-- ==== Sys2Proof/Tests/Slice0.lean ====
section
/-! SUPPORT. The model's own tests: ill-formed words and lines, written-out words, vectors of 95_test_vectors.md under the
test configuration TC of D44, and a witness for the hypotheses of each statement. -/

namespace Sys2Proof.Machine.Tests

open Sys2Proof Sys2Proof.Machine

/-! ## Ill-formed words and lines -/

/-- R93: OPCODE 0x7 is reserved. -/
theorem test_wf_reserved_opcode : CmdWord.wellFormed 0x00000007#32 = false := by decide
/-- R94: bit 4 is reserved. -/
theorem test_wf_reserved_bit : CmdWord.wellFormed 0x00000010#32 = false := by decide
/-- R92: the largest assigned opcode. -/
theorem test_wf_last_opcode : CmdWord.wellFormed 0x00000006#32 = true := by decide
/-- R69: an offset of host assembly is 4-byte aligned. -/
theorem test_wf_misaligned_line : HostLine.wellFormed [] (.rd 0x00012#18 none) = false := by decide
/-- R98: a name is used only if some RD line gives it a value. -/
theorem test_wf_unread_name : hostProgramWellFormed [.wr 0x10000#18 (.name 3)] = false := by decide
/-- R98: a branch goes to a line of the program or to its end. -/
theorem test_wf_branch_out : hostProgramWellFormed [.rd 0x00010#18 (some 0), .bnz 0 0x1#32 3] = false := by decide
/-- R99: a RUN is well formed. -/
theorem test_wf_run : hostProgramWellFormed (pseudoRun .nop 0 7) = true := by decide

/-! ## Words written out from the encoding of R88 and R92 -/

theorem test_decode_nop : decode 0b00000000000000000000000000000000#32 = .command .nop := by decide
theorem test_decode_genNonce : decode 0b00000000000000000000000000000001#32 = .command .genNonce := by decide
theorem test_decode_encRaw : decode 0b00000000000000000000000000000010#32 = .command .encRaw := by decide
theorem test_decode_enc : decode 0b00000000000000000000000000000011#32 = .command .enc := by decide
theorem test_decode_decRaw : decode 0b00000000000000000000000000000100#32 = .command .decRaw := by decide
theorem test_decode_zeroize : decode 0b00000000000000000000000000000101#32 = .command .zeroize := by decide
theorem test_decode_seed : decode 0b00000000000000000000000000000110#32 = .command .seed := by decide
/-- R93, R94: the bits of an illegal word are named. -/
theorem test_decode_illegal : decode 0b00000000000000000000000000000111#32 = .illegal .reservedOpcode ∧
    decode 0b10000000000000000000000000000000#32 = .illegal .reservedBits := by decide
/-- R89: bytes at rising addresses, least significant first; too few are no command word. -/
theorem test_decode_bytes : decodeBytes [0x04#8, 0x00#8, 0x00#8, 0x00#8, 0xAA#8] = (.command .decRaw, [0xAA#8]) ∧
    decodeBytes [0x04#8, 0x00#8, 0x00#8] = (.illegal .shortWord, [0x04#8, 0x00#8, 0x00#8]) := by decide
theorem test_decode_table : decodeTableWord 32 0x5 = some .zeroize ∧ decodeTableWord 32 0x8 = none := by decide

/-! ## The test configuration TC (D44, 95_test_vectors.md section 1) -/

/-- Byte `i` of a block, as a byte of a list. -/
def blockByte (v : Bytes32) (i : Nat) : Byte := v.toList.getD i 0#8

/-- `KDF(k, l) = k ⊕ l`. -/
def tcKdf (k l : Bytes32) : Bytes32 :=
  blockOfBytes (List.zipWith (· ^^^ ·) k.toList l.toList) (by simp)

/-- `p[i] ⊕ k[i mod 32] ⊕ n[i mod 32]`, from byte number `i` on. -/
def tcStream (k n : Bytes32) : Nat → Bytes → Bytes
  | _, [] => []
  | i, b :: bs => (b ^^^ (blockByte k (i % 32) ^^^ blockByte n (i % 32))) :: tcStream k n (i + 1) bs

theorem tcStream_length (k n : Bytes32) (i : Nat) (p : Bytes) : (tcStream k n i p).length = p.length := by
  induction p generalizing i with
  | nil => rfl
  | cons b bs ih => simp [tcStream, ih]

theorem tcStream_twice (k n : Bytes32) (i : Nat) (p : Bytes) : tcStream k n i (tcStream k n i p) = p := by
  induction p generalizing i with
  | nil => rfl
  | cons b bs ih => simp [tcStream, ih]

/-- The XOR of `m[i]` over `i ≡ j (mod 32)`, from byte number `i` on. -/
def tcColumn (j : Nat) : Nat → Bytes → Byte
  | _, [] => 0#8
  | i, b :: bs => (if i % 32 = j then b else 0#8) ^^^ tcColumn j (i + 1) bs

/-- `MACF(k, m)[j] = k[j] ⊕ tcColumn j m`. -/
def tcMac (k : Bytes32) (m : Bytes) : Bytes32 :=
  blockOfBytes ((List.range 32).map fun j => blockByte k j ^^^ tcColumn j 0 m) (by simp)

/-- The label whose first three bytes are given, then zero bytes. -/
def tcLabel (a b c : Byte) : Bytes32 := ((zero32.set 0 a).set 1 b).set 2 c

/-- TC. -/
def tc : Config where
  PState := BitVec 64
  kdf := tcKdf
  prngInit s := BitVec.ofNat 64 (leNat s)
  prngNext st n := (leBytes n st.toNat, st + 1#64)
  senc k n p := tcStream k n 0 p
  sdec k n c := tcStream k n 0 c
  macf := tcMac
  labelEnc := tcLabel 0x45#8 0x4E#8 0x43#8
  labelMac := tcLabel 0x4D#8 0x41#8 0x43#8
  maxPt := 4096
  seedBytes := 8
  etmcBase := 0
  prngLen st n := by
    induction n generalizing st with
    | zero => rfl
    | succ n ih => simp
  sencLen k n p := tcStream_length k n 0 p
  sdecLen k n c := tcStream_length k n 0 c
  streamInv k n p := tcStream_twice k n 0 p
  labelsDiffer := by decide
  maxPtLow := by decide
  maxPtHigh := by decide
  maxPtWords := by decide

/-! ## Helpers -/

/-- `prng_state` under TC, a 64-bit counter. -/
def tcPrng (s : State) : Option (BitVec 64) := prngStateOf tc s

/-- The outcome is a next state with the property `p`. -/
def nextIs (r : Result) (p : State → Bool) : Bool :=
  match r with
  | .next t => p t
  | .fault _ => false
  | .refused _ => false

/-- The words at the given offsets, as a host reads them one after the other. -/
def readWords (cfg : Config) (s : State) : List Offset → List (Option Reply)
  | [] => []
  | off :: offs =>
    let t := transact cfg { host := 0, kind := .read, off := off, size := .four, wdata := 0#32 } s
    t.env.reply :: readWords cfg t offs

/-- The port answers OKAY with this word. -/
def word (w : Word) : Option Reply := some (.data w)

/-- A write of a full word. -/
def wr (cfg : Config) (off : Offset) (d : Word) (s : State) : State :=
  transact cfg { host := 0, kind := .write, off := off, size := .four, wdata := d } s

/-- Reset, with the entropy answers `es` waiting. -/
def fresh (es : List EntropyAnswer) : State :=
  { State.reset with env := { Env.quiet with entropy := es } }

/-- The entropy answer of D44. -/
def tcSeed : List EntropyAnswer := [.ok [0x88#8, 0x77#8, 0x66#8, 0x55#8, 0x44#8, 0x33#8, 0x22#8, 0x11#8]]

/-- `prng_state` of V-CTL-4 and V-NON-3: seeded with the answer of D44. -/
def tcOrigin : PrngOrigin :=
  seededOrigin [0x88#8, 0x77#8, 0x66#8, 0x55#8, 0x44#8, 0x33#8, 0x22#8, 0x11#8]

/-- The zero key and nonce are loaded, IN holds "hello", and the length is 5 (V-ENC-1). -/
def loaded : State :=
  { State.reset with
    keyMask := 0xFF#8
    nonceMask := 0xFF#8
    dataLen := 5#64
    inBuf := [(0, 0x68#8), (1, 0x65#8), (2, 0x6C#8), (3, 0x6C#8), (4, 0x6F#8)] }

/-- The zero key is loaded and IN holds the envelope of V-ENC-1. -/
def enveloped : State :=
  { State.reset with
    keyMask := 0xFF#8
    dataLen := 77#64
    inBuf := [(32, 0x60#8), (33, 0x6A#8), (34, 0x6C#8), (35, 0x6C#8), (36, 0x6F#8), (64, 0x05#8),
      (72, 0x2D#8), (73, 0x2B#8), (74, 0x2F#8), (75, 0x6C#8), (76, 0x6F#8)] }

/-! ## Commands (95_test_vectors.md section 3) -/

/-- V-RST-3. -/
theorem test_nop : nextIs (commandNop tc State.reset) (fun t =>
    statusWord t == 0x00000002#32 && t.hist == [.finish 0#4]) = true := by decide

/-- V-CTL-6: NOP completes with OK while FATAL is set. -/
theorem test_nop_fatal : nextIs (commandNop tc { State.reset with fatal := true }) (fun t =>
    statusWord t == 0x00000012#32) = true := by decide

/-- V-NON-1. -/
theorem test_genNonce : nextIs (commandGenNonce tc (fresh tcSeed)) (fun t =>
    statusWord t == 0x0000104A#32 && t.hist == [.entropy true, .draw 32, .finish 0#4] &&
    readWords tc t [0x60, 0x64, 0x68] == [word 0x55667788#32, word 0x11223344#32, word 0#32] &&
    tcPrng t == some 0x1122334455667789#64) = true := by decide

/-- V-NON-4: the entropy draw fails. -/
theorem test_genNonce_fail : nextIs (commandGenNonce tc (fresh [.fail])) (fun t =>
    statusWord t == 0x00001612#32 && t.hist == [.entropy false, .finish 6#4]) = true := by decide

/-- V-ENC-1: the words of the envelope at OUT+32, OUT+36, OUT+64, OUT+72 and OUT+76. -/
theorem test_encRaw : nextIs (commandEncRaw tc loaded) (fun t =>
    statusWord t == 0x00002062#32 &&
    readWords tc t [0x20020, 0x20024, 0x20040, 0x20048, 0x2004C] ==
      [word 0x6C6C6A60#32, word 0x6F#32, word 0x5#32, word 0x6C2F2B2D#32, word 0x6F#32]) = true := by decide

/-- V-ENC-5: NONCE7 is not written. -/
theorem test_encRaw_nonceMissing : nextIs (commandEncRaw tc { loaded with nonceMask := 0x7F#8 }) (fun t =>
    statusWord t == 0x00002522#32 && loadMaskWord t == 0x00007FFF#32 && t.hist == [.finish 5#4]) = true := by
  decide

/-- V-DEC-1. -/
theorem test_decRaw : nextIs (commandDecRaw tc enveloped) (fun t =>
    statusWord t == 0x00004022#32 &&
    readWords tc t [0x20000, 0x20004, 0x20] == [word 0x6C6C6568#32, word 0x6F#32, word 5#32]) = true := by decide

/-- V-DEC-2: the key differs in byte 0; OUT reads zero. -/
theorem test_decRaw_wrongKey : nextIs (commandDecRaw tc { enveloped with key := zero32.set 0 1#8 }) (fun t =>
    statusWord t == 0x00004122#32 &&
    readWords tc t [0x20000, 0x20] == [word 0#32, word 0#32]) = true := by decide

/-- V-ENCG-1. -/
theorem test_enc : nextIs (commandEnc tc { loaded with nonceMask := 0#8, env := (fresh tcSeed).env }) (fun t =>
    statusWord t == 0x0000306A#32 &&
    readWords tc t [0x20000, 0x20020, 0x20040, 0x20048, 0x2004C] ==
      [word 0x55667788#32, word 0x390A1DE8#32, word 0x5#32, word 0x39495CA5#32, word 0x2B#32]) = true := by decide

/-- V-ENCG-5: without a key there is no entropy draw. -/
theorem test_enc_keyMissing : nextIs (commandEnc tc (fresh tcSeed)) (fun t =>
    statusWord t == 0x00003402#32 && t.env.entropy == tcSeed && t.hist == [.finish 4#4]) = true := by decide

/-- V-CTL-4: SEEDED and IE are kept, the interrupt is raised, everything else is cleared. -/
theorem test_zeroize : nextIs (commandZeroize tc { loaded with
      ie := true, seeded := true, prngState := some tcOrigin, outLen := 77#64, outBuf := [(0, 0x01#8)] }) (fun t =>
    statusWord t == 0x0000500A#32 && loadMaskWord t == 0#32 && irq t && t.prngState == some tcOrigin &&
    readWords tc t [0x20, 0x18, 0x20000, 0x10000] == [word 0#32, word 0#32, word 0#32, word 0#32]) = true := by
  decide

/-- V-NON-3, the first SEED. -/
theorem test_seed : nextIs (commandSeed tc (fresh tcSeed)) (fun t =>
    statusWord t == 0x0000600A#32 && t.hist == [.entropy true, .finish 0#4] && t.nonceMask == 0#8) = true := by
  decide

/-- V-NON-3, the second SEED: no second entropy draw. -/
theorem test_seed_again : nextIs (commandSeed tc { fresh tcSeed with
      seeded := true, prngState := some tcOrigin }) (fun t =>
    statusWord t == 0x0000600A#32 && t.env.entropy == tcSeed && t.hist == [.finish 0#4]) = true := by decide

/-- V-PRI-5: ILLEGAL before ENTROPY_FAIL, and LAST_OP is the word's low four bits. -/
theorem test_illegal : nextIs (commandIllegal tc 0x12#32 { State.reset with fatal := true }) (fun t =>
    statusWord t == 0x00002712#32 && t.hist == [.finish 7#4]) = true := by decide

/-- V-PRI-1, V-PRI-3, V-PRI-4: the first failure in the order of R195. -/
theorem test_priority :
    firstFailure (checkTests tc .encRaw { State.reset with dataLen := 0xFFFFFFFFFFFFFFFF#64 }) = some .keyMissing ∧
    firstFailure (checkTests tc .decRaw { State.reset with
      keyMask := 0xFF#8, dataLen := 0xFFFFFFFFFFFFFFFF#64 }) = some .lenErr ∧
    firstFailure (checkTests tc .decRaw { State.reset with fatal := true, dataLen := 10#64 }) =
      some .entropyFail := by decide

/-- The reset move after four steps of an ENC_RAW (V-RST-4): OUT has been written, and all is as at reset. -/
theorem test_reset : nextIs (seqRun tc 4 (accept 0x2#32 loaded)) (fun t =>
    t.outBuf.length == 5 && t.seq == .macGen && resetBlock t == State.reset) = true := by decide

/-! ## The bus port (95_test_vectors.md section 3.2) -/

/-- V-BUS-4, V-BUS-5, V-BUS-7, V-BUS-8: reserved offsets; V-BUS-6: the last IN word. -/
theorem test_bus_decode : readWords tc State.reset
      [0x28, 0x3C, 0x80, 0x0FFFC, 0x11048, 0x21048, 0x3FFFC, 0x00002, 0x11044] =
    [some .busErr, some .busErr, some .busErr, some .busErr, some .busErr, some .busErr, some .busErr,
      some .busErr, word 0#32] := by decide

/-- V-BUS-2, V-BUS-9: an access that is not 32 bits wide. -/
theorem test_bus_size :
    (transact tc { host := 0, kind := .write, off := 0x40#18, size := .one, wdata := 1#32 } State.reset).keyMask =
      0#8 := by decide

/-- V-BUS-11 to V-BUS-16: reads while ENC_RAW is at CHECK. -/
theorem test_bus_busy : readWords tc (accept 0x2#32 loaded) [0x10, 0x20000, 0x10, 0x60, 0x14, 0x00, 0x61] =
    [word 0x00002061#32, word 0#32, word 0x00002065#32, word 0#32, word 0x0000FFFF#32, word 0x434D5445#32,
      some .busErr] := by decide

/-- V-BUS-13, V-BUS-14: writes while busy are dropped. -/
theorem test_bus_busy_writes : wr tc 0x40#18 0xFFFFFFFF#32 (accept 0x2#32 loaded) =
      answer .okay (reject (accept 0x2#32 loaded)) ∧
    wr tc 0x0C#18 0x4#32 (accept 0x2#32 loaded) = answer .okay (reject (accept 0x2#32 loaded)) := by decide

/-- V-RST-5, V-RST-7: CTRL's reserved bits read 0, and read-only words ignore writes. -/
theorem test_bus_readOnly :
    readWords tc (wr tc 0x14#18 0xFFFF#32 (wr tc 0x0#18 5#32 (wr tc 0x8#18 0xFFFFFFFF#32 State.reset))) [0x8, 0x0, 0x14] =
      [word 0x1#32, word 0x434D5445#32, word 0#32] := by decide

/-- V-RST-9: the stale half of DATA_LEN. -/
theorem test_bus_dataLen :
    (wr tc 0x18#18 5#32 (wr tc 0x1C#18 1#32 State.reset)).dataLen = 0x0000000100000005#64 := by decide

/-- R35, R55: the bytes of a key word. -/
theorem test_bus_key : let s := wr tc 0x5C#18 0x1F1E1D1C#32 State.reset
    s.key.toList.drop 28 = [0x1C#8, 0x1D#8, 0x1E#8, 0x1F#8] ∧ s.keyMask = 0x80#8 := by decide

/-- R42, R52: every field of STATUS and LOADMASK at its bits. -/
theorem test_status_fields :
    statusWord { State.reset with lastOp := 0xA#4, result := 0x5#4, nonceMask := 0xFF#8, done := true, fatal := true } =
      0x0000A552#32 ∧
    loadMaskWord { State.reset with keyMask := 0x12#8, nonceMask := 0x34#8 } = 0x00003412#32 := by decide

/-! ## Steps of the model -/

/-- A RUN of NOP is the first instruction after reset (V-RST-3). -/
theorem test_step_nop : nextIs (step (State.reset.withFetchWord 32 0x0)) (fun t =>
    statusWord t == 0x00000002#32 && t.env.moves == [] && t.env.reply == some .okay) = true := by decide

/-- An illegal word runs too (R160). -/
theorem test_step_illegal : nextIs (step (State.reset.withFetchWord 32 0x12)) (fun t =>
    statusWord t == 0x00002702#32) = true := by decide

/-- With no entropy answer, SEED waits and stays busy (R111). -/
theorem test_step_seed_waits : nextIs (step (State.reset.withFetchWord 32 0x6)) (fun t =>
    statusWord t == 0x00006001#32 && t.seq == .seed) = true := by decide

/-- R98: a `BNZ` goes to its label while the mask meets the name, and no transaction is made. -/
theorem test_host_branch :
    (let a : HostAgent := { prog := [], line := 4, names := [(7, 0x61#32)], executed := 0 }
     let t := runLine tc 0 a (.bnz 7 0x1#32 3) { State.reset with env := { Env.quiet with hosts := [a] } }
     t.env.hosts.map (·.line) == [3] && t.env.reply == none) = true := by decide

/-- R27, R98: a line that uses a name no `RD` has read is a step like any other, with a free value. -/
theorem test_host_unreadName (s : State) :
    (lineTransaction tc 0 { prog := [], line := 0, names := [], executed := 5 } (.wr 0x18#18 (.name 3)) s) =
      wr tc 0x18#18 (Config.hostFreeValue 0 5) s := rfl

/-- R111: seven bytes are no answer of a source with SEED_BYTES = 8; eight are. -/
theorem test_giveAnswer :
    (giveAnswer tc (.ok (List.replicate 7 1#8)) State.reset).env.entropy = [] ∧
    (giveAnswer tc (.ok (List.replicate 8 1#8)) State.reset).env.entropy = [.ok (List.replicate 8 1#8)] ∧
    seedStep tc (fresh [.ok [1#8]]) = fresh [.ok [1#8]] := by decide

/-! ## Witnesses: states and operands that meet the hypotheses of each statement -/

/-- Reset with the moves `ms` to come. -/
def withMoves (ms : List Move) : State := withoutMove ms State.reset

/-- Reset, busy with an accepted command. -/
def busyState : State := accept 0x2#32 State.reset

/-- Reset with the zero key and nonce loaded and a length. -/
def keyed (d : Length) : State :=
  { State.reset with keyMask := 0xFF#8, nonceMask := 0xFF#8, dataLen := d }

/-- `keyed`, seeded with the state of the PRNG. -/
def keyedSeeded (d : Length) (seed : Bytes) : State :=
  { keyed d with seeded := true, prngState := some (seededOrigin seed) }

/-- The largest plaintext length of the hardware. -/
def maxLength : Length := BitVec.ofNat 64 Config.hw.maxPt

theorem maxLength_toNat : maxLength.toNat = Config.hw.maxPt := by
  have := Config.hw.maxPtHigh
  rw [maxLength, BitVec.toNat_ofNat]
  omega

/-- A Seed of the hardware, all zero bytes. -/
def hwSeed : Bytes := List.replicate Config.hw.seedBytes 0#8

theorem hwSeed_length : hwSeed.length = Config.hw.seedBytes := List.length_replicate

theorem hwSeed_legal : ∀ a ∈ [EntropyAnswer.ok hwSeed], answerLegal Config.hw a = true := by
  intro a ha
  rw [List.mem_singleton.mp ha]
  exact decide_eq_true hwSeed_length

theorem witness_DecodeAndEncodeAgree : decode 0x6#32 = .command .seed := by decide

theorem witness_StepRunsTheDecodedCommand :
    (withMoves [.run 1 0x2#32, .reset]).env.moves = .run 1 0x2#32 :: [.reset] ∧
      decode 0x2#32 = .command .encRaw := by decide

theorem witness_EachMoveDoesItsPart :
    (withMoves [.sequencer]).env.moves = .sequencer :: [] ∧ (withMoves []).env.moves = [] ∧
    (withMoves [.bus { host := 0, kind := .read, off := 0#18, size := .one, wdata := 0#32 }]).env.moves =
      .bus { host := 0, kind := .read, off := 0#18, size := .one, wdata := 0#32 } :: [] ∧
    (withMoves [.host 3]).env.moves = .host 3 :: [] ∧
    (withMoves [.entropy (.ok [1#8])]).env.moves = .entropy (.ok [1#8]) :: [] ∧
    (withMoves [.entropy .fail, .reset]).env.moves = .entropy .fail :: [.reset] := by decide

theorem witness_ResetMoveResetsEveryElement :
    (withoutMove [.reset] busyState).env.moves = .reset :: [] := by decide

theorem witness_RunIsTheBusWriteAndItsSequencerSteps :
    (withMoves [.run 0 0x4#32]).busy = false ∧ (withMoves [.run 0 0x4#32]).env.moves = .run 0 0x4#32 :: [] := by
  decide

/-- Reset with a RUN of NOP to come and the entropy answers `es` waiting. -/
def aboutToRun (es : List EntropyAnswer) : State :=
  { State.reset with env := { moves := [.run 0 0x0#32], entropy := es, hosts := [], reply := none } }

/-- The invariant holds of a block that is about to run its first command. -/
theorem witness_Inv (es : List EntropyAnswer) (h : ∀ a ∈ es, answerLegal Config.hw a = true) :
    Inv Config.hw (aboutToRun es) := by
  refine ⟨⟨Memory.nil_wf, Memory.nil_wf, ?_, ?_⟩, ?_, ⟨by show 0 < 8; decide, by show 0 < 8; decide⟩, ?_, rfl, h,
    ⟨?_, ?_, ?_, ?_⟩, ?_⟩
  · exact fun c h => absurd h List.not_mem_nil
  · exact fun c h => absurd h List.not_mem_nil
  · exact ⟨nofun, fun h => absurd rfl h⟩
  · exact ⟨⟨nofun, nofun⟩, nofun⟩
  · exact nofun
  · exact nofun
  · exact nofun
  · exact nofun
  · exact fun _ => ⟨rfl, rfl, rfl, rfl, rfl, rfl⟩

theorem witness_EveryStepKeepsTheInvariant :
    Inv Config.hw (aboutToRun [.ok hwSeed]) ∧ ∃ t, step (aboutToRun [.ok hwSeed]) = .next t :=
  ⟨witness_Inv _ hwSeed_legal, _, rfl⟩

theorem witness_TheBlockNeverFaults : Inv Config.hw (aboutToRun [.ok hwSeed]) := witness_Inv _ hwSeed_legal

/-- Offsets 0x28, 0x3C, 0x80 and 0xFFFC, the ends of the two windows, and the last offset, under TC. -/
theorem witness_ExactlyTheIllegalTransactionsAnswerBusErr :
    (0x00028 ≤ (0x00028#18 : Offset).toNat ∧ (0x0003C#18 : Offset).toNat ≤ 0x0003F) ∧
    (0x00080 ≤ (0x00080#18 : Offset).toNat ∧ (0x0FFFC#18 : Offset).toNat ≤ 0x0FFFF) ∧
    (0x10000 + tc.bufBytes ≤ (0x11048#18 : Offset).toNat ∧ (0x1FFFC#18 : Offset).toNat ≤ 0x1FFFF) ∧
    (0x20000 + tc.bufBytes ≤ (0x21048#18 : Offset).toNat ∧ (0x3FFFC#18 : Offset).toNat ≤ 0x3FFFF) ∧
    (0x11044#18 : Offset).toNat < 0x10000 + tc.bufBytes := by decide

/-- The first and last offsets of each range, under TC. -/
theorem witness_BusyGatingRejectsAllButTheListedAccesses :
    busyState.busy = true ∧ (0x00024#18 : Offset).toNat ≤ 0x00027 ∧
    (0x00040 ≤ (0x00040#18 : Offset).toNat ∧ (0x0007C#18 : Offset).toNat ≤ 0x0007F) ∧
    (0x10000 ≤ (0x10000#18 : Offset).toNat ∧ (0x11044#18 : Offset).toNat < 0x10000 + tc.bufBytes) ∧
    (0x20000 ≤ (0x20000#18 : Offset).toNat ∧ (0x21044#18 : Offset).toNat < 0x20000 + tc.bufBytes) ∧
    (0x0000C#18 : Offset).toNat ∉ [0x00, 0x04, 0x08, 0x10, 0x14] ∧
    (0x00014#18 : Offset).toNat ∉ [0x08, 0x10] := by decide

/-- A read while not busy: for every statement about accesses to a block that is not busy. -/
theorem witness_notBusy : State.reset.busy = false ∧
    ({ host := 0, kind := .read, off := 0#18, size := .four, wdata := 0#32 } : Transaction).kind = .read := by decide

/-- The first and the last key and nonce word, and a byte outside the word (KEY, NONCE and register reads). -/
theorem witness_words : (0x00040#18 + BitVec.ofNat 18 (4 * (0 : Fin 8).val) : Offset) = 0x00040#18 ∧
    (0x00060#18 + BitVec.ofNat 18 (4 * (7 : Fin 8).val) : Offset) = 0x0007C#18 ∧ (31 : Nat) / 4 ≠ (0 : Fin 8).val := by
  decide

theorem witness_ReadOnlyWritesAreIgnored :
    State.reset.busy = false ∧ (0x00024#18 : Offset).toNat ∈ [0x00, 0x04, 0x14, 0x20, 0x24] ∧
    (0x21044#18 : Offset).toNat % 4 = 0 ∧ 0x20000 ≤ (0x21044#18 : Offset).toNat ∧
    (0x21044#18 : Offset).toNat < 0x20000 + tc.bufBytes := by decide

/-- The first and the last word of IN, under TC. -/
theorem witness_InWindowStoresAndReadsBack :
    State.reset.busy = false ∧ (0x10000#18 : Offset).toNat = 0x10000 + 0 ∧ 0 % 4 = 0 ∧ 0 < tc.bufBytes ∧
    (0x11044#18 : Offset).toNat = 0x10000 + 4164 ∧ 4164 % 4 = 0 ∧ 4164 < tc.bufBytes := by decide

/-- A word of OUT that `out_len` cuts in two, and the last word, under TC. -/
theorem witness_OutWindowReadsZeroBeyondItsLength :
    ({ State.reset with outLen := 2#64 } : State).busy = false ∧ (0x20000#18 : Offset).toNat = 0x20000 + 0 ∧
    0 + 1 < (2#64 : Length).toNat ∧ ¬0 + 2 < (2#64 : Length).toNat ∧
    (0x21044#18 : Offset).toNat = 0x20000 + 4164 ∧ 4164 % 4 = 0 ∧ 4164 < tc.bufBytes := by decide

theorem witness_NoAccessReadsTheSecrets :
    sameButSecrets (keyed 5#64) { keyed 5#64 with key := tcLabel 1#8 2#8 3#8, skEnc := tcLabel 4#8 5#8 6#8, diff := 9#8 } :=
  rfl

theorem witness_InterruptFollowsEnableAndDone :
    (0x2#32 : Word).getLsbD 1 = true ∧ State.reset.busy = false ∧
    ({ busyState with seq := .finish } : State).seq = .finish := by decide

theorem witness_CheckStepTestsInOrder : busyState.seq = .check := by decide

theorem witness_ArbiterDerivesBothSubkeys :
    ({ accept 0x4#32 (keyed 72#64) with seq := .kdfEnc } : State).seq = .kdfEnc ∧
    ({ accept 0x4#32 (keyed 72#64) with seq := .kdfMac } : State).seq = .kdfMac ∧
    (accept 0x4#32 (keyed 72#64)).cmdRaw.extractLsb' 0 4 = 0x4#4 ∧
    (accept 0x2#32 (keyed 72#64)).cmdRaw.extractLsb' 0 4 ≠ 0x4#4 := by decide

theorem witness_OnlyTheKdfStepsReadTheMasterKey :
    busyState.seq ≠ .kdfEnc ∧ busyState.seq ≠ .kdfMac ∧ busyState.seq ≠ .clear := by decide

/-- A block at SEED, for SEED's opcode and for GEN_NONCE's, with no answer, `fail`, a Seed, and no Seed. -/
theorem witness_SeedStepTakesOneEntropyAnswer :
    ({ accept 0x6#32 (fresh []) with seq := .seed } : State).seq = .seed ∧ (fresh []).env.entropy = [] ∧
    (fresh [.fail]).env.entropy = .fail :: [] ∧ (fresh [.ok hwSeed]).env.entropy = .ok hwSeed :: [] ∧
    hwSeed.length = Config.hw.seedBytes ∧ (0#8 :: hwSeed).length ≠ Config.hw.seedBytes ∧
    (accept 0x6#32 (fresh [])).cmdRaw.extractLsb' 0 4 = 0x6#4 ∧
    (accept 0x1#32 (fresh [])).cmdRaw.extractLsb' 0 4 ≠ 0x6#4 :=
  ⟨rfl, rfl, rfl, rfl, hwSeed_length, by simp [hwSeed_length], by decide, by decide⟩

/-- A block at DRAW with the nonce's opcode, `n` draws into the epoch of `seed`. -/
def atDraw (seed : Bytes) (n : Nat) : State :=
  { accept 0x1#32 State.reset with
    seq := .draw
    seeded := true
    prngState := some { seed := seed, draws := n }
    hist := List.replicate n (.draw 32) }

theorem witness_DrawStepAdvancesThePrngAtomically :
    (atDraw [1#8] 2).seq = .draw ∧
    prngStateOf Config.hw (atDraw [1#8] 2) = some (Config.hw.prngAfter [1#8] 2) := ⟨rfl, rfl⟩

/-- A block at the first compare: with the all-zero MAC in IN, and with the last byte of it different. -/
theorem witness_CompareDecidesByteEquality :
    ({ busyState with seq := .cmp } : State).seq = .cmp ∧ busyState.diff = 0#8 ∧ busyState.cmpI = 0 ∧
    (∀ i : Fin 32, busyState.tagCalc[i.val] = busyState.inBuf.read (32 + i.val)) ∧
    ¬(∀ i : Fin 32, busyState.tagCalc[i.val] = Memory.read [(63, 1#8)] (32 + i.val)) := by decide

/-- The empty envelope of zero bytes is framed, and CHECK of a DEC_RAW of it passes. -/
theorem emptyEnvelope_passes : firstCheckFailure Config.hw .decRaw (keyed 72#64) = none := by
  rw [firstCheckFailure_none_iff]
  exact ⟨fun _ _ => rfl, fun _ => rfl, fun h => absurd h (by decide),
    fun h => absurd h (by decide), fun _ => ⟨by decide, Nat.le_add_left 72 _, by decide⟩⟩

/-- Two keys and two MAC fields; after no step, and after all 36. -/
theorem witness_VerificationIsConstantTime :
    let s := accept (encode .decRaw) (keyed 72#64)
    let s' := { s with key := tcLabel 1#8 2#8 3#8, inBuf := [(32, 7#8)] }
    s.seq = .check ∧ s'.seq = .check ∧ s.cmdRaw = encode .decRaw ∧ s'.cmdRaw = encode .decRaw ∧
    s.dataLen = s'.dataLen ∧ firstCheckFailure Config.hw .decRaw s = none ∧
    firstCheckFailure Config.hw .decRaw s' = none ∧ 0 ≤ 36 ∧ 36 ≤ 36 := by
  refine ⟨rfl, rfl, rfl, rfl, rfl, emptyEnvelope_passes, ?_, by decide, by decide⟩
  rw [firstCheckFailure_none_iff]
  exact ⟨fun _ _ => rfl, fun _ => rfl, fun h => absurd h (by decide),
    fun h => absurd h (by decide), fun _ => ⟨by decide, Nat.le_add_left 72 _, by decide⟩⟩

/-- The last compare goes on to SDEC; and a step of another state. -/
theorem witness_DecryptionOnlyAfterMatchingMac :
    (∃ t, seqStep Config.hw { busyState with seq := .cmp, cmpI := 31 } = .next t ∧ t.seq = .sdec) ∧
    (∃ t, seqStep Config.hw busyState = .next t) ∧ busyState.seq ≠ .sdec :=
  ⟨⟨_, rfl, by decide⟩, ⟨_, rfl⟩, by decide⟩

theorem witness_OnlySeedAndDrawWriteThePrngState :
    (∃ t, seqStep Config.hw busyState = .next t) ∧ busyState.seq ≠ .seed ∧ busyState.seq ≠ .draw :=
  ⟨⟨_, rfl⟩, by decide, by decide⟩

theorem witness_lastUntilReset :
    let s := { withMoves [.sequencer] with seeded := true }
    (∃ t, step s = .next t) ∧ (∀ ms, s.env.moves ≠ .reset :: ms) ∧ s.seeded = true ∧
      ({ s with fatal := true } : State).fatal = true :=
  ⟨⟨_, rfl⟩, fun _ h => by simp [withMoves, withoutMove] at h, rfl, rfl⟩

/-- The envelope of four bytes under the zero nonce and a zero MAC. -/
theorem witness_ParsingInvertsFraming :
    [0x1#8, 0x2#8, 0x3#8, 0x4#8].length ≤ tc.maxPt ∧
    Memory.readBytes [(64, 4#8), (72, 1#8), (73, 2#8), (74, 3#8), (75, 4#8)] 0 (72 + 4) =
      envelope zero32 zero32 [0x1#8, 0x2#8, 0x3#8, 0x4#8] := by decide

/-- NOP, ZEROIZE: not busy; and with FATAL set. -/
theorem witness_NopCompletes : State.reset.busy = false ∧ ({ State.reset with fatal := true } : State).busy = false := by
  decide

theorem witness_SeedCompletes :
    (fresh [.ok hwSeed]).busy = false ∧ (fresh [.ok hwSeed]).fatal = false ∧ (fresh [.ok hwSeed]).seeded = false ∧
    (fresh [.ok hwSeed]).env.entropy = .ok hwSeed :: [] ∧ hwSeed.length = Config.hw.seedBytes ∧
    ({ fresh [] with seeded := true } : State).seeded = true := ⟨rfl, rfl, rfl, rfl, hwSeed_length, rfl⟩

/-- GEN_NONCE and ENC: unseeded with an answer waiting, and seeded. -/
theorem witness_PrngReady (d : Length) :
    PrngReady Config.hw { keyed d with env := (fresh [.ok hwSeed]).env } (Config.hw.prngInit hwSeed)
      [.entropy true] [] ∧
    PrngReady Config.hw (keyedSeeded d [1#8]) (Config.hw.prngInit [1#8]) [] [] :=
  ⟨.inr ⟨rfl, rfl, _, hwSeed_length, rfl, rfl⟩, .inl ⟨rfl, rfl, rfl, rfl⟩⟩

theorem witness_GenNonceCompletes : (keyedSeeded 0#64 [1#8]).busy = false ∧ (keyedSeeded 0#64 [1#8]).fatal = false ∧
    PrngReady Config.hw (keyedSeeded 0#64 [1#8]) (Config.hw.prngInit [1#8]) [] [] :=
  ⟨rfl, rfl, (witness_PrngReady _).2⟩

theorem witness_EncCompletes : (keyedSeeded maxLength [1#8]).busy = false ∧ (keyedSeeded maxLength [1#8]).fatal = false ∧
    (keyedSeeded maxLength [1#8]).keyMask = 0xFF#8 ∧
    (keyedSeeded maxLength [1#8]).dataLen.toNat ≤ Config.hw.maxPt ∧
    PrngReady Config.hw (keyedSeeded maxLength [1#8]) (Config.hw.prngInit [1#8]) [] [] :=
  ⟨rfl, rfl, rfl, Nat.le_of_eq maxLength_toNat, (witness_PrngReady _).2⟩

/-- ENC_RAW: the empty plaintext and the longest one. -/
theorem witness_EncRawCompletes (d : Length) (h : d = 0#64 ∨ d = maxLength) :
    (keyed d).busy = false ∧ (keyed d).fatal = false ∧ (keyed d).keyMask = 0xFF#8 ∧ (keyed d).nonceMask = 0xFF#8 ∧
    (keyed d).dataLen.toNat ≤ Config.hw.maxPt := by
  refine ⟨rfl, rfl, rfl, rfl, ?_⟩
  rcases h with rfl | rfl
  · exact Nat.zero_le _
  · exact Nat.le_of_eq maxLength_toNat

/-- An empty envelope in IN with the given MAC field, under the zero key. -/
def envelopeWith (tag : Bytes32) : State :=
  { keyed 72#64 with inBuf := Memory.writeBytes [] 32 tag.toList }

theorem envelopeWith_mac (tag : Bytes32) : macField (envelopeWith tag).inBuf = tag := by
  apply Bytes32.ext_toList
  rw [macField, Memory.readBlock_toList]
  have := Memory.readBytes_writeBytes_same [] 32 tag.toList
  rw [Vector.length_toList] at this
  exact this

theorem envelopeWith_framed (tag : Bytes32) : framed (envelopeWith tag).inBuf (envelopeWith tag).dataLen = true := by
  rw [framed_iff]
  refine ⟨by show 72 ≤ (72#64).toNat; decide, ?_⟩
  rw [show (envelopeWith tag).inBuf = Memory.writeBytes [] 32 tag.toList from rfl,
    Memory.readBytes_writeBytes_other _ _ _ _ _ (by simp)]
  rfl

/-- The MAC of the empty ciphertext under the zero key. -/
def emptyTag : Bytes32 := tagOf Config.hw zero32 []

theorem witness_DecRawDecryptsAnAuthenticEnvelope :
    let s := envelopeWith emptyTag
    s.busy = false ∧ s.fatal = false ∧ s.keyMask = 0xFF#8 ∧ s.dataLen.toNat ≤ Config.hw.maxPt + 72 ∧
    framed s.inBuf s.dataLen = true ∧ macField s.inBuf = tagOf Config.hw s.key (ciphertextField s) :=
  ⟨rfl, rfl, rfl, Nat.le_add_left 72 _, envelopeWith_framed _, envelopeWith_mac _⟩

/-- The MAC of the empty ciphertext with one bit of its last byte flipped. -/
def forgedTag : Bytes32 := emptyTag.set 31 (emptyTag[31] ^^^ 1#8)

theorem witness_DecRawRejectsAForgedEnvelope :
    let s := envelopeWith forgedTag
    s.busy = false ∧ s.fatal = false ∧ s.keyMask = 0xFF#8 ∧ s.dataLen.toNat ≤ Config.hw.maxPt + 72 ∧
    framed s.inBuf s.dataLen = true ∧ macField s.inBuf ≠ tagOf Config.hw s.key (ciphertextField s) := by
  refine ⟨rfl, rfl, rfl, Nat.le_add_left 72 _, envelopeWith_framed _, ?_⟩
  rw [envelopeWith_mac]
  intro h
  have h31 : forgedTag[31] = emptyTag[31] := by rw [h]; rfl
  simp only [forgedTag, Vector.getElem_set_self] at h31
  generalize emptyTag[31] = b at h31
  revert b
  decide

/-- Each failure of CHECK, with the length next to its bound where it is one. -/
theorem witness_FailedCheckReportsTheFirstFailure :
    State.reset.busy = false ∧
    firstCheckFailure Config.hw .seed { State.reset with fatal := true } = some .entropyFail ∧
    firstCheckFailure Config.hw .enc State.reset = some .keyMissing ∧
    firstCheckFailure Config.hw .encRaw { keyed 0#64 with nonceMask := 0x7F#8 } = some .nonceMissing ∧
    firstCheckFailure Config.hw .encRaw (keyed (maxLength + 1#64)) = some .lenErr ∧
    firstCheckFailure Config.hw .decRaw (keyed (maxLength + 73#64)) = some .lenErr ∧
    firstCheckFailure Config.hw .decRaw (keyed 71#64) = some .frameErr ∧
    firstCheckFailure Config.hw .decRaw (keyed 73#64) = some .frameErr := by
  have hm := maxLength_toNat
  have h1 := Config.hw.maxPtLow
  have h2 := Config.hw.maxPtHigh
  have l1 : (maxLength + 1#64).toNat = Config.hw.maxPt + 1 := by
    rw [BitVec.toNat_add, hm]
    simp
    omega
  have l2 : (maxLength + 73#64).toNat = Config.hw.maxPt + 73 := by
    rw [BitVec.toNat_add, hm]
    simp
    omega
  refine ⟨rfl, rfl, rfl, rfl, ?_, ?_, ?_, ?_⟩
  · simp [firstCheckFailure, keyed, State.reset, l1]
  · simp [firstCheckFailure, keyed, State.reset, l2]
  · simp [firstCheckFailure, keyed, State.reset]
  · simp [firstCheckFailure, keyed, State.reset, Memory.readBytes, Memory.blank, leNat]
    omega

/-- A seeding that fails, for each of the three commands, and one that is not answered. -/
theorem witness_seedingFailsOrWaits :
    (fresh [.fail]).busy = false ∧ (fresh [.fail]).seeded = false ∧ (fresh [.fail]).env.entropy = .fail :: [] ∧
    (fresh []).env.entropy = [] ∧
    firstCheckFailure Config.hw .genNonce (fresh [.fail]) = none ∧
    firstCheckFailure Config.hw .seed (fresh [.fail]) = none ∧
    firstCheckFailure Config.hw .enc { keyed 0#64 with env := (fresh [.fail]).env } = none := by
  refine ⟨rfl, rfl, rfl, rfl, rfl, rfl, ?_⟩
  rw [firstCheckFailure_none_iff]
  exact ⟨fun _ _ => rfl, fun _ => rfl, fun h => absurd h (by decide), fun _ => Nat.zero_le _,
    fun h => absurd h (by decide)⟩

/-- The smallest word with a reserved bit set, and the smallest and the largest reserved opcode. -/
theorem witness_IllegalWordsCompleteWithIllegal :
    State.reset.busy = false ∧ (0x10#32 : Word).extractLsb' 4 28 ≠ 0#28 ∧
    7 ≤ ((0x7#32 : Word).extractLsb' 0 4).toNat ∧ 7 ≤ ((0xF#32 : Word).extractLsb' 0 4).toNat := by decide

theorem witness_FatalLocksTheBlock :
    ({ State.reset with fatal := true } : State).busy = false ∧
    ({ State.reset with fatal := true } : State).fatal = true ∧ Instr.encRaw ≠ .nop ∧ Instr.encRaw ≠ .zeroize := by
  decide

theorem witness_SecondCommandIsRejectedWhileBusy : busyState.busy = true := by decide

theorem witness_EveryAcceptedWordCompletesInThirtyNineSteps :
    Inv Config.hw (aboutToRun [.ok hwSeed]) ∧ (aboutToRun [.ok hwSeed]).busy = false ∧
    (aboutToRun [.ok hwSeed]).env.entropy ≠ [] :=
  ⟨witness_Inv _ hwSeed_legal, rfl, List.cons_ne_nil _ _⟩

/-- What an ENC_RAW of the empty plaintext leaves. -/
theorem encRaw_empty : ∃ t, exec .encRaw (keyed 0#64) = .next t ∧ t.busy = false ∧ t.result = codeOf .ok :=
  ⟨_, (issue_check_pass Config.hw .encRaw [.kdfEnc, .kdfMac, .senc, .macGen, .frame, .wipe, .finish] (keyed 0#64) rfl
    ((firstCheckFailure_none_iff _ _ _).mpr ⟨fun _ _ => rfl, fun _ => rfl, fun _ => rfl, fun _ => Nat.zero_le _,
      fun h => absurd h (by decide)⟩)).trans
    (runPath_encryptTail Config.hw _ rfl (by decide) (Nat.zero_le _)), rfl, rfl⟩

/-- The envelope of the empty plaintext, copied into IN. -/
theorem witness_DecryptionUndoesEncryption :
    ∃ s t s' : State, s.busy = false ∧ exec .encRaw s = .next t ∧ t.busy = false ∧ t.result = codeOf .ok ∧
      s'.busy = false ∧ s'.fatal = false ∧ s'.keyMask = 0xFF#8 ∧ s'.key = s.key ∧
      s'.dataLen = 72#64 + s.dataLen ∧
      s'.inBuf.readBytes 0 (72 + s.dataLen.toNat) = t.outBuf.readBytes 0 (72 + s.dataLen.toNat) := by
  obtain ⟨t, h1, h2, h3⟩ := encRaw_empty
  exact ⟨keyed 0#64, t, { keyed 72#64 with inBuf := t.outBuf }, rfl, h1, h2, h3, rfl, rfl, rfl, rfl, rfl, rfl⟩

/-- An authentic envelope and the same with byte 0 of its nonce field changed. -/
theorem witness_NonceFieldIsNotAuthenticated :
    let s := envelopeWith emptyTag
    s.busy = false ∧ (∀ a, 32 ≤ a → (s.inBuf.write 0 1#8).read a = s.inBuf.read a) ∧
    (∃ t, exec .decRaw s = .next t) ∧ ∃ t, exec .decRaw { s with inBuf := s.inBuf.write 0 1#8 } = .next t := by
  have hr : ∀ a, 32 ≤ a → ((envelopeWith emptyTag).inBuf.write 0 1#8).read a = (envelopeWith emptyTag).inBuf.read a :=
    fun a ha => Memory.read_write_other _ _ _ _ (by omega)
  have hp : Passes Config.hw .decRaw (envelopeWith emptyTag) :=
    ⟨fun _ _ => rfl, fun _ => rfl, fun h => absurd h (by decide), fun h => absurd h (by decide),
      fun _ => ⟨by decide, Nat.le_add_left 72 _, ((framed_iff _ _).mp (envelopeWith_framed _)).2⟩⟩
  have hp' : Passes Config.hw .decRaw
      { envelopeWith emptyTag with inBuf := (envelopeWith emptyTag).inBuf.write 0 1#8 } :=
    ⟨fun _ _ => rfl, fun _ => rfl, fun h => absurd h (by decide), fun h => absurd h (by decide),
      fun _ => ⟨by decide, Nat.le_add_left 72 _, by
        rw [← (hp.framedLength rfl).2.2]
        exact congrArg leNat (Memory.readBytes_congr _ _ _ _ fun i h _ => hr i (by omega))⟩⟩
  refine ⟨rfl, hr, ?_, ?_⟩
  · exact ⟨_, (issue_check_pass Config.hw .decRaw decryptTail _ rfl ((firstCheckFailure_none_iff _ _ _).mpr hp)).trans
      (runPath_decryptTail_match Config.hw _ rfl (by decide) (Nat.zero_le _) (envelopeWith_mac _))⟩
  · refine ⟨_, (issue_check_pass Config.hw .decRaw decryptTail _ rfl
      ((firstCheckFailure_none_iff _ _ _).mpr hp')).trans
      (runPath_decryptTail_match Config.hw _ rfl (by decide) (Nat.zero_le _) ?_)⟩
    refine Eq.trans ?_ (envelopeWith_mac emptyTag)
    apply Bytes32.ext_toList
    rw [macField, macField, Memory.readBlock_toList, Memory.readBlock_toList]
    exact Memory.readBytes_congr _ _ _ _ fun i h _ => hr i h

theorem drawCount_replicate (n : Nat) : drawCount (List.replicate n (.draw 32)) = n := by
  simp [drawCount, List.countP_replicate]

/-- The invariant holds at a DRAW step of an epoch. -/
theorem atDraw_inv (cfg : Config) (seed : Bytes) (n : Nat) (h : seed.length = cfg.seedBytes) :
    Inv cfg (atDraw seed n) := by
  refine ⟨⟨Memory.nil_wf, Memory.nil_wf, ?_, ?_⟩, ?_, ⟨by show 0 < 8; decide, by show 0 < 8; decide⟩, ?_,
    ⟨h, (drawCount_replicate n).symm⟩, ?_, ⟨?_, ?_, ?_, ?_⟩, ?_⟩
  · exact fun c h => absurd h List.not_mem_nil
  · exact fun c h => absurd h List.not_mem_nil
  · exact ⟨nofun, fun _ => rfl⟩
  · exact ⟨⟨fun _ => rfl, fun _ => rfl⟩, nofun⟩
  · exact fun a h => absurd h List.not_mem_nil
  · exact nofun
  · exact fun _ => ⟨rfl, .inl rfl⟩
  · exact nofun
  · exact nofun
  · exact fun _ => ⟨rfl, rfl, rfl, rfl, rfl, rfl⟩

/-- A DRAW step of the hardware's block; and the first two DRAW steps of one epoch under TC, whose bytes differ. -/
theorem witness_NoncesFollowThePrngStream :
    (Inv Config.hw (atDraw hwSeed 3) ∧ (∃ t, step (atDraw hwSeed 3) = .next t) ∧
      (∀ ms, (atDraw hwSeed 3).env.moves ≠ .reset :: ms) ∧ epochSeed (atDraw hwSeed 3) = some hwSeed) ∧
    (let seed : Bytes := List.replicate 8 5#8
     Inv tc (atDraw seed 0) ∧ Inv tc (atDraw seed 1) ∧
      (∃ t, seqStep tc (atDraw seed 0) = .next t) ∧ (∃ t, seqStep tc (atDraw seed 1) = .next t) ∧
      tc.PrngFresh seed 2 ∧ drawCount (atDraw seed 0).hist = 0 ∧ drawCount (atDraw seed 1).hist = 1) := by
  refine ⟨⟨atDraw_inv _ _ _ hwSeed_length, ⟨_, rfl⟩, fun _ => List.cons_ne_nil _ _ |>.symm, rfl⟩,
    atDraw_inv _ _ _ rfl, atDraw_inv _ _ _ rfl, ⟨_, rfl⟩, ⟨_, rfl⟩, ?_, rfl, rfl⟩
  intro i j hi hj hne
  interval_cases i <;> interval_cases j <;> first | exact absurd rfl hne | decide

/-- A host agent about to load a key. -/
theorem witness_LoadKeyLoadsTheKey :
    let s := { State.reset with
      env := { Env.quiet with hosts := [{ prog := pseudoLoadKey (tcLabel 1#8 2#8 3#8), line := 0, names := [], executed := 2 }] } }
    s.busy = false ∧
    s.env.hosts[0]? = some { prog := pseudoLoadKey (tcLabel 1#8 2#8 3#8), line := 0, names := [], executed := 2 } := by decide

/-- The eight writes of LOADKEY under TC (R99). -/
theorem test_host_loadKey :
    (let a : HostAgent := { prog := pseudoLoadKey (tcLabel 1#8 2#8 3#8), line := 0, names := [], executed := 0 }
     let t := hostLines tc 0 8 { State.reset with env := { Env.quiet with hosts := [a] } }
     t.key == tcLabel 1#8 2#8 3#8 && t.keyMask == 0xFF#8 && runEnded 0 t) = true := by decide

end Sys2Proof.Machine.Tests
end

/-! PROOF. What a RUN and a step of the model can do, once, and that the history only grows (R26). -/

namespace Sys2Proof.Machine

/-! ## A RUN -/

/-- A word that decodes to a command is that command's word (R92, R94). -/
theorem encode_of_decode {w : Word} {i : Instr} (h : decode w = .command i) : encode i = w := by
  have hop : opcodeField w = opcodeOf i := opcodeField_of_decode h
  have hrsvd : reservedField w = 0#28 := by
    by_contra hne
    simp [decode, hne] at h
  have hhigh : w.toNat / 16 % 2 ^ 28 = 0 := by
    simpa [reservedField, BitVec.extractLsb'_toNat, Nat.shiftRight_eq_div_pow] using
      congrArg BitVec.toNat hrsvd
  have hlow : (opcodeField w).toNat = w.toNat % 16 := by simp [opcodeField, BitVec.extractLsb'_toNat]
  rw [encode, ← hop]
  apply BitVec.eq_of_toNat_eq
  rw [BitVec.toNat_setWidth, hlow]
  omega

/-- A RUN is the CMD word's operation along a path of at most 39 states, DEC_RAW's being the longest (R152). -/
theorem runWord_eq_issue (w : Word) (s : State) :
    ∃ ps : List SeqState, ps.length ≤ 39 ∧ runWord w s = issue Config.hw w ps s := by
  unfold runWord
  cases hd : decode w with
  | illegal why => exact ⟨_, by decide, rfl⟩
  | command i =>
    rw [← encode_of_decode hd]
    cases i <;> exact ⟨_, by decide, rfl⟩

/-- A RUN on a busy block is a rejected write (R80, R85). -/
theorem runWord_busy (w : Word) (s : State) (h : s.busy = true) : runWord w s = .next (reject s) := by
  obtain ⟨ps, -, hrun⟩ := runWord_eq_issue w s
  rw [hrun, issue_busy _ _ _ _ h]

/-- A RUN on a block that is not busy is the acceptance of its word and steps of the sequencer (R143). -/
theorem runWord_idle (w : Word) (s : State) (h : s.busy = false) :
    ∃ n ≤ 39, runWord w s = seqRun Config.hw n (accept w s) := by
  obtain ⟨ps, hlen, hrun⟩ := runWord_eq_issue w s
  obtain ⟨n, hn, hpath⟩ := runPath_eq_seqRun Config.hw ps (accept w s)
  exact ⟨n, hn.trans hlen, by rw [hrun, issue_idle _ _ _ _ h, hpath]⟩

/-! ## A step of the model -/

theorem step_of_moves_nil {s : State} (h : s.env.moves = []) : step s = seqStep Config.hw s := by
  simp [step, nextMove, h]

theorem step_of_moves_cons {s : State} {m : Move} {ms : List Move} (h : s.env.moves = m :: ms) :
    step s = performMove m (withoutMove ms s) := by
  simp [step, nextMove, h]

/-! ## Transactions and hosts leave the history alone -/

@[simp] theorem writeStatus_hist (d : Word) (s : State) : (writeStatus d s).hist = s.hist := by
  unfold writeStatus
  cases d.getLsbD 1 <;> cases d.getLsbD 2 <;> rfl

@[simp] theorem writeReg_hist (r : Reg) (d : Word) (s : State) : (writeReg r d s).hist = s.hist := by
  cases r with
  | status => exact writeStatus_hist d s
  | id | version | ctrl | cmd | loadMask | dataLenLo | dataLenHi | outLenLo | outLenHi | key | nonce => rfl

@[simp] theorem writeTarget_hist (tgt : Target) (d : Word) (s : State) :
    (writeTarget tgt d s).hist = s.hist := by
  cases tgt with
  | reg r => exact writeReg_hist r d s
  | inWord a | outWord a => rfl

@[simp] theorem transact_hist (cfg : Config) (t : Transaction) (s : State) :
    (transact cfg t s).hist = s.hist := by
  rcases transact_cases cfg t s with
    ⟨-, h⟩ | ⟨tgt, -, ⟨-, -, -, h⟩ | ⟨-, -, h⟩ | ⟨-, -, -, h⟩ | ⟨-, -, h⟩⟩ <;> simp [h]

@[simp] theorem hostStep_hist (cfg : Config) (h : Nat) (s : State) :
    (hostStep cfg h s).hist = s.hist := by
  rcases hostStep_cases cfg h s with he | ⟨a, l, -, -, ⟨t, -, he⟩ | ⟨-, he⟩⟩ <;> simp [he]

/-! ## The sequencer only adds events -/

@[simp] theorem verdict_hist (s : State) : (verdict s).hist = s.hist := by
  rcases verdict_cases s with ⟨-, h⟩ | ⟨-, h⟩ <;> rw [h]

/-- A step of the sequencer emits at most one event (R23, R26). -/
theorem SeqNext.hist_prefix {cfg : Config} {s t : State} (h : SeqNext cfg s t) : s.hist <+: t.hist := by
  cases h with
  | idle | illegal | fails | passes | waits | frame | wipe | clear => exact List.prefix_rfl
  | decides => rw [verdict_hist]; exact List.prefix_append _ _
  | seedFails | seeds | draws | kdfEnc | kdfMac | senc | macGen | macChk | compares | sdec | finish =>
    exact List.prefix_append _ _

theorem seqRun_hist_prefix {cfg : Config} {n : Nat} {s t : State} (h : seqRun cfg n s = .next t) :
    s.hist <+: t.hist := by
  induction n generalizing s with
  | zero => cases h; exact List.prefix_rfl
  | succ n ih =>
    obtain ⟨u, hstep, hrun⟩ := andThen_eq_next h
    exact (seqStep_next hstep).hist_prefix.trans (ih hrun)

theorem runWord_hist_prefix {w : Word} {s t : State} (h : runWord w s = .next t) :
    s.hist <+: t.hist := by
  cases hb : s.busy with
  | true =>
    rw [runWord_busy w s hb] at h
    cases h
    exact List.prefix_rfl
  | false =>
    obtain ⟨n, -, hrun⟩ := runWord_idle w s hb
    exact seqRun_hist_prefix (s := accept w s) (hrun.symm.trans h)

/-! ## Every move but reset -/

theorem performMove_hist_prefix {m : Move} {s t : State} (hm : m ≠ .reset)
    (h : performMove m s = .next t) : s.hist <+: t.hist := by
  cases m with
  | reset => exact absurd rfl hm
  | sequencer => exact (seqStep_next h).hist_prefix
  | run _ w => exact runWord_hist_prefix (s := answer .okay s) h
  | bus tr => cases h; rw [transact_hist]
  | host n => cases h; rw [hostStep_hist]
  | entropy a => cases h; rw [giveAnswer_hist]

theorem step_hist_prefix {s t : State} (h : step s = .next t)
    (hreset : ∀ ms, s.env.moves ≠ .reset :: ms) : s.hist <+: t.hist := by
  cases hmoves : s.env.moves with
  | nil => exact (seqStep_next ((step_of_moves_nil hmoves).symm.trans h)).hist_prefix
  | cons m ms =>
    have hm : m ≠ .reset := fun he => hreset ms (he ▸ hmoves)
    exact performMove_hist_prefix (s := withoutMove ms s) hm ((step_of_moves_cons hmoves).symm.trans h)

/-- Settles O39: only the sequencer emits events, each at the end of the history, and a RUN is
acceptance and steps of the sequencer. -/
theorem historyOnlyGrows : Obligations.HistoryOnlyGrows := by
  intro s t hstep hreset
  obtain ⟨es, he⟩ := step_hist_prefix hstep hreset
  exact ⟨es, he.symm⟩

end Sys2Proof.Machine

/-! PROOF. What a transaction leaves alone and what registers answer at their offsets (10_state.md). -/

namespace Sys2Proof.Machine

/-! ## What a transaction writes -/

/-- A write of STATUS clears the flags whose bit is set, and nothing else (R42). -/
theorem writeStatus_eq (d : Word) (s : State) :
    writeStatus d s = { s with
      done := s.done && !d.getLsbD 1
      collide := s.collide && !d.getLsbD 2 } := by
  unfold writeStatus acknowledge clearCollide
  cases d.getLsbD 1 <;> cases d.getLsbD 2 <;> simp

/-- The elements of the block that a transaction may write, taken from `u`, and the rest from `s`. -/
def withHostElements (s u : State) : State :=
  { s with
    key := u.key, keyMask := u.keyMask, nonce := u.nonce, nonceMask := u.nonceMask
    dataLen := u.dataLen, ie := u.ie, busy := u.busy, done := u.done, collide := u.collide
    lastOp := u.lastOp, cmdRaw := u.cmdRaw, pend := u.pend, seq := u.seq, inBuf := u.inBuf
    env := u.env }

theorem writeReg_frame (r : Reg) (d : Word) (s : State) :
    writeReg r d s = withHostElements s (writeReg r d s) := by
  cases r with
  | status => rw [writeReg, writeStatus_eq]; rfl
  | id | version | ctrl | cmd | loadMask | dataLenLo | dataLenHi | outLenLo | outLenHi | key | nonce => rfl

theorem writeTarget_frame (tgt : Target) (d : Word) (s : State) :
    writeTarget tgt d s = withHostElements s (writeTarget tgt d s) := by
  cases tgt with
  | reg r => exact writeReg_frame r d s
  | inWord a | outWord a => rfl

/-- A transaction writes only what the host's registers and the IN window stand for, the acceptance
elements of R144, COLLIDE and the port's answer. -/
theorem transact_frame (cfg : Config) (tr : Transaction) (s : State) :
    transact cfg tr s = withHostElements s (transact cfg tr s) := by
  rcases transact_cases cfg tr s with
    ⟨-, h⟩ | ⟨tgt, -, ⟨-, -, -, h⟩ | ⟨-, -, h⟩ | ⟨-, -, -, h⟩ | ⟨-, -, h⟩⟩ <;> rw [h]
  case inr.inr.inr.inr => rw [writeTarget_frame]; rfl
  all_goals rfl

@[simp] theorem transact_prngState (cfg : Config) (tr : Transaction) (s : State) :
    (transact cfg tr s).prngState = s.prngState :=
  (congrArg State.prngState (transact_frame cfg tr s)).trans rfl

@[simp] theorem transact_seeded (cfg : Config) (tr : Transaction) (s : State) :
    (transact cfg tr s).seeded = s.seeded :=
  (congrArg State.seeded (transact_frame cfg tr s)).trans rfl

@[simp] theorem transact_fatal (cfg : Config) (tr : Transaction) (s : State) :
    (transact cfg tr s).fatal = s.fatal :=
  (congrArg State.fatal (transact_frame cfg tr s)).trans rfl

/-! ## Admitted and idle accesses at a register's offset -/

/-- A read of a register that is admitted while busy, busy or not (R80). -/
theorem transact_readReg_admitted (cfg : Config) (h : Nat) (r : Reg) (d : Word) (s : State)
    (ha : admitsRead (.reg r) = true) :
    transact cfg { host := h, kind := .read, off := regOffset r, size := .four, wdata := d } s =
      answer (.data (readReg r s)) s :=
  (transact_readReg cfg h r d s).trans (busRead_admitted _ s ha)

/-- A write of a register that is admitted while busy, busy or not (R80). -/
theorem transact_writeReg_admitted (cfg : Config) (h : Nat) (r : Reg) (d : Word) (s : State)
    (ha : admitsWrite (.reg r) = true) :
    transact cfg { host := h, kind := .write, off := regOffset r, size := .four, wdata := d } s =
      answer .okay (writeReg r d s) :=
  (transact_writeReg cfg h r d s).trans (busWrite_admitted _ d s ha)

theorem transact_readReg_idle (cfg : Config) (h : Nat) (r : Reg) (d : Word) (s : State)
    (hb : s.busy = false) :
    transact cfg { host := h, kind := .read, off := regOffset r, size := .four, wdata := d } s =
      answer (.data (readReg r s)) s :=
  (transact_readReg cfg h r d s).trans (busRead_idle _ s hb)

theorem transact_writeReg_idle (cfg : Config) (h : Nat) (r : Reg) (d : Word) (s : State)
    (hb : s.busy = false) :
    transact cfg { host := h, kind := .write, off := regOffset r, size := .four, wdata := d } s =
      answer .okay (writeReg r d s) :=
  (transact_writeReg cfg h r d s).trans (busWrite_idle _ d s hb)

/-- A write of CMD (R80, R144): the acceptance of a command, or a rejected access. -/
theorem transact_cmd (cfg : Config) (h : Nat) (w : Word) (s : State) :
    transact cfg { host := h, kind := .write, off := regOffset .cmd, size := .four, wdata := w } s =
      answer .okay (if s.busy then reject s else accept w s) := by
  rw [transact_writeReg]
  cases hb : s.busy with
  | true => exact busWrite_rejected _ w s hb rfl
  | false => exact busWrite_idle _ w s hb

/-! ## Views of the registers -/

/-- Byte `j` of word `i` of a block is the block's byte `4i + j` (R35, R56). -/
theorem blockWord_byte (v : Bytes32) (i : Fin 8) (j : Fin 4) :
    (blockWord v i).extractLsb' (8 * j.val) 8 = v[4 * i.val + j.val] := by
  refine (byteOfWord_u32leInv _ _ _ _ j).trans ?_
  fin_cases j <;> rfl

/-- Byte `4i + j` of a block after word `i` is set is byte `j` of the word (R35, R55, R56). -/
theorem setBlockWord_inside (v : Bytes32) (i : Fin 8) (d : Word) (j : Fin 4) :
    (setBlockWord v i d)[4 * i.val + j.val] = d.extractLsb' (8 * j.val) 8 := by
  rw [setBlockWord_getElem, if_pos (by omega), show (4 * i.val + j.val) % 4 = j.val by omega]
  rfl

theorem setBlockWord_outside (v : Bytes32) (i : Fin 8) (d : Word) (k : Nat) (hk : k < 32)
    (hne : k / 4 ≠ i.val) : (setBlockWord v i d)[k] = v[k] := by
  rw [setBlockWord_getElem, if_neg hne]

/-- A word set in a block is read back (R56). -/
theorem blockWord_setBlockWord (v : Bytes32) (i : Fin 8) (d : Word) :
    blockWord (setBlockWord v i d) i = d := by
  have hbyte := setBlockWord_inside v i d
  refine Eq.trans ?_ (u32leInv_bytes d)
  exact congrArg u32leInv (congr (congrArg List.cons (hbyte 0))
    (congr (congrArg List.cons (hbyte 1)) (congr (congrArg List.cons (hbyte 2))
      (congrArg (fun b => [b]) (hbyte 3)))))

/-- The flags of STATUS at bits 0 to 6, and the reserved bit 7 (R42). -/
theorem statusWord_flags (s : State) :
    (statusWord s).getLsbD 0 = s.busy ∧ (statusWord s).getLsbD 1 = s.done ∧
    (statusWord s).getLsbD 2 = s.collide ∧ (statusWord s).getLsbD 3 = s.seeded ∧
    (statusWord s).getLsbD 4 = s.fatal ∧ (statusWord s).getLsbD 5 = keyValid s ∧
    (statusWord s).getLsbD 6 = nonceValid s ∧ (statusWord s).getLsbD 7 = false := by
  unfold statusWord bit
  refine ⟨?_, ?_, ?_, ?_, ?_, ?_, ?_, ?_⟩ <;> repeat rw [BitVec.getLsbD_append]
  all_goals simp

/-- STATUS above its low byte is RESULT, LAST_OP and 16 zero bits (R42). -/
theorem statusWord_extract_high (s : State) (k n : Nat) :
    (statusWord s).extractLsb' (8 + k) n = (0#16 ++ s.lastOp ++ s.result).extractLsb' k n := by
  unfold statusWord
  repeat rw [BitVec.extractLsb'_append_eq_of_le (by omega)]
  congr 1
  omega

theorem statusWord_codes (s : State) :
    (statusWord s).extractLsb' 8 4 = s.result ∧ (statusWord s).extractLsb' 12 4 = s.lastOp ∧
    (statusWord s).extractLsb' 16 16 = 0#16 := by
  refine ⟨(statusWord_extract_high s 0 4).trans ?_, (statusWord_extract_high s 4 4).trans ?_,
    (statusWord_extract_high s 8 16).trans ?_⟩
  · exact BitVec.extractLsb'_append_eq_right
  · rw [BitVec.extractLsb'_append_eq_of_le (by omega)]
    exact BitVec.extractLsb'_append_eq_right
  · rw [BitVec.extractLsb'_append_eq_of_le (by omega), BitVec.extractLsb'_append_eq_of_le (by omega)]
    rfl

theorem loadMaskWord_fields (s : State) :
    (loadMaskWord s).extractLsb' 0 8 = s.keyMask ∧ (loadMaskWord s).extractLsb' 8 8 = s.nonceMask ∧
    (loadMaskWord s).extractLsb' 16 16 = 0#16 := by
  unfold loadMaskWord
  refine ⟨BitVec.extractLsb'_append_eq_right, ?_, ?_⟩
  · rw [BitVec.extractLsb'_append_eq_of_le (by omega)]
    exact BitVec.extractLsb'_append_eq_right
  · rw [BitVec.extractLsb'_append_eq_of_le (by omega), BitVec.extractLsb'_append_eq_of_le (by omega)]
    rfl

/-- Settles O16: at ID and VERSION the read is admitted busy or not, at the others it is idle, and
either answers the register's view. -/
theorem registerReadsReturnTheirViews : Obligations.RegisterReadsReturnTheirViews := by
  intro s h d off
  have hidle : s.busy = false → ∀ r, off = regOffset r →
      (transact Config.hw { host := h, kind := .read, off := off, size := .four, wdata := d } s).env.reply =
        some (.data (readReg r s)) := by
    rintro hb r rfl
    rw [transact_readReg_idle _ _ _ _ _ hb]
    rfl
  refine ⟨?_, ?_, fun hb => ⟨hidle hb .cmd, hidle hb .dataLenLo, hidle hb .dataLenHi,
    hidle hb .outLenLo, hidle hb .outLenHi, fun i => hidle hb (.key i), fun i hoff => ?_⟩⟩
  · rintro rfl
    exact congrArg (·.env.reply) (transact_readReg_admitted _ h .id d s rfl)
  · rintro rfl
    exact congrArg (·.env.reply) (transact_readReg_admitted _ h .version d s rfl)
  · exact ⟨_, hidle hb (.nonce i) hoff, blockWord_byte s.nonce i⟩

/-- Settles O17: STATUS is admitted busy or not, its view is a concatenation of its fields, and
`writeStatus_eq` is what a write does. -/
theorem statusReadsItsFieldsAndClearsTwo : Obligations.StatusReadsItsFieldsAndClearsTwo := by
  refine ⟨fun s h d => ⟨statusWord s, transact_readReg_admitted _ h .status d s rfl, ?_⟩, by decide,
    fun s h d => ?_⟩
  · obtain ⟨h0, h1, h2, h3, h4, h5, h6, h7⟩ := statusWord_flags s
    have hkey : keyValid s = true ↔ s.keyMask = 0xFF#8 := beq_iff_eq
    have hnonce : nonceValid s = true ↔ s.nonceMask = 0xFF#8 := beq_iff_eq
    exact ⟨h0, h1, h2, h3, h4, h5 ▸ hkey, h6 ▸ hnonce, h7, statusWord_codes s⟩
  · refine (transact_writeReg_admitted _ h .status d s rfl).trans ?_
    rw [writeReg, writeStatus_eq]
    rfl

/-- Settles O18: CTRL is admitted busy or not, and its view is IE below 31 zero bits. -/
theorem ctrlWritesAndReadsInterruptEnable : Obligations.CtrlWritesAndReadsInterruptEnable := by
  refine ⟨fun s h d => ⟨transact_writeReg_admitted _ h .ctrl d s rfl, ?_⟩, rfl⟩
  refine (transact_readReg_admitted _ h .ctrl d s rfl).trans ?_
  have hview : readReg .ctrl s = if s.ie then 1#32 else 0#32 := by
    cases hie : s.ie <;> simp [readReg, ctrlWord, hie, bit]
  rw [hview]
  rfl

/-- Settles O19: LOADMASK is admitted busy or not, and its view is the concatenation of the masks. -/
theorem loadMaskReadsBothMasks : Obligations.LoadMaskReadsBothMasks := fun s h d =>
  ⟨loadMaskWord s, transact_readReg_admitted _ h .loadMask d s rfl, loadMaskWord_fields s⟩

/-- Settles O20: the write is the block operation `setBlockWord` on the key and `markWord` on its mask. -/
theorem keyWriteReplacesOneWord : Obligations.KeyWriteReplacesOneWord := by
  intro s h i d hb
  exact ⟨_, transact_writeReg_idle _ h (.key i) d s hb, rfl, setBlockWord_inside s.key i d,
    setBlockWord_outside s.key i d, markWord_getLsbD s.keyMask i⟩

/-- Settles O21: as O20 on the nonce, whose word is read back. -/
theorem nonceWriteReplacesOneWordAndReadsBack : Obligations.NonceWriteReplacesOneWordAndReadsBack := by
  intro s h i d hb
  refine ⟨_, transact_writeReg_idle _ h (.nonce i) d s hb, rfl, setBlockWord_inside s.nonce i d,
    setBlockWord_outside s.nonce i d, markWord_getLsbD s.nonceMask i, ?_⟩
  refine (congrArg (·.env.reply) (transact_readReg_idle _ h (.nonce i) d
    (answer .okay (writeReg (.nonce i) d s)) hb)).trans ?_
  exact congrArg (fun w => some (Reply.data w)) (blockWord_setBlockWord s.nonce i d)

/-- Settles O22: each half is cut out of the concatenation that the write makes. -/
theorem dataLenWritesReplaceOneHalf : Obligations.DataLenWritesReplaceOneHalf := fun s h d hb =>
  ⟨_, _, transact_writeReg_idle _ h .dataLenLo d s hb, transact_writeReg_idle _ h .dataLenHi d s hb,
    BitVec.extractLsb'_append_eq_right, BitVec.extractLsb'_append_eq_left,
    BitVec.extractLsb'_append_eq_right, BitVec.extractLsb'_append_eq_left⟩

/-- The five offsets of R33's read-only registers are those registers' (R32). -/
theorem readOnly_of_offset {off : Offset} (h : off.toNat ∈ [0x00, 0x04, 0x14, 0x20, 0x24]) :
    ∃ r ∈ [Reg.id, .version, .loadMask, .outLenLo, .outLenHi], off = regOffset r := by
  simp only [List.mem_cons, List.not_mem_nil, or_false] at h
  simp only [List.mem_cons, List.not_mem_nil, or_false, exists_eq_or_imp, exists_eq_left, regOffset,
    ← BitVec.toNat_inj]
  simpa using h

theorem writeReg_readOnly {r : Reg} (h : r ∈ [Reg.id, .version, .loadMask, .outLenLo, .outLenHi])
    (d : Word) (s : State) : writeReg r d s = s := by
  fin_cases h <;> rfl

/-- Settles O23: each offset decodes to a read-only register or to a word of OUT, and a write to
either leaves the state as it was. -/
theorem readOnlyWritesAreIgnored : Obligations.ReadOnlyWritesAreIgnored := by
  rintro cfg s ⟨h, kind, off, size, d⟩ hb rfl rfl halign (hreg | ⟨hlow, hhigh⟩)
  · obtain ⟨r, hr, rfl⟩ := readOnly_of_offset hreg
    rw [transact_writeReg_idle cfg h r d s hb, writeReg_readOnly hr]
    rfl
  · obtain ⟨a, ha⟩ := Nat.exists_eq_add_of_le hlow
    have hdec : decodeOffset cfg off.toNat = some (.outWord a) :=
      ha ▸ decodeOffset_out cfg a (by dsimp only at ha hhigh; omega)
    rw [transact_legal cfg h .write off d _ s halign hdec]
    exact busWrite_idle (.outWord a) d s hb

/-! ## Secrets and transactions -/

theorem sameButSecrets.answer {s s' : State} (h : sameButSecrets s s') (r : Reply) :
    sameButSecrets (answer r s) (answer r s') := by
  rw [h]; rfl

theorem sameButSecrets.reject {s s' : State} (h : sameButSecrets s s') :
    sameButSecrets (reject s) (reject s') := by
  rw [h]; rfl

theorem sameButSecrets.busy_eq {s s' : State} (h : sameButSecrets s s') : s'.busy = s.busy := by
  rw [h]

/-- No view of the state reads a secret or the PRNG state (R59, R61). -/
theorem sameButSecrets.readTarget_eq {s s' : State} (h : sameButSecrets s s') (tgt : Target) :
    readTarget tgt s' = readTarget tgt s := by
  rw [h]
  cases tgt with
  | reg r => cases r <;> rfl
  | inWord a | outWord a => rfl

theorem sameButSecrets.writeTarget {s s' : State} (h : sameButSecrets s s') (tgt : Target) (d : Word) :
    sameButSecrets (writeTarget tgt d s) (writeTarget tgt d s') := by
  rw [h]
  cases tgt with
  | reg r =>
    cases r with
    | status => simp only [Machine.writeTarget, writeReg, writeStatus_eq]; rfl
    | id | version | ctrl | cmd | loadMask | dataLenLo | dataLenHi | outLenLo | outLenHi | key | nonce => rfl
  | inWord a | outWord a => rfl

/-- Settles O26: the gating reads `busy`, the views read no secret, and a write keeps the rest equal. -/
theorem noAccessReadsTheSecrets : Obligations.NoAccessReadsTheSecrets := by
  intro tr s s' hsame
  unfold transact
  cases legalTarget Config.hw tr with
  | none => exact ⟨rfl, hsame.answer _⟩
  | some tgt =>
    cases tr.kind with
    | read =>
      simp only [busRead, hsame.busy_eq, hsame.readTarget_eq]
      split
      · exact ⟨rfl, hsame.reject.answer _⟩
      · exact ⟨rfl, hsame.answer _⟩
    | write =>
      simp only [busWrite, hsame.busy_eq]
      split
      · exact ⟨rfl, hsame.reject.answer _⟩
      · exact ⟨rfl, (hsame.writeTarget tgt tr.wdata).answer _⟩

/-! ## The interrupt -/

/-- Settles O28: both writes leave DONE clear, and FINISH sets it and keeps IE. -/
theorem interruptFollowsEnableAndDone : Obligations.InterruptFollowsEnableAndDone := by
  intro s h w
  refine ⟨Bool.and_eq_true_iff, fun hw => ?_, fun hb => ?_, fun hf => ?_⟩
  · refine (congrArg irq (transact_writeReg_admitted _ h .status w s rfl)).trans ?_
    simp [irq, writeReg, writeStatus_eq, hw]
  · refine (congrArg irq (transact_cmd _ h w s)).trans ?_
    simp [irq, hb]
  · exact ⟨_, seqStep_finish _ s hf, Bool.and_true _⟩

/-! ## The PRNG state -/

@[simp] theorem verdict_prngState (s : State) : (verdict s).prngState = s.prngState := by
  rcases verdict_cases s with ⟨-, h⟩ | ⟨-, h⟩ <;> rw [h]

/-- Settles O37: a transaction writes host-visible elements only (`transact_frame`), and every step
of the sequencer but SEED and DRAW keeps `prng_state`. -/
theorem onlySeedAndDrawWriteThePrngState : Obligations.OnlySeedAndDrawWriteThePrngState := by
  refine ⟨transact_prngState Config.hw, fun s t hstep hseed hdraw => ?_⟩
  cases seqStep_next hstep with
  | seedFails h | seeds h => exact absurd h hseed
  | draws h => exact absurd h hdraw
  | decides => exact verdict_prngState _
  | idle | illegal | fails | passes | waits | kdfEnc | kdfMac | senc | macGen | frame | macChk
  | compares | sdec | wipe | clear | finish => rfl

end Sys2Proof.Machine

/-! PROOF. A property kept by every kind of move is kept by every step (R82); the invariant at reset and in every
step, SEEDED and FATAL until reset. -/

namespace Sys2Proof.Machine

/-! ## One step of the model, by what its moves are made of -/

/-- A property that everything a move but reset is made of keeps: a transaction, a step of the
sequencer, a host agent's advance, an answer of the entropy source, and taking the move off the list. -/
structure KeptByMoves (P : State → Prop) : Prop where
  transact : ∀ tr s, P s → P (transact Config.hw tr s)
  seqNext : ∀ {s t}, SeqNext Config.hw s t → P s → P t
  setHost : ∀ h a s, P s → P (setHost h a s)
  giveAnswer : ∀ a s, P s → P (giveAnswer Config.hw a s)
  withoutMove : ∀ ms s, P s → P (withoutMove ms s)

/-- A RUN is its write of CMD and then steps of the sequencer, none while busy (R85, R143). -/
theorem runWord_eq_transact (h : Nat) (w : Word) (s : State) :
    ∃ n, runWord w (answer .okay s) = seqRun Config.hw n (transact Config.hw
      { host := h, kind := .write, off := regOffset .cmd, size := .four, wdata := w } s) := by
  rw [transact_cmd]
  cases hb : s.busy with
  | true => exact ⟨0, runWord_busy w (answer .okay s) hb⟩
  | false =>
    obtain ⟨n, -, hrun⟩ := runWord_idle w (answer .okay s) hb
    exact ⟨n, hrun⟩

namespace KeptByMoves

variable {P : State → Prop}

theorem seqStep (hP : KeptByMoves P) {s t : State} (hs : P s) (h : seqStep Config.hw s = .next t) : P t :=
  hP.seqNext (seqStep_next h) hs

theorem seqRun (hP : KeptByMoves P) {n : Nat} {s t : State} (hs : P s)
    (h : seqRun Config.hw n s = .next t) : P t := by
  induction n generalizing s with
  | zero => cases h; exact hs
  | succ n ih =>
    obtain ⟨u, hstep, hrun⟩ := andThen_eq_next h
    exact ih (hP.seqStep hs hstep) hrun

theorem hostStep (hP : KeptByMoves P) (h : Nat) {s : State} (hs : P s) : P (hostStep Config.hw h s) := by
  rcases hostStep_cases Config.hw h s with he | ⟨a, l, -, -, ⟨tr, -, he⟩ | ⟨-, he⟩⟩ <;> rw [he]
  · exact hs
  · exact hP.setHost _ _ _ (hP.transact tr s hs)
  · exact hP.setHost _ _ _ hs

theorem performMove (hP : KeptByMoves P) {m : Move} {s t : State} (hs : P s) (hm : m ≠ .reset)
    (h : performMove m s = .next t) : P t := by
  cases m with
  | reset => exact absurd rfl hm
  | sequencer => exact hP.seqStep hs h
  | run n w =>
    obtain ⟨k, hrun⟩ := runWord_eq_transact n w s
    exact hP.seqRun (hP.transact _ s hs) (hrun.symm.trans h)
  | bus tr => cases h; exact hP.transact tr s hs
  | host n => cases h; exact hP.hostStep n hs
  | entropy a => cases h; exact hP.giveAnswer a s hs

/-- A property kept by moves is kept by a step, if it also holds after the reset such a step may be. -/
theorem step (hP : KeptByMoves P) {s t : State} (hs : P s) (h : step s = .next t)
    (hreset : ∀ ms, s.env.moves = .reset :: ms → P (resetBlock (Machine.withoutMove ms s))) : P t := by
  cases hmoves : s.env.moves with
  | nil => exact hP.seqStep hs ((step_of_moves_nil hmoves).symm.trans h)
  | cons m ms =>
    have hmove := (step_of_moves_cons hmoves).symm.trans h
    by_cases hm : m = .reset
    · subst hm
      cases hmove
      exact hreset ms hmoves
    · exact hP.performMove (hP.withoutMove ms s hs) hm hmove

end KeptByMoves

/-- What holds of both successors of the last compare holds of the verdict (R176). -/
theorem verdict_of_both {P : State → Prop} {s : State} (hsdec : P { s with seq := .sdec })
    (hwipe : P { s with pend := codeOf .badMac, seq := .wipe }) : P (verdict s) := by
  rcases verdict_cases s with ⟨-, h⟩ | ⟨-, h⟩ <;> rw [h] <;> assumption

/-! ## SEEDED and FATAL -/

/-- Only seeding writes SEEDED, and it sets it (R46, R131). -/
theorem SeqNext.seeded_eq {cfg : Config} {s t : State} (h : SeqNext cfg s t) :
    t.seeded = s.seeded ∨ t.seeded = true := by
  cases h with
  | seeds => exact .inr rfl
  | decides => exact .inl (verdict_of_both (P := (·.seeded = s.seeded)) rfl rfl)
  | idle | illegal | fails | passes | waits | seedFails | draws | kdfEnc | kdfMac | senc | macGen
  | frame | macChk | compares | sdec | wipe | clear | finish => exact .inl rfl

/-- Only a failed seeding writes FATAL, and it sets it (R47, R131). -/
theorem SeqNext.fatal_eq {cfg : Config} {s t : State} (h : SeqNext cfg s t) :
    t.fatal = s.fatal ∨ t.fatal = true := by
  cases h with
  | seedFails => exact .inr rfl
  | decides => exact .inl (verdict_of_both (P := (·.fatal = s.fatal)) rfl rfl)
  | idle | illegal | fails | passes | waits | seeds | draws | kdfEnc | kdfMac | senc | macGen
  | frame | macChk | compares | sdec | wipe | clear | finish => exact .inl rfl

theorem seeded_keptByMoves : KeptByMoves fun s => s.seeded = true where
  transact tr s hs := (transact_seeded _ tr s).trans hs
  seqNext h hs := h.seeded_eq.elim (·.trans hs) id
  setHost _ _ _ hs := hs
  giveAnswer _ _ hs := hs
  withoutMove _ _ hs := hs

theorem fatal_keptByMoves : KeptByMoves fun s => s.fatal = true where
  transact tr s hs := (transact_fatal _ tr s).trans hs
  seqNext h hs := h.fatal_eq.elim (·.trans hs) id
  setHost _ _ _ hs := hs
  giveAnswer _ _ hs := hs
  withoutMove _ _ hs := hs

/-- Settles O38: no move but reset clears either flag. -/
theorem seededAndFatalLastUntilReset : Obligations.SeededAndFatalLastUntilReset := fun _ _ hstep hreset =>
  ⟨fun hs => seeded_keptByMoves.step hs hstep fun ms hm => absurd hm (hreset ms),
    fun hs => fatal_keptByMoves.step hs hstep fun ms hm => absurd hm (hreset ms)⟩

/-! ## The invariant at reset -/

theorem codeOf_lt_eight (c : ResultCode) : (codeOf c).toNat < 8 := by
  cases c <;> decide

/-- Reset establishes the invariant, whatever the state was, while the answers that wait are legal (R213). -/
theorem inv_resetBlock {cfg : Config} {s : State} (h : AnswersLegal cfg s) : Inv cfg (resetBlock s) where
  buffers := ⟨Memory.nil_wf, Memory.nil_wf, nofun, nofun⟩
  busySeq := ⟨nofun, fun hne => absurd rfl hne⟩
  codes := ⟨codeOf_lt_eight .ok, codeOf_lt_eight .ok⟩
  seeding := ⟨⟨nofun, nofun⟩, nofun⟩
  prng := rfl
  answers := h
  seqOk := ⟨nofun, nofun, nofun, nofun⟩
  wiped := fun _ => ⟨rfl, rfl, rfl, rfl, rfl, rfl⟩

/-- Settles O10: the state after reset is the reset of itself, with no answer waiting. -/
theorem invariantHoldsAtReset : Obligations.InvariantHoldsAtReset :=
  inv_resetBlock (s := State.reset) fun _ ha => absurd ha List.not_mem_nil

/-! ## The invariant and transactions -/

/-- `s` with every element the invariant does not read at its reset value. -/
def invariantPart (s : State) : State :=
  { s with
    key := zero32, keyMask := 0#8, nonce := zero32, nonceMask := 0#8, dataLen := 0#64, outLen := 0#64
    ie := false, done := false, collide := false, lastOp := 0#4
    env := { Env.quiet with entropy := s.env.entropy } }

theorem inv_invariantPart_iff (cfg : Config) (s : State) : Inv cfg (invariantPart s) ↔ Inv cfg s := by
  constructor <;>
    exact fun ⟨⟨inWf, outWf, inBelow, outBelow⟩, busySeq, codes, seeding, prng, answers,
        ⟨atSeed, atDraw, atCmp, atData⟩, wiped⟩ =>
      ⟨⟨inWf, outWf, inBelow, outBelow⟩, busySeq, codes, seeding, prng, answers,
        ⟨atSeed, atDraw, atCmp, atData⟩, wiped⟩

/-- The invariant goes over to a state with the same invariant part. -/
theorem Inv.of_invariantPart_eq {cfg : Config} {s t : State} (h : Inv cfg s)
    (heq : invariantPart t = invariantPart s) : Inv cfg t := by
  rw [← inv_invariantPart_iff, heq, inv_invariantPart_iff]
  exact h

/-- Acceptance starts from a wiped block, and CHECK needs nothing else (R144). -/
theorem Inv.accept {cfg : Config} {s : State} (h : Inv cfg s) (hb : s.busy = false) (w : Word) :
    Inv cfg (accept w s) where
  buffers := ⟨h.buffers.inWf, h.buffers.outWf, h.buffers.inBelow, h.buffers.outBelow⟩
  busySeq := ⟨nofun, fun _ => rfl⟩
  codes := ⟨h.codes.1, codeOf_lt_eight .ok⟩
  seeding := h.seeding
  prng := h.prng
  answers := h.answers
  seqOk := ⟨nofun, nofun, nofun, nofun⟩
  wiped := fun _ => h.wiped (by
    have hidle : s.seq = .idle := by_contra fun hne => by simp [h.busySeq.mpr hne] at hb
    rw [hidle]; rfl)

/-- Only an offset of the IN window decodes to a word of IN (R74, R75). -/
theorem offset_of_decodeOffset_in {cfg : Config} {off a : Nat}
    (h : decodeOffset cfg off = some (.inWord a)) : off = 0x10000 + a ∧ a < cfg.bufBytes := by
  unfold decodeOffset at h
  split_ifs at h with hreg hkey hnonce hin hout
  · simp at h
  · simp at h
  · simp at h
  · simp only [Option.some.injEq, Target.inWord.injEq] at h
    omega
  · simp at h

/-- An aligned word of IN lies inside the buffer, for BUF_BYTES is a multiple of 4 (R12, R77). -/
theorem inWord_inside {cfg : Config} {tr : Transaction} {a : Nat}
    (h : legalTarget cfg tr = some (.inWord a)) : a + 4 ≤ cfg.bufBytes := by
  unfold legalTarget at h
  split_ifs at h with hlegal
  obtain ⟨hoff, ha⟩ := offset_of_decodeOffset_in h
  have hwords := cfg.maxPtWords
  unfold Config.bufBytes at ha ⊢
  omega

theorem Inv.writeInWord {cfg : Config} {s : State} (h : Inv cfg s) {a : Nat} (ha : a + 4 ≤ cfg.bufBytes)
    (d : Word) : Inv cfg (writeTarget (.inWord a) d s) where
  buffers := ⟨Memory.writeBytes_wf _ _ _ h.buffers.inWf, h.buffers.outWf,
    Memory.writeBytes_below _ _ _ _ h.buffers.inBelow (by rwa [u32le_length]), h.buffers.outBelow⟩
  busySeq := h.busySeq
  codes := h.codes
  seeding := h.seeding
  prng := h.prng
  answers := h.answers
  seqOk := ⟨h.seqOk.atSeed, h.seqOk.atDraw, h.seqOk.atCmp, h.seqOk.atData⟩
  wiped := h.wiped

theorem Inv.writeReg {cfg : Config} {s : State} (h : Inv cfg s) (r : Reg) (d : Word)
    (hgate : s.busy = true → admitsWrite (.reg r) = true) : Inv cfg (writeReg r d s) := by
  cases r with
  | cmd =>
    have hb : s.busy = false := Bool.eq_false_iff.mpr fun hb => nomatch hgate hb
    exact h.accept hb d
  | status => exact h.of_invariantPart_eq (by rw [Machine.writeReg, writeStatus_eq]; rfl)
  | id | version | ctrl | loadMask | dataLenLo | dataLenHi | outLenLo | outLenHi | key | nonce =>
    exact h.of_invariantPart_eq rfl

theorem Inv.transact {cfg : Config} {s : State} (h : Inv cfg s) (tr : Transaction) :
    Inv cfg (transact cfg tr s) := by
  have hanswer : ∀ {u} r, Inv cfg u → Inv cfg (answer r u) := fun r hu => hu.of_invariantPart_eq rfl
  have hreject : Inv cfg (reject s) := h.of_invariantPart_eq rfl
  rcases transact_cases cfg tr s with ⟨-, he⟩ | ⟨tgt, hlegal, hcase⟩
  · rw [he]; exact hanswer _ h
  · rcases hcase with ⟨-, -, -, he⟩ | ⟨-, -, he⟩ | ⟨-, -, -, he⟩ | ⟨-, hgate, he⟩ <;> rw [he] <;>
      apply hanswer
    · exact hreject
    · exact h
    · exact hreject
    · cases tgt with
      | reg r => exact h.writeReg r _ hgate
      | inWord a => exact h.writeInWord (inWord_inside hlegal) _
      | outWord a => exact h

/-- An answer that comes to wait is a Seed or failure (R111). -/
theorem AnswersLegal.giveAnswer {cfg : Config} {s : State} (h : AnswersLegal cfg s) (a : EntropyAnswer) :
    AnswersLegal cfg (giveAnswer cfg a s) := by
  unfold AnswersLegal Machine.giveAnswer
  dsimp only
  split
  · next hlegal =>
    intro b hb
    rcases List.mem_append.mp hb with hold | hnew
    · exact h b hold
    · exact List.mem_singleton.mp hnew ▸ hlegal
  · exact h

theorem Inv.giveAnswer {cfg : Config} {s : State} (h : Inv cfg s) (a : EntropyAnswer) :
    Inv cfg (giveAnswer cfg a s) where
  buffers := ⟨h.buffers.inWf, h.buffers.outWf, h.buffers.inBelow, h.buffers.outBelow⟩
  busySeq := h.busySeq
  codes := h.codes
  seeding := h.seeding
  prng := h.prng
  answers := h.answers.giveAnswer a
  seqOk := ⟨h.seqOk.atSeed, h.seqOk.atDraw, h.seqOk.atCmp, h.seqOk.atData⟩
  wiped := h.wiped

/-! ## The invariant and the sequencer -/

/-- A command that passes CHECK goes on to a state of its path, not to IDLE (R145). -/
theorem afterCheck_ne_idle (i : Instr) (seeded : Bool) : afterCheck i seeded ≠ .idle := by
  cases i <;> cases seeded <;> decide

/-- A step of the sequencer writes the buffers inside their bounds, or empties them (R77). -/
theorem SeqNext.buffersWf {cfg : Config} {s t : State} (h : SeqNext cfg s t) (hb : BuffersWf cfg s) :
    BuffersWf cfg t := by
  have hout : ∀ u : State, u.inBuf = s.inBuf → u.outBuf.wf → u.outBuf.below cfg.bufBytes → BuffersWf cfg u :=
    fun u hin hwf hbelow => ⟨hin ▸ hb.inWf, hwf, hin ▸ hb.inBelow, hbelow⟩
  have hsize : cfg.bufBytes = cfg.maxPt + 72 := rfl
  cases h with
  | senc _ hl =>
    refine hout _ rfl (Memory.writeBytes_wf _ _ _ hb.outWf) (Memory.writeBytes_below _ _ _ _ hb.outBelow ?_)
    rwa [sencOutput_length]
  | frame =>
    refine hout _ rfl (Memory.writeBytes_wf _ _ _ (Memory.writeBytes_wf _ _ _ (Memory.writeBytes_wf _ _ _ hb.outWf)))
      (Memory.writeBytes_below _ _ _ _ (Memory.writeBytes_below _ _ _ _
        (Memory.writeBytes_below _ _ _ _ hb.outBelow ?_) ?_) ?_) <;> simp <;> omega
  | sdec _ hl =>
    refine hout _ rfl (Memory.writeBytes_wf _ _ _ hb.outWf) (Memory.writeBytes_below _ _ _ _ hb.outBelow ?_)
    rw [cfg.sdecLen, Memory.readBytes_length]
    omega
  | clear => exact ⟨Memory.nil_wf, Memory.nil_wf, nofun, nofun⟩
  | decides =>
    exact verdict_of_both (hout _ rfl hb.outWf hb.outBelow) (hout _ rfl hb.outWf hb.outBelow)
  | idle | illegal | fails | passes | waits | seedFails | seeds | draws | kdfEnc | kdfMac | macGen
  | macChk | compares | wipe | finish => exact hout _ rfl hb.outWf hb.outBelow

theorem ite_ne_of_ne {c : Prop} [Decidable c] {p q r : SeqState} (hp : p ≠ r) (hq : q ≠ r) :
    (if c then p else q) ≠ r := by
  split <;> assumption

/-- A step from a state other than IDLE stays busy until FINISH (R64). -/
theorem SeqNext.busyMatchesSeq {cfg : Config} {s t : State} (h : SeqNext cfg s t) (hb : BusyMatchesSeq s) :
    BusyMatchesSeq t := by
  have hactive : ∀ {q : SeqState} (u : State), s.seq = q → q ≠ .idle → u.busy = s.busy → u.seq ≠ .idle →
      BusyMatchesSeq u := by
    intro q u hq hne hbusy hu
    exact ⟨fun _ => hu, fun _ => hbusy.trans (hb.mpr (hq ▸ hne))⟩
  cases h with
  | idle | waits => exact hb
  | passes h => exact hactive _ h nofun rfl (afterCheck_ne_idle _ _)
  | seeds h | draws h | kdfMac h => exact hactive _ h nofun rfl (ite_ne_of_ne nofun nofun)
  | decides h =>
    exact verdict_of_both (hactive _ h nofun rfl nofun) (hactive _ h nofun rfl nofun)
  | finish => exact ⟨nofun, fun hne => absurd rfl hne⟩
  | illegal h | fails h | seedFails h | kdfEnc h | senc h | macGen h | frame h | macChk h | compares h
  | sdec h | wipe h | clear h => exact hactive _ h nofun rfl nofun

/-- A step of the sequencer builds only results of R183 (R192). -/
theorem SeqNext.codesAssigned {cfg : Config} {s t : State} (h : SeqNext cfg s t) (hc : CodesAssigned s) :
    CodesAssigned t := by
  cases h with
  | illegal | fails | seedFails => exact ⟨hc.1, codeOf_lt_eight _⟩
  | decides => exact verdict_of_both hc ⟨hc.1, codeOf_lt_eight _⟩
  | finish => exact ⟨hc.2, hc.2⟩
  | idle | passes | waits | seeds | draws | kdfEnc | kdfMac | senc | macGen | frame | macChk | compares
  | sdec | wipe | clear => exact hc

/-- SEED sets one of FATAL and SEEDED when neither is set, and no other step sets either (R131). -/
theorem SeqNext.seedingMatches {cfg : Config} {s t : State} (h : SeqNext cfg s t) (hm : SeedingMatches s)
    (hq : s.seq = .seed → s.seeded = false ∧ s.fatal = false) : SeedingMatches t := by
  cases h with
  | seedFails h => exact ⟨hm.1, fun hboth => by simp [(hq h).1] at hboth⟩
  | seeds h => exact ⟨⟨fun _ => rfl, fun _ => rfl⟩, fun hboth => by simp [(hq h).2] at hboth⟩
  | draws h o ho => exact ⟨⟨fun _ => rfl, fun _ => hm.1.mpr (by simp [ho])⟩, hm.2⟩
  | decides => exact verdict_of_both hm hm
  | idle | illegal | fails | passes | waits | kdfEnc | kdfMac | senc | macGen | frame | macChk | compares
  | sdec | wipe | clear | finish => exact hm

/-- A state that is not at SEED, DRAW or CMP is consistent by its latched length alone. -/
theorem SeqConsistent.of_length {cfg : Config} {s : State} (hseed : s.seq ≠ .seed) (hdraw : s.seq ≠ .draw)
    (hcmp : s.seq ≠ .cmp) (hlen : usesLength s.seq = true → s.latLen.toNat ≤ cfg.maxPt) :
    SeqConsistent cfg s :=
  ⟨fun h => absurd h hseed, fun h => absurd h hdraw, fun h => absurd h hcmp, hlen⟩

theorem SeqConsistent.of_finish {cfg : Config} {s : State} (h : s.seq = .finish) : SeqConsistent cfg s :=
  .of_length (h ▸ nofun) (h ▸ nofun) (h ▸ nofun) (h ▸ nofun)

theorem SeqConsistent.of_draw {cfg : Config} {s : State} (h : s.seq = .draw) (hp : s.prngState.isSome = true)
    (hlen : opcodeField s.cmdRaw = 0x1#4 ∨ s.latLen.toNat ≤ cfg.maxPt) : SeqConsistent cfg s :=
  ⟨h ▸ nofun, fun _ => ⟨hp, hlen⟩, h ▸ nofun, h ▸ nofun⟩

/-- CHECK goes to SEED only with a command that draws entropy while unseeded (R145). -/
theorem afterCheck_eq_seed {i : Instr} {seeded : Bool} (h : afterCheck i seeded = .seed) :
    seeded = false ∧ (i = .genNonce ∨ i = .seed ∨ i = .enc) := by
  revert h
  cases i <;> cases seeded <;> decide

/-- CHECK goes to DRAW only with a command that draws a nonce while seeded (R145). -/
theorem afterCheck_eq_draw {i : Instr} {seeded : Bool} (h : afterCheck i seeded = .draw) :
    seeded = true ∧ (i = .genNonce ∨ i = .enc) := by
  revert h
  cases i <;> cases seeded <;> decide

/-- CHECK goes straight to a state that uses the latched length only with ENC_RAW or DEC_RAW (R145). -/
theorem afterCheck_usesLength {i : Instr} {seeded : Bool} (h : usesLength (afterCheck i seeded) = true) :
    i = .encRaw ∨ i = .decRaw := by
  revert h
  cases i <;> cases seeded <;> decide

theorem afterCheck_ne_cmp (i : Instr) (seeded : Bool) : afterCheck i seeded ≠ .cmp := by
  cases i <;> cases seeded <;> decide

/-- A command that passes CHECK is consistent wherever it goes: its tests are what SEED, DRAW and the
steps that use the length need (R77, R131, R134, R145). -/
theorem Passes.seqConsistent {cfg : Config} {i : Instr} {s : State} (h : Passes cfg i s)
    (hd : decode s.cmdRaw = .command i) (hm : SeedingMatches s) (o : Length) :
    SeqConsistent cfg { s with
      outLen := o, latLen := latchedLength i s.dataLen, seq := afterCheck i s.seeded } := by
  have hop : opcodeField s.cmdRaw = opcodeOf i := opcodeField_of_decode hd
  refine ⟨fun hseed => ?_, fun hdraw => ?_, fun hcmp => absurd hcmp (afterCheck_ne_cmp _ _), fun huse => ?_⟩
  · obtain ⟨hseeded, hi⟩ := afterCheck_eq_seed hseed
    rcases hi with rfl | rfl | rfl
    · exact ⟨hseeded, h.notFatal nofun nofun, .inl hop⟩
    · exact ⟨hseeded, h.notFatal nofun nofun, .inr (.inl hop)⟩
    · exact ⟨hseeded, h.notFatal nofun nofun, .inr (.inr (h.latched_le (.inr (.inl rfl))))⟩
  · obtain ⟨hseeded, hi⟩ := afterCheck_eq_draw hdraw
    rcases hi with rfl | rfl
    · exact ⟨hm.1.mp hseeded, .inl hop⟩
    · exact ⟨hm.1.mp hseeded, .inr (h.latched_le (.inr (.inl rfl)))⟩
  · rcases afterCheck_usesLength huse with rfl | rfl
    · exact h.latched_le (.inl rfl)
    · exact h.latched_le (.inr (.inr rfl))

/-- A step of the sequencer leads to a consistent state (R77, R131, R134, R176). -/
theorem SeqNext.seqConsistent {cfg : Config} {s t : State} (h : SeqNext cfg s t) (hc : SeqConsistent cfg s)
    (hm : SeedingMatches s) : SeqConsistent cfg t := by
  have hdata : ∀ {q : SeqState}, s.seq = q → usesLength q = true → s.latLen.toNat ≤ cfg.maxPt :=
    fun hq hu => hc.atData (hq ▸ hu)
  cases h with
  | idle | waits => exact hc
  | passes h i hd hp => exact ((firstCheckFailure_none_iff _ _ _).mp hp).seqConsistent hd hm _
  | seeds h =>
    obtain ⟨-, -, hlen⟩ := hc.atSeed h
    by_cases hop : opcodeField s.cmdRaw = 0x6#4
    · exact .of_finish (if_pos hop)
    · refine .of_draw (if_neg hop) rfl ?_
      rcases hlen with hgen | hseed | hlen
      · exact .inl hgen
      · exact absurd hseed hop
      · exact .inr hlen
  | draws h o ho =>
    obtain ⟨-, hlen⟩ := hc.atDraw h
    by_cases hop : opcodeField s.cmdRaw = 0x1#4
    · exact .of_finish (if_pos hop)
    · exact .of_length (ite_ne_of_ne nofun nofun) (ite_ne_of_ne nofun nofun) (ite_ne_of_ne nofun nofun)
        fun _ => hlen.resolve_left hop
  | kdfMac h =>
    exact .of_length (ite_ne_of_ne nofun nofun) (ite_ne_of_ne nofun nofun) (ite_ne_of_ne nofun nofun)
      fun _ => hdata h rfl
  | macChk h => exact ⟨nofun, nofun, fun _ => Nat.zero_lt_succ _, fun _ => hdata h rfl⟩
  | compares h k hk => exact ⟨nofun, nofun, fun _ => hk, fun _ => hdata h rfl⟩
  | decides h =>
    exact verdict_of_both (.of_length nofun nofun nofun fun _ => hdata h rfl) (.of_length nofun nofun nofun nofun)
  | kdfEnc h | senc h | macGen h => exact .of_length nofun nofun nofun fun _ => hdata h rfl
  | illegal | fails | seedFails | frame | sdec | wipe | clear | finish => exact .of_length nofun nofun nofun nofun

/-- The secrets stay as at reset until KDF_ENC, and WIPE and CLEAR set them so again (R60, R149, R150). -/
theorem SeqNext.secretsWiped {cfg : Config} {s t : State} (h : SeqNext cfg s t) (hw : SecretsWiped s) :
    SecretsWiped t := by
  cases h with
  | idle h | illegal h | fails h | passes h | waits h | seedFails h | seeds h | draws h | finish h =>
    exact fun _ => hw (h ▸ rfl)
  | wipe | clear => exact fun _ => ⟨rfl, rfl, rfl, rfl, rfl, rfl⟩
  | kdfMac =>
    have hholds : holdsSecrets (kdfMacStep cfg s).seq = true := by
      rw [kdfMacStep_seq]
      split <;> rfl
    exact fun hno => absurd hholds (Bool.eq_false_iff.mp hno)
  | decides => exact verdict_of_both nofun nofun
  | kdfEnc | senc | macGen | frame | macChk | compares | sdec => exact nofun

theorem SeqNext.inv {cfg : Config} {s t : State} (h : SeqNext cfg s t) (hs : Inv cfg s) : Inv cfg t where
  buffers := h.buffersWf hs.buffers
  busySeq := h.busyMatchesSeq hs.busySeq
  codes := h.codesAssigned hs.codes
  seeding := h.seedingMatches hs.seeding fun hq =>
    let ⟨hseeded, hfatal, _⟩ := hs.seqOk.atSeed hq
    ⟨hseeded, hfatal⟩
  prng := h.prngMatches hs.prng hs.seeding fun hq => (hs.seqOk.atSeed hq).1
  answers := h.answersLegal hs.answers
  seqOk := h.seqConsistent hs.seqOk hs.seeding
  wiped := h.secretsWiped hs.wiped

theorem inv_keptByMoves : KeptByMoves (Inv Config.hw) where
  transact tr _ hs := hs.transact tr
  seqNext h hs := h.inv hs
  setHost _ _ _ hs := hs.of_invariantPart_eq rfl
  giveAnswer a _ hs := hs.giveAnswer a
  withoutMove _ _ hs := hs.of_invariantPart_eq rfl

/-- Settles O11: every kind of move keeps the invariant, and reset establishes it anew. -/
theorem everyStepKeepsTheInvariant : Obligations.EveryStepKeepsTheInvariant := fun _ _ hs hstep =>
  inv_keptByMoves.step hs hstep fun _ _ => inv_resetBlock hs.answers

end Sys2Proof.Machine

/-! PROOF. The bus port and the total order of moves (20_memory.md): which offset a target has, what the busy gating
lets through, the words of the windows, and a RUN as its single moves. -/

namespace Sys2Proof.Machine

/-! ## Legal transactions and their targets -/

/-- A transaction selects no target exactly when it is illegal (R68, R69, R78). -/
theorem legalTarget_eq_none_iff (cfg : Config) (t : Transaction) :
    legalTarget cfg t = none ↔ IllegalTransaction cfg t := by
  have hoff := t.off.isLt
  unfold legalTarget
  split
  · next hlegal =>
    rw [decodeOffset_none, IllegalTransaction]
    simp only [hlegal.1, hlegal.2, ne_eq, not_true_eq_false, false_or]
    omega
  · next hnot =>
    refine iff_of_true rfl ?_
    rcases not_and_or.mp hnot with hsize | halign
    · exact .inl hsize
    · exact .inr (.inl halign)

/-- The offset of a target: where the register map puts it (R32, R74). -/
def targetOffset : Target → Nat
  | .reg r => (regOffset r).toNat
  | .inWord a => 0x10000 + a
  | .outWord a => 0x20000 + a

/-- The address decode has `targetOffset` as its inverse on aligned offsets (R74). -/
theorem targetOffset_of_decodeOffset {cfg : Config} {off : Nat} {tgt : Target} (halign : off % 4 = 0)
    (h : decodeOffset cfg off = some tgt) : targetOffset tgt = off := by
  obtain ⟨k, rfl⟩ := Nat.dvd_of_mod_eq_zero halign
  unfold decodeOffset at h
  split_ifs at h with hlow hkey hnonce hin hout
  · have hk : k < 10 := by omega
    interval_cases k <;> cases h <;> rfl
  all_goals
    cases h
    simp [targetOffset, regOffset]
    omega

theorem targetOffset_of_legalTarget {cfg : Config} {t : Transaction} {tgt : Target}
    (h : legalTarget cfg t = some tgt) : targetOffset tgt = t.off.toNat := by
  unfold legalTarget at h
  split_ifs at h with hlegal
  exact targetOffset_of_decodeOffset hlegal.2 h

/-! ## The busy gating by offset -/

/-- The targets that are admitted while busy, by their offsets (R32, R80). -/
theorem admits_iff_targetOffset (tgt : Target) :
    (admitsRead tgt = true ↔ targetOffset tgt ∈ [0x00, 0x04, 0x08, 0x10, 0x14]) ∧
    (admitsWrite tgt = true ↔ targetOffset tgt ∈ [0x08, 0x10]) := by
  cases tgt with
  | reg r =>
    cases r with
    | key i | nonce i => revert i; decide
    | id | version | ctrl | cmd | status | loadMask | dataLenLo | dataLenHi | outLenLo | outLenHi => decide
  | inWord a | outWord a =>
    simp only [admitsRead, admitsWrite, targetOffset, List.mem_cons, List.not_mem_nil, or_false,
      Bool.false_eq_true, false_iff]
    omega

/-- What a transaction that selects a target is: legal, and admitted while busy by its offset (R69, R80). -/
theorem legal_and_admits_of_legalTarget {cfg : Config} {t : Transaction} {tgt : Target}
    (h : legalTarget cfg t = some tgt) :
    ¬IllegalTransaction cfg t ∧
    (admitsRead tgt = true ↔ t.off.toNat ∈ [0x00, 0x04, 0x08, 0x10, 0x14]) ∧
    (admitsWrite tgt = true ↔ t.off.toNat ∈ [0x08, 0x10]) := by
  rw [← legalTarget_eq_none_iff, h, ← targetOffset_of_legalTarget h]
  exact ⟨nofun, admits_iff_targetOffset tgt⟩

/-- A write that is admitted while busy writes IE, or clears DONE or COLLIDE (R40, R42, R80). -/
theorem writeTarget_of_admitsWrite {tgt : Target} (h : admitsWrite tgt = true) (d : Word) (s : State) :
    ∃ ie done collide, (collide = true → s.collide = true) ∧
      writeTarget tgt d s = { s with ie := ie, done := done, collide := collide } := by
  unfold admitsWrite at h
  split at h
  · exact ⟨_, _, _, id, rfl⟩
  · exact ⟨_, _, _, fun hc => (Bool.and_eq_true_iff.mp hc).1, writeStatus_eq d s⟩
  · cases h

/-- Settles O13: the illegal transactions are those without a target, and every other outcome of a
transaction answers OKAY. -/
theorem exactlyTheIllegalTransactionsAnswerBusErr :
    Obligations.ExactlyTheIllegalTransactionsAnswerBusErr := by
  intro cfg t s
  refine ⟨fun hillegal => transact_illegal cfg t s ((legalTarget_eq_none_iff cfg t).mpr hillegal),
    fun hlegal => ?_⟩
  rcases transact_cases cfg t s with
    ⟨hnone, -⟩ | ⟨tgt, -, ⟨hk, -, -, he⟩ | ⟨hk, -, he⟩ | ⟨hk, -, -, he⟩ | ⟨hk, -, he⟩⟩
  · exact absurd ((legalTarget_eq_none_iff cfg t).mp hnone) hlegal
  all_goals simp [hk, he]

/-- Settles O14: by what the transaction selects, an access is illegal, rejected, or admitted, and its
offset tells which. -/
theorem busyGatingRejectsAllButTheListedAccesses :
    Obligations.BusyGatingRejectsAllButTheListedAccesses := by
  intro cfg t s hbusy
  rcases transact_cases cfg t s with ⟨hnone, he⟩ | ⟨tgt, hsome, hcase⟩
  · rw [if_pos ((legalTarget_eq_none_iff cfg t).mp hnone)]
    exact he
  obtain ⟨hlegal, hread, hwrite⟩ := legal_and_admits_of_legalTarget hsome
  rw [if_neg hlegal]
  rcases hcase with ⟨hk, -, hgate, he⟩ | ⟨hk, hgate, he⟩ | ⟨hk, -, hgate, he⟩ | ⟨hk, hgate, he⟩ <;>
    simp only [hk, ← hread, ← hwrite, reduceCtorEq, true_and, false_and, if_true, if_false]
  · rw [if_neg (Bool.eq_false_iff.mp hgate)]
    exact he
  · rw [if_pos (hgate hbusy)]
    exact ⟨_, he⟩
  · rw [if_neg (Bool.eq_false_iff.mp hgate)]
    exact he
  · rw [if_pos (hgate hbusy)]
    obtain ⟨ie, done, collide, hcollide, hw⟩ := writeTarget_of_admitsWrite (hgate hbusy) t.wdata s
    exact ⟨ie, done, collide, hcollide, he.trans (congrArg (answer .okay) hw)⟩

/-- Settles O15: of the outcomes of a read only the rejected one writes COLLIDE, and no other element
of the block is written. -/
theorem readsHaveNoSideEffect : Obligations.ReadsHaveNoSideEffect := by
  intro t s hkind
  rcases transact_cases Config.hw t s with ⟨hnone, he⟩ | ⟨tgt, hsome, hcase⟩
  · have hillegal := (legalTarget_eq_none_iff Config.hw t).mp hnone
    exact ⟨.busErr, by rw [he, if_neg fun hc => hc.2.1 hillegal]; rfl⟩
  obtain ⟨hlegal, hread, -⟩ := legal_and_admits_of_legalTarget hsome
  rcases hcase with ⟨-, hbusy, hgate, he⟩ | ⟨-, hgate, he⟩ | ⟨hk, -⟩ | ⟨hk, -⟩
  · have hrejected := fun hoff => Bool.eq_false_iff.mp hgate (hread.mpr hoff)
    exact ⟨.data 0#32, by rw [he, if_pos ⟨hbusy, hlegal, hrejected⟩]; rfl⟩
  · exact ⟨.data (readTarget tgt s), by rw [he, if_neg fun hc => hc.2.2 (hread.mp (hgate hc.1))]; rfl⟩
  · cases hkind.symm.trans hk
  · cases hkind.symm.trans hk

/-! ## The windows -/

/-- Byte `j` of the byte string of a word (R19, R35). -/
theorem u32le_getElem (d : Word) (j : Fin 4) :
    (u32le d)[j.val]'(by simp) = d.extractLsb' (8 * j.val) 8 := by
  simp only [u32le_eq]
  fin_cases j <;> rfl

/-- Byte `j` of a word of OUT is byte `a + j` as the host sees it (R70, R76). -/
theorem outWord_byte (s : State) (a : Nat) (j : Fin 4) :
    (outWord s a).extractLsb' (8 * j.val) 8 = outByte s (a + j.val) := by
  refine (byteOfWord_u32leInv _ _ _ _ j).trans ?_
  fin_cases j <;> rfl

/-- A word written to IN is read back (R75). -/
theorem inWord_writeBytes (m : Memory) (a : Nat) (d : Word) : inWord (m.writeBytes a (u32le d)) a = d := by
  have hback := m.readBytes_writeBytes_same a (u32le d)
  rw [u32le_length] at hback
  rw [inWord, hback, u32leInv_u32le]

/-- A legal transaction while not busy is a read or a write of its target (R73, R80). -/
theorem transact_idle (cfg : Config) (h : Nat) (k : AccessKind) (off : Offset) (d : Word) {tgt : Target} {s : State}
    (hb : s.busy = false) (halign : off.toNat % 4 = 0) (htgt : decodeOffset cfg off.toNat = some tgt) :
    transact cfg { host := h, kind := k, off := off, size := .four, wdata := d } s =
      match k with
      | .read => answer (.data (readTarget tgt s)) s
      | .write => answer .okay (writeTarget tgt d s) := by
  rw [transact_legal cfg h k off d tgt s halign htgt]
  cases k with
  | read => exact busRead_idle tgt s hb
  | write => exact busWrite_idle tgt d s hb

/-- Settles O24: the write is `Memory.writeBytes` of the word's four bytes, which the buffer laws describe. -/
theorem inWindowStoresAndReadsBack : Obligations.InWindowStoresAndReadsBack := by
  intro cfg s h off a d hb hoff ha hlt
  have halign : off.toNat % 4 = 0 := by omega
  have htgt : decodeOffset cfg off.toNat = some (.inWord a) := hoff ▸ decodeOffset_in cfg a hlt
  refine ⟨_, transact_idle cfg h .write off d hb halign htgt, rfl, fun j => ?_, fun c hc => ?_,
    Memory.writeBytes_wf _ _ _, ?_⟩
  · exact (Memory.read_writeBytes_inside _ _ _ _ (by simp)).trans (u32le_getElem d j)
  · exact Memory.read_writeBytes_other _ _ _ _ (by rwa [u32le_length])
  · refine (congrArg (·.env.reply) (transact_idle cfg h .read off d
      (s := answer .okay (writeTarget (.inWord a) d s)) hb halign htgt)).trans ?_
    exact congrArg (fun w => some (Reply.data w)) (inWord_writeBytes s.inBuf a d)

/-- Settles O25: the read answers `outWord`, byte by byte, and the write leaves the block as it was. -/
theorem outWindowReadsZeroBeyondItsLength : Obligations.OutWindowReadsZeroBeyondItsLength := by
  intro cfg s h off a d hb hoff ha hlt
  have halign : off.toNat % 4 = 0 := by omega
  have htgt : decodeOffset cfg off.toNat = some (.outWord a) := hoff ▸ decodeOffset_out cfg a hlt
  exact ⟨⟨outWord s a, transact_idle cfg h .read off d hb halign htgt, outWord_byte s a⟩,
    transact_idle cfg h .write off d hb halign htgt⟩

/-! ## The order of moves -/

/-- Settles O6: each move is its own arm of `performMove`, and of the entropy source's answers only
Seeds and failure join the list. -/
theorem eachMoveDoesItsPart : Obligations.EachMoveDoesItsPart := by
  intro s ms
  refine ⟨fun _ h => step_of_moves_cons h, fun h => step_of_moves_cons h, fun _ h => step_of_moves_cons h,
    fun seed h => ?_, fun h => step_of_moves_cons h, step_of_moves_nil⟩
  rw [step_of_moves_cons h]
  simp [performMove, giveAnswer, answerLegal, withoutMove]

/-- As many listed sequencer moves are that many steps of the sequencer, with the rest of the list left (R82, R143). -/
theorem stepTimes_sequencer (n : Nat) (ms : List Move) (s : State) :
    stepTimes n (withoutMove (List.replicate n .sequencer ++ ms) s) = seqRun Config.hw n (withoutMove ms s) := by
  induction n generalizing s with
  | zero => rfl
  | succ n ih =>
    have hstep : step (withoutMove (List.replicate (n + 1) .sequencer ++ ms) s) =
        seqStep Config.hw (withoutMove (List.replicate n .sequencer ++ ms) s) :=
      step_of_moves_cons (m := .sequencer) rfl
    rw [stepTimes, hstep, seqRun_succ, seqStep_withoutMove, seqStep_withoutMove, andThen_assoc, andThen_assoc]
    simp only [andThen_next, ih]

/-- Settles O8: the RUN's `n` sequencer steps are the listed ones, and its acceptance is the write's. -/
theorem runIsTheBusWriteAndItsSequencerSteps : Obligations.RunIsTheBusWriteAndItsSequencerSteps := by
  intro s h w ms hb hmoves
  obtain ⟨n, hn, hrun⟩ := runWord_idle w (answer .okay (withoutMove ms s)) hb
  refine ⟨n, hn, ?_⟩
  intro write fine
  have hwrite : step (withoutMove fine s) =
      .next (withoutMove (List.replicate n .sequencer ++ ms) (answer .okay (accept w s))) := by
    rw [step_of_moves_cons (m := .bus write) rfl]
    refine congrArg Host.Outcome.next ((transact_cmd _ h w _).trans ?_)
    rw [if_neg (by simp [hb])]
    rfl
  calc step s = runWord w (answer .okay (withoutMove ms s)) := step_of_moves_cons hmoves
    _ = seqRun Config.hw n (withoutMove ms (answer .okay (accept w s))) := hrun
    _ = stepTimes (n + 1) (withoutMove fine s) := by
      rw [stepTimes, hwrite, andThen_next, stepTimes_sequencer]

/-! ## A command while another runs -/

/-- A command is the RUN of its word (R92, R99). -/
theorem runWord_encode (i : Instr) (s : State) : runWord (encode i) s = exec i s := by
  simp [runWord]

/-- Settles O55: a command is the RUN of its word, which a busy block rejects. -/
theorem secondCommandIsRejectedWhileBusy : Obligations.SecondCommandIsRejectedWhileBusy := fun i s hb =>
  (runWord_encode i s).symm.trans (runWord_busy (encode i) s hb)

end Sys2Proof.Machine

/-! PROOF. The decoder and the encoder of CMD words, the RUN of a word, and the lines of LOADKEY (30_encoding.md). -/

namespace Sys2Proof.Machine

/-! ## The opcode map and the decoder -/

/-- The opcode map is the table read backwards (R92). -/
theorem instrOfOpcode_eq_some_iff (op : BitVec 4) (i : Instr) : instrOfOpcode op = some i ↔ op = opcodeOf i := by
  revert op
  cases i <;> decide

/-- The OPCODE values outside the table are the reserved ones (R93). -/
theorem instrOfOpcode_eq_none_iff (op : BitVec 4) : instrOfOpcode op = none ↔ 7 ≤ op.toNat := by
  revert op
  decide

theorem decode_of_reservedField_ne {w : Word} (h : reservedField w ≠ 0#28) : decode w = .illegal .reservedBits :=
  if_pos h

/-- With RSVD 0 the opcode map decides (R92, R93). -/
theorem decode_of_reservedField_eq {w : Word} (h : reservedField w = 0#28) :
    decode w = (instrOfOpcode (opcodeField w)).elim (.illegal .reservedOpcode) .command := by
  unfold decode
  rw [if_neg (not_not_intro h)]
  cases instrOfOpcode (opcodeField w) <;> rfl

theorem decode_eq_command_iff (w : Word) (i : Instr) :
    decode w = .command i ↔ reservedField w = 0#28 ∧ opcodeField w = opcodeOf i := by
  by_cases hrsvd : reservedField w = 0#28
  · rw [decode_of_reservedField_eq hrsvd, ← instrOfOpcode_eq_some_iff]
    cases instrOfOpcode (opcodeField w) <;> simp [hrsvd]
  · simp [decode_of_reservedField_ne hrsvd, hrsvd]

theorem exists_decode_eq_illegal_iff (w : Word) :
    (∃ why, decode w = .illegal why) ↔ reservedField w ≠ 0#28 ∨ 7 ≤ (opcodeField w).toNat := by
  by_cases hrsvd : reservedField w = 0#28
  · rw [decode_of_reservedField_eq hrsvd, ← instrOfOpcode_eq_none_iff]
    cases instrOfOpcode (opcodeField w) <;> simp [hrsvd]
  · simp [decode_of_reservedField_ne hrsvd, hrsvd]

/-- The bytes of a word before any others decode as the word (R35, R89, R96). -/
theorem decodeBytes_u32le_append (w : Word) (rest : Bytes) : decodeBytes (u32le w ++ rest) = (decode w, rest) := by
  rw [u32le_eq]
  exact congrArg (fun v => (decode v, rest)) (u32leInv_bytes w)

/-- Settles O3: the encoder's word is read back from its bytes, and RSVD and OPCODE are all of a word. -/
theorem decodeAndEncodeAgree : Obligations.DecodeAndEncodeAgree :=
  ⟨fun i rest => by rw [decodeBytes_u32le_append, decode_encode], fun _ _ h => (encode_of_decode h).symm⟩

/-- Settles O1: `decode_eq_command_iff` at each row of the table. -/
theorem wordSelectsMnemonicExactly : Obligations.WordSelectsMnemonicExactly := fun w =>
  ⟨decode_eq_command_iff w .nop, decode_eq_command_iff w .genNonce, decode_eq_command_iff w .encRaw,
    decode_eq_command_iff w .enc, decode_eq_command_iff w .decRaw, decode_eq_command_iff w .zeroize,
    decode_eq_command_iff w .seed⟩

/-- Settles O2: the decoder's two reasons are a reserved bit and an OPCODE outside the map. -/
theorem everyOtherWordIsIllegal : Obligations.EveryOtherWordIsIllegal := exists_decode_eq_illegal_iff

/-- Settles O4, by evaluating the decoder. -/
theorem writtenOutWordsDecode : Obligations.WrittenOutWordsDecode := by
  unfold Obligations.WrittenOutWordsDecode
  decide

/-! ## The RUN of a word -/

theorem runWord_of_decode {w : Word} {i : Instr} (h : decode w = .command i) (s : State) :
    runWord w s = exec i s := by
  rw [← encode_of_decode h, runWord_encode]

theorem runWord_of_decode_illegal {w : Word} {why : IllegalWord} (h : decode w = .illegal why) (s : State) :
    runWord w s = execIllegal w s := by
  simp [runWord, h]

/-- An illegal word is accepted, fails CHECK with ILLEGAL and finishes (R160). -/
theorem execIllegal_completes {w : Word} {why : IllegalWord} {s : State} (hb : s.busy = false)
    (hw : decode w = .illegal why) : execIllegal w s = .next (completed w .illegal [] s) := by
  rw [execIllegal, commandIllegal, issue_idle _ _ _ _ hb, runPath_at _ _ _ _ (accept_seq _ _),
    seqStep_check _ _ (accept_seq _ _), andThen_next, checkStep_illegal _ (accept w s) why hw,
    runPath_finishOnly _ _ (raise_seq _ _)]
  simp only [completed, finishStep, emit, raise, accept, List.append_nil]

/-- Settles O53: such a word decodes to ILLEGAL, and CHECK tests that before FATAL. -/
theorem illegalWordsCompleteWithIllegal : Obligations.IllegalWordsCompleteWithIllegal := by
  intro s w hb hword
  obtain ⟨why, hw⟩ := (exists_decode_eq_illegal_iff w).mpr hword
  rw [runWord_of_decode_illegal hw, execIllegal_completes hb hw]

/-- Settles O5: the RUN move is `runWord` after the port's answer. -/
theorem stepRunsTheDecodedCommand : Obligations.StepRunsTheDecodedCommand := by
  intro s h w ms i hmoves hdecode
  exact (step_of_moves_cons hmoves).trans (runWord_of_decode hdecode _)

/-! ## The lines of LOADKEY -/

/-- A `WR` line of a number at a register's offset, while not busy, is the register's write, and the
agent goes on to its next line (R98). -/
theorem hostStep_lineWr_idle (cfg : Config) (h : Nat) (r : Reg) (d : Word) {a : HostAgent} {s : State}
    (hb : s.busy = false) (ha : s.env.hosts[h]? = some a) (hl : a.prog[a.line]? = some (lineWr (.reg r) d)) :
    hostStep cfg h s =
      setHost h { a with line := a.line + 1, executed := a.executed + 1 } (answer .okay (writeReg r d s)) := by
  have hline : lineTransaction cfg h a (lineWr (.reg r) d) s = answer .okay (writeReg r d s) :=
    transact_writeReg_idle cfg h r d s hb
  have hrun : hostStep cfg h s = runLine cfg h a (lineWr (.reg r) d) s := by simp only [hostStep, ha, hl]
  rw [hrun, runLine, hline]
  rfl

theorem pseudoLoadKey_getElem? (k : Bytes32) (i : Fin 8) :
    (pseudoLoadKey k)[i.val]? = some (lineWr (.reg (.key i)) (blockWord k i)) := by
  fin_cases i <;> rfl

/-- Setting word `i` of a block to word `i` of `k` copies four bytes of `k` (R55, R99). -/
theorem setBlockWord_blockWord_getElem (v k : Bytes32) (i : Fin 8) (j : Nat) (hj : j < 32) :
    (setBlockWord v i (blockWord k i))[j] = if j / 4 = i.val then k[j] else v[j] := by
  rw [setBlockWord_getElem]
  split
  · next hword =>
    have hidx : 4 * i.val + j % 4 = j := by omega
    exact (blockWord_byte k i ⟨j % 4, by omega⟩).trans (getElem_congr_idx hidx)
  · rfl

theorem mask_eq_of_all_marked {mask : BitVec 8} (h : ∀ i : Fin 8, mask.getLsbD i.val = true) : mask = 0xFF#8 := by
  have hones : ∀ i : Fin 8, (0xFF#8).getLsbD i.val = true := by decide
  exact BitVec.eq_of_getLsbD_eq fun i hi => (h ⟨i, hi⟩).trans (hones ⟨i, hi⟩).symm

/-- Host agent `h` has executed `m` lines of LOADKEY `k` from state `s` and is in state `t`: the first
`m` words of the key are loaded and marked, and nothing else of the block has changed. -/
structure KeyLoading (h : Nat) (k : Bytes32) (s : State) (m : Nat) (t : State) : Prop where
  frame : t = { s with key := t.key, keyMask := t.keyMask, env := t.env }
  agent : ∃ n, t.env.hosts[h]? = some { prog := pseudoLoadKey k, line := m, names := [], executed := n }
  loaded : ∀ (j : Nat) (hj : j < 32), j / 4 < m → t.key[j] = k[j]
  marked : ∀ i : Fin 8, i.val < m → t.keyMask.getLsbD i.val = true

/-- Line `i` of LOADKEY loads word `i`. -/
theorem KeyLoading.hostStep {h : Nat} {k : Bytes32} {s t : State} {i : Fin 8} (cfg : Config)
    (hload : KeyLoading h k s i.val t) (hb : s.busy = false) :
    KeyLoading h k s (i.val + 1) (hostStep cfg h t) := by
  obtain ⟨hframe, ⟨n, hagent⟩, hloaded, hmarked⟩ := hload
  have hbt : t.busy = false := (congrArg State.busy hframe).trans hb
  rw [hostStep_lineWr_idle cfg h (.key i) (blockWord k i) hbt hagent (pseudoLoadKey_getElem? k i)]
  refine ⟨?_, ⟨n + 1, ?_⟩, fun j hj hlt => ?_, fun j hlt => ?_⟩
  · rw [hframe]; rfl
  · have hh : h < t.env.hosts.length := (List.getElem?_eq_some_iff.mp hagent).1
    exact List.getElem?_set_self hh
  · refine (setBlockWord_blockWord_getElem t.key k i j hj).trans ?_
    split
    · rfl
    · exact hloaded j hj (by omega)
  · refine (markWord_getLsbD t.keyMask i j).trans ?_
    rcases Nat.lt_succ_iff_lt_or_eq.mp hlt with hbefore | hsame
    · simp [hmarked j hbefore]
    · simp [Fin.ext hsame]

theorem KeyLoading.hostLines {h : Nat} {k : Bytes32} {s t : State} {m : Nat} (cfg : Config) (r : Nat)
    (hload : KeyLoading h k s m t) (hm : m + r = 8) (hb : s.busy = false) :
    KeyLoading h k s 8 (hostLines cfg h r t) := by
  induction r generalizing m t with
  | zero => exact hm ▸ hload
  | succ r ih => exact ih (m := m + 1) (KeyLoading.hostStep (i := ⟨m, by omega⟩) cfg hload hb) (by omega)

/-- Settles O60: `KeyLoading` holds before the first line, each line keeps it, and after the eighth all
32 bytes are loaded and all eight bits marked. -/
theorem loadKeyLoadsTheKey : Obligations.LoadKeyLoadsTheKey := by
  intro s k n hb hagent t
  have hstart : KeyLoading 0 k s 0 s := ⟨rfl, ⟨n, hagent⟩, fun _ _ hlt => by omega, fun _ hlt => by omega⟩
  obtain ⟨hframe, ⟨n', hend⟩, hloaded, hmarked⟩ : KeyLoading 0 k s 8 t :=
    hstart.hostLines Config.hw 8 rfl hb
  have hkey : t.key = k := Vector.ext fun j hj => hloaded j hj (by omega)
  have hmask : t.keyMask = 0xFF#8 := mask_eq_of_all_marked fun i => hmarked i i.isLt
  have hbt : t.busy = false := (congrArg State.busy hframe).trans hb
  refine ⟨by rw [← hkey, ← hmask]; exact hframe, ?_⟩
  simp [runEnded, hend, hbt, pseudoLoadKey, wordIndices]

end Sys2Proof.Machine

/-! PROOF. A command's path from CHECK on, and the wait at SEED for the entropy source (40_primitives.md). -/

namespace Sys2Proof.Machine

/-! ## From CHECK on -/

/-- Every command's path begins with CHECK (R152). -/
theorem exec_eq_issue_check (i : Instr) (s : State) :
    ∃ ps : List SeqState, exec i s = issue Config.hw (encode i) (.check :: ps) s := by
  cases i <;> exact ⟨_, rfl⟩

/-- A command that passes CHECK goes on with steps of the sequencer (R143, R145). -/
theorem exec_check_pass {i : Instr} {s : State} (hb : s.busy = false)
    (hc : firstCheckFailure Config.hw i s = none) :
    ∃ n, exec i s = seqRun Config.hw n (checked i s) := by
  obtain ⟨ps, hexec⟩ := exec_eq_issue_check i s
  obtain ⟨n, -, hpath⟩ := runPath_eq_seqRun Config.hw ps (checked i s)
  exact ⟨n, by rw [hexec, issue_check_pass _ _ _ _ hb hc, hpath]⟩

/-! ## Waiting at SEED -/

/-- A state that the sequencer leaves as it is stays so for any number of steps. -/
theorem seqRun_of_seqStep_eq_self {cfg : Config} {s : State} (h : seqStep cfg s = .next s) (n : Nat) :
    seqRun cfg n s = .next s := by
  induction n with
  | zero => rfl
  | succ n ih => rw [seqRun_succ, h, andThen_next, ih]

/-- SEED is not enabled while no answer waits (R111). -/
theorem seqStep_seed_of_entropy_nil {cfg : Config} {s : State} (hs : s.seq = .seed)
    (he : s.env.entropy = []) : seqStep cfg s = .next s := by
  rw [seqStep_seed _ _ hs, seedStep, he]

/-- CHECK sends an unseeded command that draws entropy to SEED (R145). -/
theorem afterCheck_unseeded {i : Instr} (hi : i = .genNonce ∨ i = .enc ∨ i = .seed) :
    afterCheck i false = .seed := by
  rcases hi with rfl | rfl | rfl <;> rfl

/-- Settles O52: the command passes CHECK to SEED, where every further step of the sequencer, of its
own path or later, leaves the state as it is. -/
theorem seedingWaitsForTheEntropySource : Obligations.SeedingWaitsForTheEntropySource := by
  intro i s hb hi hc hseeded he
  have hseq : (checked i s).seq = .seed :=
    (congrArg (afterCheck i) hseeded).trans (afterCheck_unseeded hi)
  have hwait : ∀ n, seqRun Config.hw n (checked i s) = .next (checked i s) :=
    seqRun_of_seqStep_eq_self (seqStep_seed_of_entropy_nil hseq he)
  obtain ⟨n, hexec⟩ := exec_check_pass hb hc
  exact ⟨checked i s, hexec.trans (hwait n), rfl, hseq, hwait⟩

end Sys2Proof.Machine

/-! PROOF. The arbiter's two derivations, and that the sequencer's other steps do not depend on the master key
(41_kdf_arbiter.md). -/

namespace Sys2Proof.Machine

/-- Settles O30: each KDF step is one derivation on its own path, which reads the key and the path's label. -/
theorem arbiterDerivesBothSubkeys : Obligations.ArbiterDerivesBothSubkeys := fun s =>
  ⟨seqStep_kdfEnc Config.hw s, seqStep_kdfMac Config.hw s⟩

/-! ## Going on after a buffer access -/

theorem andThen_memRead (cfg : Config) (m : Memory) (a n : Nat) (f : Bytes → Result) (g : State → Result) :
    andThen (memRead cfg m a n f) g = memRead cfg m a n fun b => andThen (f b) g := by
  unfold memRead
  split <;> rfl

theorem andThen_memWrite (cfg : Config) (m : Memory) (a : Nat) (v : Bytes) (f : Memory → Result)
    (g : State → Result) :
    andThen (memWrite cfg m a v f) g = memWrite cfg m a v fun m' => andThen (f m') g := by
  unfold memWrite
  split <;> rfl

/-! ## Each step with another master key -/

/-- The state with master key `k` in place of its own. -/
def withKey (k : Bytes32) (s : State) : State := { s with key := k }

theorem checkStep_withKey (cfg : Config) (k : Bytes32) (s : State) :
    checkStep cfg (withKey k s) = withKey k (checkStep cfg s) := by
  have hcmd : (withKey k s).cmdRaw = s.cmdRaw := rfl
  unfold checkStep
  rw [hcmd]
  cases decode s.cmdRaw with
  | illegal => rfl
  | command i =>
    have hfail : firstCheckFailure cfg i (withKey k s) = firstCheckFailure cfg i s :=
      firstCheckFailure_congr cfg i s _ rfl rfl rfl rfl rfl
    simp only [checkCommand_eq, hfail]
    cases firstCheckFailure cfg i s <;> rfl

theorem seedStep_withKey (cfg : Config) (k : Bytes32) (s : State) :
    seedStep cfg (withKey k s) = withKey k (seedStep cfg s) := by
  have hentropy : (withKey k s).env.entropy = s.env.entropy := rfl
  unfold seedStep
  rw [hentropy]
  cases s.env.entropy with
  | nil => rfl
  | cons a rest =>
    dsimp only
    split
    · cases a <;> rfl
    · rfl

theorem drawStep_withKey (cfg : Config) (k : Bytes32) (s : State) :
    drawStep cfg (withKey k s) = andThen (drawStep cfg s) fun t => .next (withKey k t) := by
  have hprng : (withKey k s).prngState = s.prngState := rfl
  unfold drawStep
  rw [hprng]
  cases s.prngState <;> rfl

theorem verdict_withKey (k : Bytes32) (s : State) : verdict (withKey k s) = withKey k (verdict s) := by
  have hdiff : (withKey k s).diff = s.diff := rfl
  unfold verdict
  rw [hdiff]
  split <;> rfl

/-- The CMP step with no byte left to compare. -/
theorem cmpStep_not_lt (s : State) (h : ¬ s.cmpI.val < 32) : cmpStep s = .fault .comparePastEnd := dif_neg h

theorem cmpStep_withKey (k : Bytes32) (s : State) :
    cmpStep (withKey k s) = andThen (cmpStep s) fun t => .next (withKey k t) := by
  have hcmp : (withKey k s).cmpI = s.cmpI := rfl
  by_cases hlt : s.cmpI.val < 32
  · rw [cmpStep_lt s hlt, cmpStep_lt (withKey k s) hlt]
    simp only [hcmp]
    split
    · rfl
    · refine Eq.trans ?_ (congrArg Host.Outcome.next (verdict_withKey k _))
      rfl
  · rw [cmpStep_not_lt s hlt, cmpStep_not_lt (withKey k s) hlt]
    rfl

/-- The steps other than KDF_ENC, KDF_MAC and CLEAR neither read nor write the master key (R127). -/
theorem seqStep_withKey (cfg : Config) (k : Bytes32) {s : State} (henc : s.seq ≠ .kdfEnc)
    (hmac : s.seq ≠ .kdfMac) (hclear : s.seq ≠ .clear) :
    seqStep cfg (withKey k s) = andThen (seqStep cfg s) fun t => .next (withKey k t) := by
  have hseq : (withKey k s).seq = s.seq := rfl
  unfold seqStep
  rw [hseq]
  cases h : s.seq with
  | idle | wipe | finish => rfl
  | check => exact congrArg Host.Outcome.next (checkStep_withKey cfg k s)
  | seed => exact congrArg Host.Outcome.next (seedStep_withKey cfg k s)
  | draw => exact drawStep_withKey cfg k s
  | kdfEnc => exact absurd h henc
  | kdfMac => exact absurd h hmac
  | cmp => exact cmpStep_withKey k s
  | senc | macGen | frame | macChk | sdec =>
    simp only [sencStep, macGenStep, frameStep, macChkStep, sdecStep, andThen_memRead, andThen_memWrite,
      andThen_next]
    rfl
  | clear => exact absurd h hclear

/-- Settles O31: every other step commutes with replacing the master key. -/
theorem onlyTheKdfStepsReadTheMasterKey : Obligations.OnlyTheKdfStepsReadTheMasterKey := fun _ k =>
  seqStep_withKey Config.hw k

end Sys2Proof.Machine

/-! PROOF. Seeding, the nonce draw and the FATAL lock: what the SEED and DRAW steps answer, commands that fail at
CHECK or at SEED, and the nonces of an epoch (42_nonce.md). -/

namespace Sys2Proof.Machine

/-! ## The SEED and DRAW steps -/

/-- The SEED step with the answer `fail` waiting (R131, R190). -/
theorem seqStep_seed_of_fail {cfg : Config} {s : State} {rest : List EntropyAnswer} (hs : s.seq = .seed)
    (he : s.env.entropy = .fail :: rest) :
    seqStep cfg s = .next (seedFailed { s with env := { s.env with entropy := rest } }) := by
  rw [seqStep_seed _ _ hs, seedStep, he]
  rfl

/-- A byte string that is no Seed does not enable the SEED step (R111, log 3). -/
theorem seqStep_seed_of_no_seed {cfg : Config} {s : State} {seed : Bytes} {rest : List EntropyAnswer}
    (hs : s.seq = .seed) (he : s.env.entropy = .ok seed :: rest) (hl : seed.length ≠ cfg.seedBytes) :
    seqStep cfg s = .next s := by
  simp [seqStep_seed _ _ hs, seedStep, he, answerLegal, hl]

/-- Settles O32: one clause for each head of the answers. -/
theorem seedStepTakesOneEntropyAnswer : Obligations.SeedStepTakesOneEntropyAnswer := fun s hs =>
  ⟨seqStep_seed_of_entropy_nil hs,
    fun _ he => seqStep_seed_of_fail hs he,
    fun seed rest he hl => ⟨_, seqStep_seeds _ s seed rest hs he hl, rfl, rfl, rfl⟩,
    fun _ _ he hl => seqStep_seed_of_no_seed hs he hl⟩

/-- Settles O33: the state's PRNG state has an origin, and DRAW writes the nonce and the advanced origin. -/
theorem drawStepAdvancesThePrngAtomically : Obligations.DrawStepAdvancesThePrngAtomically := by
  intro s st hs hst
  obtain ⟨o, ho, rfl⟩ := prngStateOf_some hst
  exact ⟨_, (seqStep_draw _ s hs).trans (drawStep_some _ s o ho), rfl, drawNonce_toList _ _, rfl⟩

/-! ## Commands that fail -/

/-- The states of a command's path between CHECK and FINISH (R152). -/
def middlePath : Instr → List SeqState
  | .nop => []
  | .genNonce => [.seed, .draw]
  | .encRaw => [.kdfEnc, .kdfMac, .senc, .macGen, .frame, .wipe]
  | .enc => [.seed, .draw, .kdfEnc, .kdfMac, .senc, .macGen, .frame, .wipe]
  | .decRaw => [.kdfEnc, .kdfMac, .macChk] ++ List.replicate 32 .cmp ++ [.sdec, .wipe]
  | .zeroize => [.clear]
  | .seed => [.seed]

theorem exec_eq_issue_middlePath (i : Instr) (s : State) :
    exec i s = issue Config.hw (encode i) (.check :: (middlePath i ++ [.finish])) s := by
  cases i <;> rfl

theorem finish_notMem_middlePath (i : Instr) : SeqState.finish ∉ middlePath i := by
  cases i <;> decide

/-- The path of a command that may need seeding goes through SEED right after CHECK (R152). -/
theorem middlePath_of_seeding {i : Instr} (hi : i = .genNonce ∨ i = .enc ∨ i = .seed) :
    ∃ ps, middlePath i = .seed :: ps := by
  rcases hi with rfl | rfl | rfl <;> exact ⟨_, rfl⟩

/-- A command that fails CHECK completes with its first failure (R195, R198). -/
theorem exec_check_fail {i : Instr} {s : State} {c : ResultCode} (hb : s.busy = false)
    (hc : firstCheckFailure Config.hw i s = some c) :
    exec i s = .next (completed (encode i) c []
      { s with outLen := if clearsOutLen i then 0#64 else s.outLen }) :=
  (exec_eq_issue_middlePath i s).trans
    (issue_check_fail _ i _ s c hb hc (finish_notMem_middlePath i))

/-- FATAL is the first test of CHECK (R132, R195). -/
theorem firstCheckFailure_of_fatal {cfg : Config} {i : Instr} {s : State} (hf : s.fatal = true)
    (hnop : i ≠ .nop) (hzero : i ≠ .zeroize) : firstCheckFailure cfg i s = some .entropyFail :=
  if_pos ⟨hf, hnop, hzero⟩

/-- Settles O54: CHECK fails with ENTROPY_FAIL before anything is drawn. -/
theorem fatalLocksTheBlock : Obligations.FatalLocksTheBlock := by
  intro i s hb hf hnop hzero
  refine ⟨_, exec_check_fail hb (firstCheckFailure_of_fatal hf hnop hzero), rfl, hf, rfl, ?_, rfl, rfl⟩
  exact congrArg (· ++ _) (List.append_nil s.hist)

/-- Settles O51: the command passes CHECK to SEED, whose step takes `fail` and leaves only FINISH. -/
theorem failedSeedingSetsFatal : Obligations.FailedSeedingSetsFatal := by
  intro i s rest hb hi hc hseeded he
  have hseq : (checked i s).seq = .seed :=
    (congrArg (afterCheck i) hseeded).trans (afterCheck_unseeded hi)
  obtain ⟨ps, hps⟩ := middlePath_of_seeding hi
  have hfinish : SeqState.finish ∉ ps := fun hmem =>
    finish_notMem_middlePath i (hps ▸ List.mem_cons_of_mem _ hmem)
  rw [exec_eq_issue_middlePath, issue_check_pass _ _ _ _ hb hc, hps, List.cons_append,
    runPath_at _ _ _ _ hseq, seqStep_seed_of_fail hseq he, andThen_next,
    runPath_finish _ _ _ (seedFailed_seq _) hfinish]
  rcases hi with rfl | rfl | rfl <;> rfl


/-! ## The PRNG state of an epoch -/

theorem epochSeed_of_prngState {s : State} {o : PrngOrigin} (ho : s.prngState = some o) :
    epochSeed s = some o.seed :=
  congrArg (Option.map PrngOrigin.seed) ho

/-- Before seeding the history has no draw (R136). -/
theorem PrngMatches.drawCount_eq_zero {cfg : Config} {s : State} (h : PrngMatches cfg s)
    (hp : s.prngState = none) : drawCount s.hist = 0 := by
  rwa [PrngMatches, hp] at h

/-- The origin is the epoch's seed and as many draws as the history has (R136). -/
theorem PrngMatches.prngState_eq {cfg : Config} {s : State} (h : PrngMatches cfg s) {seed : Bytes}
    (hseed : epochSeed s = some seed) : s.prngState = some ⟨seed, drawCount s.hist⟩ := by
  obtain ⟨o, ho, rfl⟩ := Option.map_eq_some_iff.mp hseed
  rw [PrngMatches, ho] at h
  rw [ho, ← h.2]

/-- The PRNG state after `i` draws from the seed is `st_i` (R136). -/
theorem PrngMatches.prngStateOf_eq {cfg : Config} {s : State} (h : PrngMatches cfg s) {seed : Bytes}
    (hseed : epochSeed s = some seed) :
    prngStateOf cfg s = some (cfg.prngAfter seed (drawCount s.hist)) :=
  congrArg (Option.map (pstateOf cfg)) (h.prngState_eq hseed)

/-- Seeding happens once in an epoch, and a draw keeps the seed (R131, R134). -/
theorem SeqNext.epochSeed_eq {cfg : Config} {s t : State} (h : SeqNext cfg s t) (hs : Inv cfg s)
    {seed : Bytes} (hseed : epochSeed s = some seed) : epochSeed t = some seed := by
  cases h with
  | seeds h =>
    obtain ⟨hunseeded, -⟩ := hs.seqOk.atSeed h
    have hseeded : s.seeded = true := hs.seeding.1.mpr (by rw [hs.prng.prngState_eq hseed]; rfl)
    exact absurd hseeded (Bool.eq_false_iff.mp hunseeded)
  | draws h o ho => exact (epochSeed_of_prngState ho).symm.trans hseed
  | decides => exact verdict_of_both (P := (epochSeed · = some seed)) hseed hseed
  | idle | illegal | fails | passes | waits | seedFails | kdfEnc | kdfMac | senc | macGen | frame
  | macChk | compares | sdec | wipe | clear | finish => exact hseed

theorem epochSeed_keptByMoves (seed : Bytes) :
    KeptByMoves fun s => Inv Config.hw s ∧ epochSeed s = some seed where
  transact tr _ hs := ⟨hs.1.transact tr, (congrArg _ (transact_prngState _ tr _)).trans hs.2⟩
  seqNext h hs := ⟨h.inv hs.1, h.epochSeed_eq hs.1 hs.2⟩
  setHost h a s hs := ⟨inv_keptByMoves.setHost h a s hs.1, hs.2⟩
  giveAnswer a _ hs := ⟨hs.1.giveAnswer a, hs.2⟩
  withoutMove ms s hs := ⟨inv_keptByMoves.withoutMove ms s hs.1, hs.2⟩

/-! ## The draws of one step -/

/-- A draw writes `b_i`, `i` one more than the draws of the epoch before it (R134, R136). -/
theorem drawNonce_eq_drawnBytes {cfg : Config} {s : State} {o : PrngOrigin} (hp : PrngMatches cfg s)
    (ho : s.prngState = some o) :
    (drawNonce cfg (pstateOf cfg o)).toList = cfg.drawnBytes o.seed (drawCount s.hist) := by
  have horigin : o = ⟨o.seed, drawCount s.hist⟩ :=
    Option.some.inj (ho.symm.trans (hp.prngState_eq (epochSeed_of_prngState ho)))
  rw [drawNonce_toList, horigin]
  rfl

/-- The states from which no step on the way to IDLE draws, seeds or clears the nonce. -/
def pastDraw : SeqState → Bool
  | .check | .seed | .draw | .clear => false
  | .idle | .kdfEnc | .kdfMac | .senc | .macGen | .frame | .macChk | .cmp | .sdec | .wipe | .finish => true

/-- The draw after the first `n` of the epoch is done, and its bytes stand in the nonce register. -/
structure DrawnOnce (cfg : Config) (n : Nat) (s : State) : Prop where
  past : pastDraw s.seq = true
  count : drawCount s.hist = n + 1
  nonce : ∃ seed, epochSeed s = some seed ∧ s.nonce.toList = cfg.drawnBytes seed n

theorem DrawnOnce.congr {cfg : Config} {n : Nat} {s t : State} (hs : DrawnOnce cfg n s)
    (hpast : pastDraw t.seq = true) (hcount : drawCount t.hist = drawCount s.hist)
    (hprng : t.prngState = s.prngState) (hnonce : t.nonce = s.nonce) : DrawnOnce cfg n t where
  past := hpast
  count := hcount.trans hs.count
  nonce := by
    rw [epochSeed, hprng, hnonce]
    exact hs.nonce

/-- After the draw of a command no step of its path draws or writes the nonce again (R152). -/
theorem SeqNext.drawnOnce {cfg : Config} {n : Nat} {s t : State} (h : SeqNext cfg s t)
    (hs : DrawnOnce cfg n s) : DrawnOnce cfg n t := by
  have hpast := hs.past
  cases h with
  | illegal h | fails h | passes h | waits h | seedFails h | seeds h | draws h | clear h =>
    rw [h] at hpast
    cases hpast
  | idle => exact hs
  | frame | wipe => exact hs.congr rfl rfl rfl rfl
  | kdfMac =>
    refine hs.congr ?_ (drawCount_append _ _) rfl rfl
    rw [kdfMacStep_seq]
    split <;> rfl
  | decides =>
    exact verdict_of_both (hs.congr rfl (drawCount_append _ _) rfl rfl)
      (hs.congr rfl (drawCount_append _ _) rfl rfl)
  | kdfEnc | senc | macGen | macChk | compares | sdec | finish =>
    exact hs.congr rfl (drawCount_append _ _) rfl rfl

/-- Only the DRAW step draws, and it draws once (R134). -/
theorem SeqNext.drawCount_or_drawnOnce {cfg : Config} {s t : State} (h : SeqNext cfg s t)
    (hs : PrngMatches cfg s) :
    drawCount t.hist = drawCount s.hist ∨ DrawnOnce cfg (drawCount s.hist) t := by
  cases h with
  | draws h o ho =>
    refine .inr ⟨?_, drawCount_append _ _, o.seed, rfl, drawNonce_eq_drawnBytes hs ho⟩
    show pastDraw (if _ then _ else _) = true
    split <;> rfl
  | decides => rw [verdict_hist]; exact .inl (drawCount_append _ _)
  | idle | illegal | fails | passes | waits | frame | wipe | clear => exact .inl rfl
  | seedFails | seeds | kdfEnc | kdfMac | senc | macGen | macChk | compares | sdec | finish =>
    exact .inl (drawCount_append _ _)

theorem seqRun_drawnOnce {cfg : Config} {n k : Nat} {s t : State} (h : seqRun cfg k s = .next t)
    (hs : DrawnOnce cfg n s) : DrawnOnce cfg n t := by
  induction k generalizing s with
  | zero => cases h; exact hs
  | succ k ih =>
    obtain ⟨u, hstep, hrun⟩ := andThen_eq_next h
    exact ih hrun ((seqStep_next hstep).drawnOnce hs)

/-- Any number of steps of the sequencer draw at most once, as no path leads back to DRAW (R152). -/
theorem seqRun_drawCount_or_drawnOnce {cfg : Config} {k : Nat} {s t : State}
    (h : seqRun cfg k s = .next t) (hs : Inv cfg s) :
    drawCount t.hist = drawCount s.hist ∨ DrawnOnce cfg (drawCount s.hist) t := by
  induction k generalizing s with
  | zero => cases h; exact .inl rfl
  | succ k ih =>
    obtain ⟨u, hstep, hrun⟩ := andThen_eq_next h
    have hnext := seqStep_next hstep
    rcases hnext.drawCount_or_drawnOnce hs.prng with hcount | hdrawn
    · rw [← hcount]
      exact ih hrun (hnext.inv hs)
    · exact .inr (seqRun_drawnOnce hrun hdrawn)

theorem performMove_drawCount_or_drawnOnce {m : Move} {s t : State} (hm : m ≠ .reset)
    (h : performMove m s = .next t) (hs : Inv Config.hw s) :
    drawCount t.hist = drawCount s.hist ∨ DrawnOnce Config.hw (drawCount s.hist) t := by
  cases m with
  | reset => exact absurd rfl hm
  | sequencer => exact (seqStep_next h).drawCount_or_drawnOnce hs.prng
  | run n w =>
    obtain ⟨k, hrun⟩ := runWord_eq_transact n w s
    have hdraws := seqRun_drawCount_or_drawnOnce (hrun.symm.trans h) (hs.transact _)
    rwa [transact_hist] at hdraws
  | bus tr => cases h; rw [transact_hist]; exact .inl rfl
  | host n => cases h; rw [hostStep_hist]; exact .inl rfl
  | entropy a => cases h; rw [giveAnswer_hist]; exact .inl rfl

theorem step_drawCount_or_drawnOnce {s t : State} (h : step s = .next t) (hs : Inv Config.hw s)
    (hreset : ∀ ms, s.env.moves ≠ .reset :: ms) :
    drawCount t.hist = drawCount s.hist ∨ DrawnOnce Config.hw (drawCount s.hist) t := by
  cases hmoves : s.env.moves with
  | nil =>
    exact (seqStep_next ((step_of_moves_nil hmoves).symm.trans h)).drawCount_or_drawnOnce hs.prng
  | cons m ms =>
    have hm : m ≠ .reset := fun he => hreset ms (he ▸ hmoves)
    exact performMove_drawCount_or_drawnOnce (s := withoutMove ms s) hm
      ((step_of_moves_cons hmoves).symm.trans h) (inv_keptByMoves.withoutMove ms s hs)

/-- The nonce after a DRAW step is the next block of the epoch's stream (R134, R136). -/
theorem nonce_of_seqStep_draw {cfg : Config} {s t : State} {seed : Bytes} (hs : PrngMatches cfg s)
    (hdraw : s.seq = .draw) (h : seqStep cfg s = .next t) (hseed : epochSeed s = some seed) :
    t.nonce.toList = cfg.drawnBytes seed (drawCount s.hist) := by
  have hp := hs.prngState_eq hseed
  rw [seqStep_draw _ _ hdraw, drawStep_some _ _ _ hp] at h
  cases h
  exact drawNonce_eq_drawnBytes hs hp

/-- Settles O59: the invariant ties the PRNG state to the draws of the history, and a step draws at
most once, leaving its bytes in the nonce; two draws of one epoch are two blocks of its stream. -/
theorem noncesFollowThePrngStream : Obligations.NoncesFollowThePrngStream := by
  refine ⟨fun s t hs hstep hreset => ⟨fun seed hseed => ?_, fun hnone => ?_, fun seed hseed => ⟨?_, ?_⟩⟩, ?_⟩
  · exact ((epochSeed_keptByMoves seed).step ⟨hs, hseed⟩ hstep fun ms hm => absurd hm (hreset ms)).2
  · exact (everyStepKeepsTheInvariant s t hs hstep).prng.drawCount_eq_zero (Option.map_eq_none_iff.mp hnone)
  · exact (everyStepKeepsTheInvariant s t hs hstep).prng.prngStateOf_eq hseed
  · refine (step_drawCount_or_drawnOnce hstep hs hreset).imp_right fun ⟨_, hcount, seed', hseed', hnonce⟩ => ?_
    cases Option.some.inj (hseed'.symm.trans hseed)
    exact ⟨hcount, hnonce⟩
  · intro cfg s t s' t' seed count hs hs' hdraw hdraw' hstep hstep' hseed hseed' hfresh hlt hlt' hne heq
    refine hfresh _ _ hlt hlt' hne ?_
    rw [← nonce_of_seqStep_draw hs.prng hdraw hstep hseed,
      ← nonce_of_seqStep_draw hs'.prng hdraw' hstep' hseed', heq]

end Sys2Proof.Machine

/-! PROOF. The commands (43_commands.md): acceptance and CHECK, SDEC only after a matching MAC, each command to its
completion, the bound of 39 steps, and the round trip. -/

namespace Sys2Proof.Machine

/-! ## Acceptance and CHECK -/

/-- Settles O27: the write at CMD's offset is `transact_cmd`. -/
theorem cmdWriteAcceptsTheCommand : Obligations.CmdWriteAcceptsTheCommand := by
  intro s h w
  refine (transact_cmd Config.hw h w s).trans ?_
  split <;> rfl

/-- A command by its OPCODE (R92). -/
theorem opcodeOf_eq_iff (i : Instr) :
    (opcodeOf i = 0#4 ↔ i = .nop) ∧ (opcodeOf i = 2#4 ↔ i = .encRaw) ∧ (opcodeOf i = 3#4 ↔ i = .enc) ∧
    (opcodeOf i = 4#4 ↔ i = .decRaw) ∧ (opcodeOf i = 5#4 ↔ i = .zeroize) := by
  cases i <;> decide

/-- What CHECK does by its first failure, with the commands by OPCODE (R145). -/
theorem elim_firstCheckFailure {α : Type} (cfg : Config) {i : Instr} {op : BitVec 4} (hop : op = opcodeOf i)
    (s : State) (passed : α) (failed : ResultCode → α) :
    (firstCheckFailure cfg i s).elim passed failed =
      if s.fatal = true ∧ op ≠ 0#4 ∧ op ≠ 5#4 then failed .entropyFail
      else if (op = 2#4 ∨ op = 3#4 ∨ op = 4#4) ∧ s.keyMask ≠ 0xFF#8 then failed .keyMissing
      else if op = 2#4 ∧ s.nonceMask ≠ 0xFF#8 then failed .nonceMissing
      else if (op = 2#4 ∨ op = 3#4) ∧ cfg.maxPt < s.dataLen.toNat then failed .lenErr
      else if op = 4#4 ∧ cfg.maxPt + 72 < s.dataLen.toNat then failed .lenErr
      else if op = 4#4 ∧ ¬(72 ≤ s.dataLen.toNat ∧
          leNat (s.inBuf.readBytes 64 8) = s.dataLen.toNat - 72) then failed .frameErr
      else passed := by
  subst hop
  obtain ⟨h0, h2, h3, h4, h5⟩ := opcodeOf_eq_iff i
  simp only [ne_eq, h0, h2, h3, h4, h5]
  unfold firstCheckFailure
  split_ifs <;> rfl

theorem clearedOutLen_eq (i : Instr) (o : Length) :
    (if clearsOutLen i then 0#64 else o) =
      if opcodeOf i = 2#4 ∨ opcodeOf i = 3#4 ∨ opcodeOf i = 4#4 ∨ opcodeOf i = 5#4 then 0#64 else o := by
  cases i <;> rfl

theorem latchedLength_eq (i : Instr) (d : Length) :
    latchedLength i d = if opcodeOf i = 4#4 then d - 72#64 else d := by
  cases i <;> rfl

theorem afterCheck_eq (i : Instr) (seeded : Bool) :
    afterCheck i seeded =
      if opcodeOf i = 1#4 ∨ opcodeOf i = 3#4 then (if seeded then .draw else .seed)
      else if opcodeOf i = 2#4 ∨ opcodeOf i = 4#4 then .kdfEnc
      else if opcodeOf i = 5#4 then .clear
      else if opcodeOf i = 6#4 then (if seeded then .finish else .seed)
      else .finish := by
  cases i <;> rfl

/-- CHECK of a word that decodes to command `i` (R145): it passes, or fails with its first failure. -/
theorem checkStep_of_decode {cfg : Config} {s : State} {i : Instr} (h : decode s.cmdRaw = .command i) :
    (firstCheckFailure cfg i s).elim
      (checkStep cfg s = { s with
        outLen := if clearsOutLen i then 0#64 else s.outLen
        latLen := latchedLength i s.dataLen
        seq := afterCheck i s.seeded })
      (fun c => checkStep cfg s = raise c { s with outLen := if clearsOutLen i then 0#64 else s.outLen }) := by
  rw [checkStep_encode cfg i s (encode_of_decode h).symm, checkCommand_eq]
  cases firstCheckFailure cfg i s <;> rfl

/-- Settles O29: an illegal word ends CHECK at once; for a command the tests are those of
`firstCheckFailure`, and what CHECK writes is read off its OPCODE. -/
theorem checkStepTestsInOrder : Obligations.CheckStepTestsInOrder := by
  intro s hs
  refine ⟨checkStep Config.hw s, seqStep_check _ s hs, ?_⟩
  intro op d s1
  cases hd : decode s.cmdRaw with
  | illegal why =>
    have hillegal : s.cmdRaw.extractLsb' 4 28 ≠ 0#28 ∨ 7 ≤ op.toNat :=
      (exists_decode_eq_illegal_iff s.cmdRaw).mp ⟨why, hd⟩
    rw [if_pos hillegal]
    exact checkStep_illegal _ s why hd
  | command i =>
    have hlegal : ¬(s.cmdRaw.extractLsb' 4 28 ≠ 0#28 ∨ 7 ≤ op.toNat) := fun h => by
      obtain ⟨why, hw⟩ := (exists_decode_eq_illegal_iff s.cmdRaw).mpr h
      cases hd.symm.trans hw
    have hop : op = opcodeOf i := opcodeField_of_decode hd
    have hcheck := checkStep_of_decode (cfg := Config.hw) hd
    rw [clearedOutLen_eq, latchedLength_eq, afterCheck_eq, ← hop] at hcheck
    rw [if_neg hlegal]
    exact (elim_firstCheckFailure _ hop s _ (checkStep Config.hw s = raise · s1)).mp hcheck

/-! ## SDEC -/

theorem afterCheck_ne_sdec (i : Instr) (seeded : Bool) : afterCheck i seeded ≠ .sdec := by
  cases i <;> cases seeded <;> decide

/-- SDEC is entered only from the last compare, on equality (R148, R162). -/
theorem SeqNext.of_seq_sdec {cfg : Config} {s t : State} (h : SeqNext cfg s t) (ht : t.seq = .sdec) :
    s.seq = .cmp ∧ s.cmpI.val = 31 ∧ t.diff = 0#8 := by
  cases h with
  | decides h hi =>
    rcases verdict_cases { emit (.cmp 31) s with diff := compareByte s 31, cmpI := 32 } with ⟨hz, e⟩ | ⟨-, e⟩
    · rw [e]
      exact ⟨h, hi, hz⟩
    · rw [e] at ht
      cases ht
  | idle h | waits h => cases h.symm.trans ht
  | passes => exact absurd ht (afterCheck_ne_sdec _ _)
  | seeds | draws | kdfMac => exact absurd ht (ite_ne_of_ne nofun nofun)
  | illegal | fails | seedFails | kdfEnc | senc | macGen | frame | macChk | compares | sdec | wipe
  | clear | finish => cases ht

theorem sdec_mem_append {es : List Event} {e : Event} {n : Nat} (he : e ≠ .sdec n) (h : Event.sdec n ∈ es ++ [e]) :
    Event.sdec n ∈ es :=
  (List.mem_append.mp h).resolve_right fun hm => he (List.mem_singleton.mp hm).symm

/-- Only SDEC emits EvSdec (R148). -/
theorem SeqNext.sdec_mem_hist {cfg : Config} {s t : State} (h : SeqNext cfg s t) (hs : s.seq ≠ .sdec) {n : Nat}
    (hn : Event.sdec n ∈ t.hist) : Event.sdec n ∈ s.hist := by
  cases h with
  | sdec h => exact absurd h hs
  | decides => exact sdec_mem_append (by nofun) (verdict_hist _ ▸ hn)
  | idle | illegal | fails | passes | waits | frame | wipe | clear => exact hn
  | seedFails | seeds | draws | kdfEnc | kdfMac | senc | macGen | macChk | compares | finish =>
    exact sdec_mem_append (by nofun) hn

/-- Settles O36, by what each step of the sequencer can do. -/
theorem decryptionOnlyAfterMatchingMac : Obligations.DecryptionOnlyAfterMatchingMac := fun _ _ hstep =>
  ⟨(seqStep_next hstep).of_seq_sdec, fun hs _ => (seqStep_next hstep).sdec_mem_hist hs⟩

/-! ## Commands that need no key -/

/-- A command that passes CHECK goes on along the rest of its path (R145, R152). -/
theorem exec_eq_runPath {i : Instr} {s : State} (hb : s.busy = false) (hp : Passes Config.hw i s) :
    exec i s = runPath Config.hw (middlePath i ++ [.finish]) (checked i s) :=
  (exec_eq_issue_middlePath i s).trans
    (issue_check_pass _ i _ s hb ((firstCheckFailure_none_iff _ i s).mpr hp))

/-- FATAL is all that stops a command that needs no key (R145). -/
theorem Passes.of_keyless {cfg : Config} {i : Instr} {s : State} (hkey : needsKey i = false)
    (hfatal : i ≠ .nop → i ≠ .zeroize → s.fatal = false) : Passes cfg i s where
  notFatal := hfatal
  hasKey := by rintro (rfl | rfl | rfl) <;> cases hkey
  hasNonce := by rintro rfl; cases hkey
  shortEnough := by rintro (rfl | rfl) <;> cases hkey
  framedLength := by rintro rfl; cases hkey

/-- Settles O42: NOP passes CHECK, FATAL or not, and has only FINISH left. -/
theorem nopCompletes : Obligations.NopCompletes := by
  intro s hb
  rw [exec_eq_runPath hb (.of_keyless rfl fun h => absurd rfl h), middlePath, List.nil_append,
    runPath_finishOnly _ (checked .nop s) rfl, completed, List.append_nil]
  rfl

/-- Settles O43: ZEROIZE passes CHECK, FATAL or not, and CLEAR writes the rest. -/
theorem zeroizeCompletes : Obligations.ZeroizeCompletes := by
  intro s hb
  rw [exec_eq_runPath hb (.of_keyless rfl fun _ h => absurd rfl h), middlePath, List.singleton_append,
    runPath_at _ .clear _ (checked .zeroize s) rfl, seqStep_clear _ (checked .zeroize s) rfl, andThen_next,
    runPath_finishOnly _ _ (by rfl), completed, List.append_nil]
  rfl

/-- Settles O44: a seeded block has only FINISH left, an unseeded one takes the Seed first. -/
theorem seedCompletes : Obligations.SeedCompletes := by
  intro s hb hf
  have hexec : exec .seed s = runPath Config.hw [.seed, .finish] (checked .seed s) :=
    exec_eq_runPath hb (.of_keyless rfl fun _ _ => hf)
  rw [hexec]
  refine ⟨fun hseeded => ?_, fun seed rest hseeded he hl => ?_⟩
  · have hq : (checked .seed s).seq = .finish := by simp [checked, afterCheck, hseeded]
    rw [runPath_skip _ _ _ _ (by simp [hq]), runPath_finishOnly _ _ hq, completed, List.append_nil]
    rfl
  · have hq : (checked .seed s).seq = .seed := by simp [checked, afterCheck, hseeded]
    rw [runPath_at _ _ _ _ hq, seqStep_seeds _ (checked .seed s) seed rest hq he hl, andThen_next,
      runPath_finishOnly _ _ (by rfl)]
    exact ⟨_, rfl, rfl, rfl, rfl⟩

/-- Settles O45: `runPath_toDraw` seeds if needed and draws, and FINISH is left. -/
theorem genNonceCompletes : Obligations.GenNonceCompletes := by
  intro s st es rest hb hf hready
  obtain ⟨o, rfl, hpath⟩ := runPath_toDraw Config.hw .genNonce [.finish] s st es rest (.inl rfl) hready
  have hexec : exec .genNonce s = runPath Config.hw [.seed, .draw, .finish] (checked .genNonce s) :=
    exec_eq_runPath hb (.of_keyless rfl fun _ _ => hf)
  rw [hexec, hpath, runPath_finishOnly _ _ (by rfl)]
  refine ⟨_, rfl, ?_, drawNonce_toList _ _, rfl⟩
  rw [completed, ← List.append_assoc]
  rfl

/-! ## Encryption -/

/-- An envelope's length does not wrap (R12, R168). -/
theorem envelopeLength_toNat {cfg : Config} {d : Length} (h : d.toNat ≤ cfg.maxPt) :
    (72#64 + d).toNat = 72 + d.toNat := by
  have := cfg.maxPtHigh
  rw [BitVec.toNat_add, BitVec.toNat_ofNat]
  omega

/-- What the encrypting tail leaves in OUT, from a state `u` that a command on `s` has reached (R155). -/
theorem encrypted_of_outAfterFrame {cfg : Config} {n : Bytes32} {s t u : State}
    (htout : t.outBuf = outAfterFrame cfg u) (htlen : t.outLen = 72#64 + u.latLen) (hnonce : u.nonce = n)
    (hkey : u.key = s.key) (hin : u.inBuf = s.inBuf) (hout : u.outBuf = s.outBuf)
    (hlat : u.latLen = s.dataLen) (hmax : s.dataLen.toNat ≤ cfg.maxPt) : Encrypted cfg n s t := by
  obtain ⟨hbytes, hrest⟩ := outAfterFrame_envelope cfg u
  rw [← htout, hlat] at hbytes hrest
  rw [hnonce, hkey, hin] at hbytes
  rw [hout] at hrest
  exact ⟨hbytes, by rw [htlen, hlat, envelopeLength_toNat hmax], hrest⟩

/-- Settles O46: CHECK passes, and the encrypting tail runs on the loaded nonce. -/
theorem encRawCompletes : Obligations.EncRawCompletes := by
  intro s hb hf hkey hnonce hmax
  have hp : Passes Config.hw .encRaw s := ⟨fun _ _ => hf, fun _ => hkey, fun _ => hnonce, fun _ => hmax, nofun⟩
  have hop : opcodeField (encode .encRaw) ≠ 0x4#4 := by decide
  refine ⟨_, (exec_eq_runPath hb hp).trans (runPath_encryptTail _ (checked .encRaw s) rfl hop hmax), ?_,
    encrypted_of_outAfterFrame rfl rfl rfl rfl rfl rfl rfl hmax⟩
  rw [completed, List.append_assoc]
  rfl

/-- Settles O47: CHECK passes, the draw loads the nonce, and the encrypting tail runs on it. -/
theorem encCompletes : Obligations.EncCompletes := by
  intro s st es rest hb hf hkey hmax hready
  have hp : Passes Config.hw .enc s := ⟨fun _ _ => hf, fun _ => hkey, nofun, fun _ => hmax, nofun⟩
  have hop : opcodeField (encode .enc) ≠ 0x4#4 := by decide
  obtain ⟨o, rfl, hdraw⟩ := runPath_toDraw Config.hw .enc (middlePath .encRaw ++ [.finish]) s st es rest
    (.inr rfl) hready
  refine ⟨_, ((exec_eq_runPath hb hp).trans hdraw).trans (runPath_encryptTail _ _ rfl hop hmax), ?_,
    drawNonce_toList _ _, rfl, encrypted_of_outAfterFrame rfl rfl rfl rfl rfl rfl rfl hmax⟩
  simp only [completed, List.append_assoc, List.cons_append, List.nil_append]
  rfl

/-! ## Decryption -/

/-- A DEC_RAW that passes CHECK goes on along `decryptTail` (R152). -/
theorem exec_decRaw_eq_runPath {s : State} (hb : s.busy = false) (hp : Passes Config.hw .decRaw s) :
    exec .decRaw s = runPath Config.hw decryptTail (checked .decRaw s) :=
  exec_eq_runPath hb hp

theorem opcodeField_decRaw : opcodeField (encode .decRaw) = 0x4#4 := by decide

/-- A DEC_RAW that passes CHECK on an authentic envelope decrypts it into OUT (R157). -/
theorem exec_decRaw_match {s : State} (hb : s.busy = false) (hp : Passes Config.hw .decRaw s)
    (hmac : macField s.inBuf = tagOf Config.hw s.key (ciphertextField s)) :
    exec .decRaw s = .next (completed (encode .decRaw) .ok
      ([.kdf .enc, .kdf .mac, .mac (s.dataLen.toNat - 72)] ++ compareEvents ++ [.sdec (s.dataLen.toNat - 72)])
      { s with
        latLen := s.dataLen - 72#64, outLen := s.dataLen - 72#64
        outBuf := s.outBuf.writeBytes 0 (Config.hw.sdec (Config.hw.kdf s.key Config.hw.labelEnc)
          (nonceField s.inBuf) (ciphertextField s))
        skEnc := zero32, skMac := zero32, tagCalc := zero32, diff := 0#8, cmpI := 0, kdfSel := .enc }) := by
  have hlat : (checked .decRaw s).latLen.toNat = s.dataLen.toNat - 72 := hp.latched_decRaw
  have htail := runPath_decryptTail_match Config.hw (checked .decRaw s) rfl opcodeField_decRaw
    (hp.latched_le (.inr (.inr rfl))) (by rw [hlat]; exact hmac)
  rw [hlat] at htail
  rw [exec_decRaw_eq_runPath hb hp, htail]
  simp only [completed, List.append_assoc, List.cons_append, List.nil_append]
  rfl

/-- A DEC_RAW that passes CHECK on a forged envelope completes with BAD_MAC (R157, R185). -/
theorem exec_decRaw_differ {s : State} (hb : s.busy = false) (hp : Passes Config.hw .decRaw s)
    (hmac : macField s.inBuf ≠ tagOf Config.hw s.key (ciphertextField s)) :
    exec .decRaw s = .next (completed (encode .decRaw) .badMac
      ([.kdf .enc, .kdf .mac, .mac (s.dataLen.toNat - 72)] ++ compareEvents)
      { s with
        latLen := s.dataLen - 72#64, outLen := 0#64
        skEnc := zero32, skMac := zero32, tagCalc := zero32, diff := 0#8, cmpI := 0, kdfSel := .enc }) := by
  have hlat : (checked .decRaw s).latLen.toNat = s.dataLen.toNat - 72 := hp.latched_decRaw
  have htail := runPath_decryptTail_differ Config.hw (checked .decRaw s) rfl opcodeField_decRaw
    (hp.latched_le (.inr (.inr rfl))) (by rw [hlat]; exact hmac)
  rw [hlat] at htail
  rw [exec_decRaw_eq_runPath hb hp, htail]
  simp only [completed, List.append_assoc, List.cons_append, List.nil_append]
  rfl

theorem ciphertextField_length (s : State) : (ciphertextField s).length = s.dataLen.toNat - 72 :=
  Memory.readBytes_length _ _ _

/-- A byte string written at address 0 is read back, and the bytes beyond it are as before. -/
theorem Memory.writeBytes_zero (m : Memory) {v : Bytes} {n : Nat} (h : v.length = n) :
    (m.writeBytes 0 v).readBytes 0 n = v ∧ ∀ a, n ≤ a → (m.writeBytes 0 v).read a = m.read a := by
  subst h
  exact ⟨m.readBytes_writeBytes_same 0 v, fun a ha => m.read_writeBytes_other 0 v a (.inr (by omega))⟩

/-- Settles O48: the verdict is byte equality of the MACs, and SDEC writes its output at OUT[0]. -/
theorem decRawDecryptsAnAuthenticEnvelope : Obligations.DecRawDecryptsAnAuthenticEnvelope := by
  intro s hb hf hkey hmax hframed hmac
  obtain ⟨hheader, hfield⟩ := (framed_iff _ _).mp hframed
  have hp : Passes Config.hw .decRaw s :=
    ⟨fun _ _ => hf, fun _ => hkey, nofun, nofun, fun _ => ⟨hheader, hmax, hfield⟩⟩
  exact ⟨_, exec_decRaw_match hb hp hmac, rfl,
    s.outBuf.writeBytes_zero ((Config.hw.sdecLen _ _ _).trans (ciphertextField_length s))⟩

/-! ## The bound of 39 steps -/

/-- A RUN that has come to its end: IDLE, not busy, DONE set (R151). -/
def RunsToIdle (r : Result) : Prop := ∃ t, r = .next t ∧ t.seq = .idle ∧ t.busy = false ∧ t.done = true

theorem runsToIdle_of_completed {r : Result} {t u : State} {w : Word} {c : ResultCode} {es : List Event}
    (hr : r = .next t) (ht : t = completed w c es u) : RunsToIdle r :=
  ⟨t, hr, congrArg State.seq ht, congrArg State.busy ht, congrArg State.done ht⟩

/-- SEED is not enabled while no answer of the entropy source waits (R111, log 3). -/
theorem seqStep_seed_of_no_answer {cfg : Config} {s : State} (hs : s.seq = .seed)
    (hno : ∀ a rest, s.env.entropy = a :: rest → answerLegal cfg a = false) : seqStep cfg s = .next s := by
  rw [seqStep_seed _ _ hs]
  rcases seedStep_cases cfg s with ⟨hwait, -⟩ | ⟨rest, he, -⟩ | ⟨seed, rest, he, hl, -⟩
  · rw [hwait]
  · cases hno _ rest he
  · exact absurd (hno _ rest he) (by simp [answerLegal, hl])

/-- A command that needs a PRNG state finds one, or takes the entropy source's failure, or is not answered
(R111, R130, R131). -/
theorem prngReady_or (cfg : Config) (s : State) :
    (∃ st es rest, PrngReady cfg s st es rest) ∨
    (s.seeded = true ∧ s.prngState = none) ∨
    (s.seeded = false ∧ ∃ rest, s.env.entropy = .fail :: rest) ∨
    (s.seeded = false ∧ ∀ a rest, s.env.entropy = a :: rest → answerLegal cfg a = false) := by
  cases hseeded : s.seeded with
  | true =>
    cases hprng : s.prngState with
    | none => exact .inr (.inl ⟨rfl, rfl⟩)
    | some o =>
      exact .inl ⟨_, _, _, .inl ⟨hseeded, congrArg (Option.map (pstateOf cfg)) hprng, rfl, rfl⟩⟩
  | false =>
    rcases seedStep_cases cfg s with ⟨-, hno⟩ | ⟨rest, he, -⟩ | ⟨seed, rest, he, hl, -⟩
    · exact .inr (.inr (.inr ⟨rfl, hno⟩))
    · exact .inr (.inr (.inl ⟨rfl, rest, he⟩))
    · exact .inl ⟨_, _, _, .inr ⟨hseeded, rfl, seed, hl, he, rfl⟩⟩

/-- With the invariant and an answer waiting, seeding succeeds or fails (R111). -/
theorem Inv.prngReady_or_fail {cfg : Config} {s : State} (h : Inv cfg s) (he : s.env.entropy ≠ []) :
    (∃ st es rest, PrngReady cfg s st es rest) ∨
    (s.seeded = false ∧ ∃ rest, s.env.entropy = .fail :: rest) := by
  rcases prngReady_or cfg s with hready | ⟨hseeded, hnone⟩ | hfail | ⟨-, hno⟩
  · exact .inl hready
  · have := h.seeding.1.mp hseeded
    simp [hnone] at this
  · exact .inr hfail
  · obtain ⟨a, rest, ha⟩ := List.exists_cons_of_ne_nil he
    have hlegal := h.answers a (ha ▸ List.mem_cons_self)
    simp [hno a rest ha] at hlegal

/-- A command that passes CHECK completes, if the entropy source has an answer waiting (R165). -/
theorem exec_runsToIdle_of_passes {i : Instr} {s : State} (hs : Inv Config.hw s) (hb : s.busy = false)
    (he : s.env.entropy ≠ []) (hp : Passes Config.hw i s) : RunsToIdle (exec i s) := by
  have hfailed : i = .genNonce ∨ i = .enc ∨ i = .seed →
      (s.seeded = false ∧ ∃ rest, s.env.entropy = .fail :: rest) → RunsToIdle (exec i s) := by
    rintro hi ⟨hseeded, rest, hrest⟩
    have hc := (firstCheckFailure_none_iff _ _ _).mpr hp
    exact runsToIdle_of_completed (failedSeedingSetsFatal i s rest hb hi hc hseeded hrest) rfl
  cases i with
  | nop => exact runsToIdle_of_completed (nopCompletes s hb) rfl
  | zeroize => exact runsToIdle_of_completed (zeroizeCompletes s hb) rfl
  | genNonce =>
    rcases hs.prngReady_or_fail he with ⟨st, es, rest, hready⟩ | hfail
    · obtain ⟨t, hexec, ht, -⟩ := genNonceCompletes s st es rest hb (hp.notFatal nofun nofun) hready
      exact runsToIdle_of_completed hexec ht
    · exact hfailed (.inl rfl) hfail
  | enc =>
    rcases hs.prngReady_or_fail he with ⟨st, es, rest, hready⟩ | hfail
    · obtain ⟨t, hexec, ht, -⟩ := encCompletes s st es rest hb (hp.notFatal nofun nofun)
        (hp.hasKey (.inr (.inl rfl))) (hp.shortEnough (.inr rfl)) hready
      exact runsToIdle_of_completed hexec ht
    · exact hfailed (.inr (.inl rfl)) hfail
  | seed =>
    obtain ⟨hseeded, hunseeded⟩ := seedCompletes s hb (hp.notFatal nofun nofun)
    rcases hs.prngReady_or_fail he with
      ⟨st, es, rest, ⟨hyes, -⟩ | ⟨hno, -, seed, hl, hrest, -⟩⟩ | hfail
    · exact runsToIdle_of_completed (hseeded hyes) rfl
    · obtain ⟨t, hexec, ht, -⟩ := hunseeded seed rest hno hrest hl
      exact runsToIdle_of_completed hexec ht
    · exact hfailed (.inr (.inr rfl)) hfail
  | encRaw =>
    obtain ⟨t, hexec, ht, -⟩ := encRawCompletes s hb (hp.notFatal nofun nofun) (hp.hasKey (.inl rfl))
      (hp.hasNonce rfl) (hp.shortEnough (.inl rfl))
    exact runsToIdle_of_completed hexec ht
  | decRaw =>
    by_cases hmac : macField s.inBuf = tagOf Config.hw s.key (ciphertextField s)
    · exact runsToIdle_of_completed (exec_decRaw_match hb hp hmac) rfl
    · exact runsToIdle_of_completed (exec_decRaw_differ hb hp hmac) rfl

/-- The RUN of any word completes, if the entropy source has an answer waiting (R165). -/
theorem runWord_runsToIdle {s : State} (hs : Inv Config.hw s) (hb : s.busy = false) (he : s.env.entropy ≠ [])
    (w : Word) : RunsToIdle (runWord w s) := by
  cases hd : decode w with
  | illegal why =>
    rw [runWord_of_decode_illegal hd]
    exact runsToIdle_of_completed (execIllegal_completes hb hd) rfl
  | command i =>
    rw [runWord_of_decode hd]
    cases hc : firstCheckFailure Config.hw i s with
    | some c => exact runsToIdle_of_completed (exec_check_fail hb hc) rfl
    | none => exact exec_runsToIdle_of_passes hs hb he ((firstCheckFailure_none_iff _ _ _).mp hc)

/-- Settles O56: the RUN of a word is its acceptance and at most 39 steps (`runWord_idle`), and it completes. -/
theorem everyAcceptedWordCompletesInThirtyNineSteps :
    Obligations.EveryAcceptedWordCompletesInThirtyNineSteps := by
  intro s w hs hb he
  obtain ⟨n, hn, hrun⟩ := runWord_idle w s hb
  obtain ⟨t, ht, hend⟩ := runWord_runsToIdle hs hb he w
  exact ⟨n, t, hn, hrun.symm.trans ht, hend⟩

/-! ## The round trip -/

/-- The fields of an envelope that stands in a buffer (R167, R171). -/
theorem fields_of_envelope {m : Memory} {n t : Bytes32} {c : Bytes} (hlen : c.length < 2 ^ 64)
    (h : m.readBytes 0 (72 + c.length) = envelope n t c) :
    nonceField m = n ∧ macField m = t ∧ lengthField m = c.length ∧ m.readBytes 72 c.length = c := by
  have hsplit : m.readBytes 0 (72 + c.length) =
      m.readBytes 0 32 ++ m.readBytes 32 32 ++ m.readBytes 64 8 ++ m.readBytes 72 c.length := by
    rw [Memory.readBytes_add m 0 72, Memory.readBytes_add m 0 64 8, Memory.readBytes_add m 0 32 32]
  rw [hsplit, envelope] at h
  obtain ⟨hheader, hc⟩ := List.append_inj h (by simp [Memory.readBytes_length])
  obtain ⟨hblocks, hl⟩ := List.append_inj hheader (by simp [Memory.readBytes_length])
  obtain ⟨hn, ht⟩ := List.append_inj hblocks (by simp [Memory.readBytes_length])
  refine ⟨Bytes32.ext_toList (m.readBlock_toList 0 |>.trans hn),
    Bytes32.ext_toList (m.readBlock_toList 32 |>.trans ht), ?_, hc⟩
  rw [lengthField, hl, leNat_u64le, BitVec.toNat_ofNat, Nat.mod_eq_of_lt hlen]

/-- No failure of CHECK is reported as OK (R183, R195). -/
theorem codeOf_ne_ok_of_firstCheckFailure {cfg : Config} {i : Instr} {s : State} {c : ResultCode}
    (h : firstCheckFailure cfg i s = some c) : codeOf c ≠ codeOf .ok := by
  unfold firstCheckFailure at h
  split_ifs at h <;> cases h <;> decide

/-- A command that has completed with OK has passed CHECK. -/
theorem passes_of_exec_ok {i : Instr} {s t : State} (hb : s.busy = false) (h : exec i s = .next t)
    (hr : t.result = codeOf .ok) : Passes Config.hw i s := by
  rw [← firstCheckFailure_none_iff]
  cases hc : firstCheckFailure Config.hw i s with
  | none => rfl
  | some c =>
    rw [exec_check_fail hb hc] at h
    cases h
    exact absurd hr (codeOf_ne_ok_of_firstCheckFailure hc)

/-- An ENC that has completed with OK found a PRNG state for its draw (R130, R131). -/
theorem prngReady_of_exec_enc_ok {s t : State} (hb : s.busy = false) (h : exec .enc s = .next t)
    (hbt : t.busy = false) (hr : t.result = codeOf .ok) : ∃ st es rest, PrngReady Config.hw s st es rest := by
  have hp := passes_of_exec_ok hb h hr
  have hc := (firstCheckFailure_none_iff _ _ _).mpr hp
  rcases prngReady_or Config.hw s with hready | ⟨hseeded, hnone⟩ | ⟨hseeded, rest, he⟩ | ⟨hseeded, hno⟩
  · exact hready
  · have hq : (checked .enc s).seq = .draw := by simp [checked, afterCheck, hseeded]
    have hfault : drawStep Config.hw (checked .enc s) = .fault .drawUnseeded := by
      simp [drawStep, checked, hnone]
    rw [exec_eq_runPath hb hp, middlePath, List.cons_append, List.cons_append,
      runPath_skip _ _ _ _ (by simp [hq]), runPath_at _ _ _ _ hq, seqStep_draw _ _ hq, hfault] at h
    cases h
  · rw [failedSeedingSetsFatal .enc s rest hb (.inr (.inl rfl)) hc hseeded he] at h
    cases h
    cases hr
  · have hq : (checked .enc s).seq = .seed := by simp [checked, afterCheck, hseeded]
    obtain ⟨n, hexec⟩ := exec_check_pass hb hc
    rw [hexec, seqRun_of_seqStep_eq_self (seqStep_seed_of_no_answer hq hno) n] at h
    cases h
    cases hbt

/-- An ENC_RAW or ENC that has completed with OK left an envelope in OUT (R155, R156). -/
theorem encrypted_of_exec_ok {i : Instr} {s t : State} (hi : i = .encRaw ∨ i = .enc) (hb : s.busy = false)
    (h : exec i s = .next t) (hbt : t.busy = false) (hr : t.result = codeOf .ok) :
    s.dataLen.toNat ≤ Config.hw.maxPt ∧ ∃ n, Encrypted Config.hw n s t := by
  have hp := passes_of_exec_ok hb h hr
  have hmax := hp.shortEnough hi
  refine ⟨hmax, ?_⟩
  rcases hi with rfl | rfl
  · obtain ⟨t', hexec, -, henc⟩ := encRawCompletes s hb (hp.notFatal nofun nofun) (hp.hasKey (.inl rfl))
      (hp.hasNonce rfl) hmax
    cases h.symm.trans hexec
    exact ⟨_, henc⟩
  · obtain ⟨st, es, rest, hready⟩ := prngReady_of_exec_enc_ok hb h hbt hr
    obtain ⟨t', hexec, -, -, -, henc⟩ := encCompletes s st es rest hb (hp.notFatal nofun nofun)
      (hp.hasKey (.inr (.inl rfl))) hmax hready
    cases h.symm.trans hexec
    exact ⟨_, henc⟩

/-- Settles O57: the envelope's fields are read back from IN, its MAC field is the MAC of its ciphertext, so
DEC_RAW decrypts, and the stream engine undoes itself. -/
theorem decryptionUndoesEncryption : Obligations.DecryptionUndoesEncryption := by
  intro i s t s' hi hb hexec hbt hr hb' hf' hkm' hkey' hlen' hcopy
  obtain ⟨hmax, n, hbytes, -, -⟩ := encrypted_of_exec_ok hi hb hexec hbt hr
  have hhigh := Config.hw.maxPtHigh
  have hd : s'.dataLen.toNat = 72 + s.dataLen.toNat := hlen' ▸ envelopeLength_toNat hmax
  rw [← hcopy] at hbytes
  generalize hp : s.inBuf.readBytes 0 s.dataLen.toNat = p at hbytes ⊢
  generalize hc : cipherOf Config.hw s.key n p = c at hbytes
  have hclen : c.length = s.dataLen.toNat := by rw [← hc, cipherOf_length, ← hp, Memory.readBytes_length]
  rw [← hclen] at hbytes
  obtain ⟨hnonce, hmac, hfield, hcipher⟩ := fields_of_envelope (by omega) hbytes
  have hL : s'.dataLen.toNat - 72 = c.length := by omega
  have hct : ciphertextField s' = c := by rw [ciphertextField, hL, hcipher]
  obtain ⟨u, hu, hcompleted, hplain, -⟩ := decRawDecryptsAnAuthenticEnvelope s' hb' hf' hkm' (by omega)
    ((framed_iff _ _).mpr ⟨by omega, hfield.trans hL.symm⟩) (by rw [hmac, hkey', hct])
  refine ⟨u, hu, congrArg State.result hcompleted, congrArg State.busy hcompleted,
    (congrArg State.outLen hcompleted).trans ?_, ?_⟩
  · rw [hlen']
    exact add_sub_cancel_left _ _
  · rw [hL, hclen, hct, hnonce, hkey', ← hc] at hplain
    exact hplain.trans (Config.hw.streamInv _ _ _)

end Sys2Proof.Machine

/-! PROOF. Framing and verification: the length field and the envelope's fields, the verdict of the 32 compares, and
what DEC_RAW reports (44_framing_verify.md). -/

namespace Sys2Proof.Machine

/-! ## Framing -/

/-- The length field, its eight bytes least significant first (R171, R173). -/
theorem lengthField_eq_sum (m : Memory) :
    lengthField m = (m.read 64).toNat + 2 ^ 8 * (m.read 65).toNat + 2 ^ 16 * (m.read 66).toNat +
      2 ^ 24 * (m.read 67).toNat + 2 ^ 32 * (m.read 68).toNat + 2 ^ 40 * (m.read 69).toNat +
      2 ^ 48 * (m.read 70).toNat + 2 ^ 56 * (m.read 71).toNat := by
  simp only [lengthField, Memory.readBytes_succ, Memory.readBytes_zero, leNat, Nat.reduceAdd]
  omega

/-- Settles O41: `framed` compares the length field, as a number of 64 bits, with `D - 72`. -/
theorem framedMeansExactLength : Obligations.FramedMeansExactLength := by
  intro m d
  rw [← lengthField_eq_sum]
  exact (framed_iff m d).trans (and_congr_right fun hheader => eq_tsub_iff_add_eq_of_le hheader)

/-- Settles O40: the fields are read back from the envelope, and the declared length does not wrap. -/
theorem parsingInvertsFraming : Obligations.ParsingInvertsFraming := by
  intro cfg m n t c hmax henv
  have hhigh := cfg.maxPtHigh
  obtain ⟨hn, ht, hlength, hc⟩ := fields_of_envelope (by omega) henv
  have hd : (BitVec.ofNat 64 (72 + c.length)).toNat = 72 + c.length :=
    Nat.mod_eq_of_lt (by omega)
  exact ⟨(framed_iff _ _).mpr ⟨by omega, by rw [hd, ← lengthField, hlength]; omega⟩, hn, ht, hlength, hc⟩

/-! ## The 32 compares -/

/-- The MAC field of the envelope byte by byte (R167). -/
theorem macField_eq_iff (m : Memory) (t : Bytes32) :
    macField m = t ↔ ∀ i : Fin 32, t[i.val] = m.read (32 + i.val) := by
  constructor
  · rintro rfl i
    exact m.readBlock_getElem 32 i.val i.isLt
  · exact fun h => Vector.ext fun i hi => (m.readBlock_getElem 32 i hi).trans (h ⟨i, hi⟩).symm

/-- Settles O34: after the 32 compares `diff` is the OR of the byte XORs, and the verdict branches on it. -/
theorem compareDecidesByteEquality : Obligations.CompareDecidesByteEquality := by
  intro s hs hd hi
  have hequal : (comparing s 32 (by omega)).diff = 0#8 ↔
      ∀ i : Fin 32, s.tagCalc[i.val] = s.inBuf.read (32 + i.val) :=
    (diffAfter_mac s).trans (macField_eq_iff s.inBuf s.tagCalc)
  have hrun := seqRun_compare Config.hw s hs hd hi
  rcases verdict_cases (comparing s 32 (by omega)) with ⟨hzero, hverdict⟩ | ⟨hne, hverdict⟩ <;>
    rw [hverdict] at hrun
  · exact ⟨_, hrun, rfl, hequal, fun _ => ⟨rfl, rfl⟩, fun h => absurd (hequal.mp hzero) h⟩
  · exact ⟨_, hrun, rfl, hequal, fun h => absurd (hequal.mpr h) hne, fun _ => ⟨rfl, rfl⟩⟩

/-! ## From CHECK to the verdict -/

/-- The sequencer's state `n` steps after the CHECK of a DEC_RAW that passes, up to the last compare (R152, R178). -/
def verificationSeq : Nat → SeqState
  | 0 => .check
  | 1 => .kdfEnc
  | 2 => .kdfMac
  | 3 => .macChk
  | _ + 4 => .cmp

/-- The events of the first `n` steps from the CHECK of a DEC_RAW that passes with the ciphertext length `l`, up to
the verdict (R178). -/
def verificationEvents (l : Nat) : Nat → List Event
  | 0 | 1 => []
  | 2 => [.kdf .enc]
  | 3 => [.kdf .enc, .kdf .mac]
  | k + 4 => [.kdf .enc, .kdf .mac, .mac l] ++ (List.range k).map .cmp

/-- CHECK of a command that passes (R145). -/
theorem seqStep_check_pass {cfg : Config} {i : Instr} {s : State} (hs : s.seq = .check)
    (hcmd : s.cmdRaw = encode i) (hc : firstCheckFailure cfg i s = none) :
    seqStep cfg s = .next { s with
      outLen := if clearsOutLen i then 0#64 else s.outLen
      latLen := latchedLength i s.dataLen
      seq := afterCheck i s.seeded } := by
  rw [seqStep_check _ _ hs, checkStep_encode cfg i s hcmd, checkCommand_eq, hc]

/-- From KDF_ENC a DEC_RAW is at the compare of byte `k` after `k + 3` steps. -/
theorem seqRun_toComparing {cfg : Config} {s : State} (hs : s.seq = .kdfEnc)
    (hop : opcodeField s.cmdRaw = 0x4#4) (hl : s.latLen.toNat ≤ cfg.maxPt) {k : Nat} (hk : k < 32) :
    seqRun cfg (k + 3) s = .next (comparing (atCompare cfg s) k (by omega)) := by
  have h := seqRun_comparing cfg (atCompare cfg s) rfl k 0 (by omega)
  rw [comparing_zero _ rfl rfl] at h
  rw [Nat.add_comm k 3, seqRun_add, seqRun_toCompare cfg s hs hop hl, andThen_next, h]
  simp only [Nat.zero_add]

/-- From KDF_ENC a DEC_RAW has its verdict after 35 steps. -/
theorem seqRun_toVerdict {cfg : Config} {s : State} (hs : s.seq = .kdfEnc)
    (hop : opcodeField s.cmdRaw = 0x4#4) (hl : s.latLen.toNat ≤ cfg.maxPt) :
    seqRun cfg 35 s = .next (verdict (comparing (atCompare cfg s) 32 (by omega))) := by
  rw [seqRun_add cfg 3 32, seqRun_toCompare cfg s hs hop hl, andThen_next,
    seqRun_compare cfg _ rfl rfl rfl]

/-- The states and events of a verification from KDF_ENC on, which the latched length alone determines (R178). -/
theorem seqRun_verification_kdfEnc {cfg : Config} {s : State} (hs : s.seq = .kdfEnc)
    (hop : opcodeField s.cmdRaw = 0x4#4) (hl : s.latLen.toNat ≤ cfg.maxPt) {n : Nat} (hn : n ≤ 35) :
    ∃ t, seqRun cfg n s = .next t ∧ t.hist = s.hist ++ verificationEvents s.latLen.toNat (n + 1) ∧
      (n < 35 → t.seq = verificationSeq (n + 1)) := by
  match n with
  | 0 => exact ⟨s, rfl, (List.append_nil _).symm, fun _ => hs⟩
  | 1 =>
    refine ⟨kdfEncStep cfg s, ?_, rfl, fun _ => kdfEncStep_seq _ _⟩
    rw [seqRun_succ, seqStep_kdfEnc _ _ hs, andThen_next, seqRun_zero]
  | 2 =>
    refine ⟨kdfMacStep cfg (kdfEncStep cfg s), ?_, List.append_assoc _ _ _, fun _ => if_pos hop⟩
    rw [seqRun_succ, seqStep_kdfEnc _ _ hs, andThen_next, seqRun_succ,
      seqStep_kdfMac _ _ (kdfEncStep_seq _ _), andThen_next, seqRun_zero]
  | k + 3 =>
    have hhist : ∀ hk, (comparing (atCompare cfg s) k hk).hist =
        s.hist ++ verificationEvents s.latLen.toNat (k + 4) := fun _ => List.append_assoc _ _ _
    rcases Nat.lt_or_eq_of_le (show k ≤ 32 by omega) with hk | rfl
    · exact ⟨_, seqRun_toComparing hs hop hl hk, hhist _, fun _ => rfl⟩
    · exact ⟨_, seqRun_toVerdict hs hop hl, (verdict_hist _).trans (hhist _), fun h => absurd h (by omega)⟩

/-- A DEC_RAW that passes CHECK goes through the states and events that `data_len` alone determines (R178). -/
theorem seqRun_verification {cfg : Config} {s : State} (hs : s.seq = .check) (hcmd : s.cmdRaw = encode .decRaw)
    (hc : firstCheckFailure cfg .decRaw s = none) {n : Nat} (hn : n ≤ 36) :
    ∃ t, seqRun cfg n s = .next t ∧ t.hist = s.hist ++ verificationEvents (s.dataLen.toNat - 72) n ∧
      (n < 36 → t.seq = verificationSeq n) := by
  cases n with
  | zero => exact ⟨s, rfl, (List.append_nil _).symm, fun _ => hs⟩
  | succ n =>
    have hp := (firstCheckFailure_none_iff _ _ _).mp hc
    rw [seqRun_succ, seqStep_check_pass hs hcmd hc, andThen_next, ← hp.latched_decRaw]
    obtain ⟨t, hrun, hhist, hseq⟩ := seqRun_verification_kdfEnc (cfg := cfg)
      (s := { s with outLen := 0#64, latLen := latchedLength .decRaw s.dataLen, seq := .kdfEnc }) rfl
      (hcmd ▸ opcodeField_decRaw) (hp.latched_le (.inr (.inr rfl))) (Nat.le_of_succ_le_succ hn)
    exact ⟨t, hrun, hhist, fun h => hseq (by omega)⟩

/-- Settles O35: both runs go through the states and events of the one `data_len`. -/
theorem verificationIsConstantTime : Obligations.VerificationIsConstantTime := by
  intro s s' hs hs' hcmd hcmd' hlen hc hc' n hn
  obtain ⟨t, hrun, hhist, hseq⟩ := seqRun_verification hs hcmd hc hn
  obtain ⟨t', hrun', hhist', hseq'⟩ := seqRun_verification hs' hcmd' hc' hn
  rw [← hlen] at hhist'
  exact ⟨t, t', _, hrun, hrun', hhist, hhist', fun h => (hseq h).trans (hseq' h).symm⟩

/-! ## What DEC_RAW reports -/

/-- The result and the `out_len` of a DEC_RAW: the first failure of CHECK, or the verdict on the MAC (R157). -/
def decRawReport (cfg : Config) (s : State) : BitVec 4 × Length :=
  match firstCheckFailure cfg .decRaw s with
  | some c => (codeOf c, 0#64)
  | none =>
    if macField s.inBuf = tagOf cfg s.key (ciphertextField s) then (codeOf .ok, s.dataLen - 72#64)
    else (codeOf .badMac, 0#64)

/-- A DEC_RAW completes with its report (R157, R198). -/
theorem exec_decRaw_report {s t : State} (hb : s.busy = false) (h : exec .decRaw s = .next t) :
    (t.result, t.outLen) = decRawReport Config.hw s := by
  unfold decRawReport
  cases hc : firstCheckFailure Config.hw .decRaw s with
  | some c =>
    cases h.symm.trans (exec_check_fail hb hc)
    rfl
  | none =>
    have hp := (firstCheckFailure_none_iff _ _ _).mp hc
    by_cases hmac : macField s.inBuf = tagOf Config.hw s.key (ciphertextField s)
    · cases h.symm.trans (exec_decRaw_match hb hp hmac)
      exact (if_pos hmac).symm
    · cases h.symm.trans (exec_decRaw_differ hb hp hmac)
      exact (if_neg hmac).symm

/-- The report reads the length field, the MAC field and the ciphertext, and not the nonce field (R174). -/
theorem decRawReport_of_read_eq (cfg : Config) {s : State} {m : Memory}
    (hm : ∀ a, 32 ≤ a → m.read a = s.inBuf.read a) :
    decRawReport cfg { s with inBuf := m } = decRawReport cfg s := by
  have hbytes : ∀ a n, 32 ≤ a → m.readBytes a n = s.inBuf.readBytes a n := fun a n ha =>
    Memory.readBytes_congr _ _ _ _ fun i hi _ => hm i (ha.trans hi)
  have hcheck : firstCheckFailure cfg .decRaw { s with inBuf := m } = firstCheckFailure cfg .decRaw s := by
    simp only [firstCheckFailure, hbytes 64 8 (by omega)]
  have hmac : macField m = macField s.inBuf := Bytes32.ext_toList (by
    simp only [macField, Memory.readBlock_toList, hbytes 32 32 (by omega)])
  have hcipher : ciphertextField { s with inBuf := m } = ciphertextField s := hbytes 72 _ (by omega)
  simp only [decRawReport, hcheck, hmac, hcipher]

/-- Settles O58: DEC_RAW completes with its report, which does not read the nonce field. -/
theorem nonceFieldIsNotAuthenticated : Obligations.NonceFieldIsNotAuthenticated := by
  intro s t t' m hb hm hexec hexec'
  have hreport : (t'.result, t'.outLen) = (t.result, t.outLen) := calc
    (t'.result, t'.outLen) = decRawReport Config.hw { s with inBuf := m } := exec_decRaw_report hb hexec'
    _ = decRawReport Config.hw s := decRawReport_of_read_eq _ hm
    _ = (t.result, t.outLen) := (exec_decRaw_report hb hexec).symm
  exact Prod.mk.inj hreport

end Sys2Proof.Machine

/-! PROOF. What can go wrong and does not, and what is reported (60_exceptions.md): no step of a block in the invariant
faults, a command that fails CHECK reports its first failure, and a forged envelope is BAD_MAC. -/

namespace Sys2Proof.Machine

/-! ## No step faults -/

/-- The sequencer never gets stuck: each of its steps answers (`seqStep_answers`) and keeps the invariant. -/
theorem Inv.seqRun_answers {s : State} (h : Inv Config.hw s) (n : Nat) : ∃ t, seqRun Config.hw n s = .next t := by
  induction n generalizing s with
  | zero => exact ⟨s, rfl⟩
  | succ n ih =>
    obtain ⟨u, hstep⟩ := seqStep_answers Config.hw s h.seqOk
    obtain ⟨t, hrun⟩ := ih (inv_keptByMoves.seqStep h hstep)
    exact ⟨t, by rw [seqRun_succ, hstep, andThen_next, hrun]⟩

/-- Only a sequencer step and a RUN, which is a write of CMD and sequencer steps, could fault at all (R27, R182). -/
theorem Inv.performMove_answers {s : State} (h : Inv Config.hw s) (m : Move) : ∃ t, performMove m s = .next t := by
  cases m with
  | sequencer => exact seqStep_answers Config.hw s h.seqOk
  | run n w =>
    obtain ⟨k, hrun⟩ := runWord_eq_transact n w s
    obtain ⟨t, ht⟩ := (h.transact _).seqRun_answers k
    exact ⟨t, hrun.trans ht⟩
  | bus | reset | host | entropy => exact ⟨_, rfl⟩

/-- Settles O12: the next move is a step of the sequencer or the first of the moves to come, and both answer. -/
theorem theBlockNeverFaults : Obligations.TheBlockNeverFaults := by
  intro s hs
  cases hmoves : s.env.moves with
  | nil =>
    rw [step_of_moves_nil hmoves]
    exact seqStep_answers Config.hw s hs.seqOk
  | cons m ms =>
    rw [step_of_moves_cons hmoves]
    exact (inv_keptByMoves.withoutMove ms s hs).performMove_answers m

/-! ## Failures of CHECK -/

/-- ZEROIZE passes CHECK in every state, FATAL or not (R132, R145). -/
theorem firstCheckFailure_zeroize (cfg : Config) (s : State) : firstCheckFailure cfg .zeroize s = none :=
  (firstCheckFailure_none_iff cfg .zeroize s).mpr (.of_keyless rfl fun _ hne => absurd rfl hne)

/-- Of the commands that clear `out_len` at CHECK only ZEROIZE needs no key. -/
theorem clearsOutLen_iff {i : Instr} (hi : i ≠ .zeroize) :
    clearsOutLen i = true ↔ i = .encRaw ∨ i = .enc ∨ i = .decRaw := by
  cases i with
  | zeroize => exact absurd rfl hi
  | nop | genNonce | encRaw | enc | decRaw | seed => decide

/-- Settles O50: a failing command is not ZEROIZE, so it clears `out_len` exactly when it needs the key. -/
theorem failedCheckReportsTheFirstFailure : Obligations.FailedCheckReportsTheFirstFailure := by
  intro i s c hb hc
  have hi : i ≠ .zeroize := by
    rintro rfl
    cases (firstCheckFailure_zeroize Config.hw s).symm.trans hc
  rw [exec_check_fail hb hc]
  simp only [clearsOutLen_iff hi]

/-! ## A forged envelope -/

/-- A DEC_RAW of a framed envelope of at most MAX_PT bytes of ciphertext passes CHECK, if it has the key (R145). -/
theorem Passes.of_framed {cfg : Config} {s : State} (hfatal : s.fatal = false) (hkey : s.keyMask = 0xFF#8)
    (hmax : s.dataLen.toNat ≤ cfg.maxPt + 72) (hframed : framed s.inBuf s.dataLen = true) :
    Passes cfg .decRaw s where
  notFatal _ _ := hfatal
  hasKey _ := hkey
  hasNonce := nofun
  shortEnough := nofun
  framedLength _ :=
    let ⟨hheader, hfield⟩ := (framed_iff _ _).mp hframed
    ⟨hheader, hmax, hfield⟩

/-- Settles O49: such a DEC_RAW passes CHECK, and its 32 compares find the MACs to differ. -/
theorem decRawRejectsAForgedEnvelope : Obligations.DecRawRejectsAForgedEnvelope :=
  fun _ hb hfatal hkey hmax hframed hmac => exec_decRaw_differ hb (.of_framed hfatal hkey hmax hframed) hmac

end Sys2Proof.Machine

/-! PROOF. Reset (70_reset_and_hazards.md): the reset move in the total order of moves, and the registers' reset
readings (R32). -/

namespace Sys2Proof.Machine

/-! ## The reset move -/

/-- Settles O7: the move is `resetBlock`, which keeps the surroundings, here with the move taken off their list. -/
theorem resetMoveResetsEveryElement : Obligations.ResetMoveResetsEveryElement := by
  intro s ms hmoves
  calc step s = performMove .reset (withoutMove ms s) := step_of_moves_cons hmoves
    _ = .next (resetBlock (withoutMove ms s)) := rfl
    _ = .next { State.reset with env := { s.env with moves := ms } } := rfl

/-! ## Register readings at reset -/

theorem blockWord_zero32 (i : Fin 8) : blockWord zero32 i = 0#32 := by
  have hbyte (j : Nat) (hj : j < 32) : zero32[j] = 0x00#8 := Vector.getElem_replicate hj
  simp only [blockWord, hbyte]
  rfl

/-- Every register but the constants ID and VERSION reads 0 at reset (R32). -/
theorem readReg_reset {r : Reg} (hid : r ≠ .id) (hversion : r ≠ .version) : readReg r State.reset = 0#32 := by
  cases r with
  | id => exact absurd rfl hid
  | version => exact absurd rfl hversion
  | nonce i => exact blockWord_zero32 i
  | cmd | key => rfl
  | ctrl | status | loadMask | dataLenLo | dataLenHi | outLenLo | outLenHi => decide

/-- Settles O9: the elements are as `State.reset` states them, its empty buffers read blank at every address, and
`readReg_reset` is what the registers read. -/
theorem resetLeavesTheStatedValues : Obligations.ResetLeavesTheStatedValues :=
  ⟨rfl, rfl, rfl, rfl, rfl, rfl, rfl, rfl, rfl, rfl, rfl, rfl, rfl, rfl, rfl, rfl, rfl, rfl, rfl, rfl, rfl, rfl, rfl,
    rfl, rfl, rfl, Memory.read_nil, Memory.read_nil, rfl, rfl, fun _ => readReg_reset⟩

end Sys2Proof.Machine
